-- ==== Sys2Proof/Word.lean ====
section
/-! DEFINITION. The words of the hardware and the two small fixed-size collections it is built of.

Rule R8: bit 0 of every byte is the least significant bit.  Rule R39: every element has its own width and
nothing is converted silently. -/

namespace Sys2Proof

/-- A row register, a value byte, a wire-opcode byte, a character code (rule R8). -/
abbrev Byte := BitVec 8

/-- One word of the command port `cmd[31:0]` (rule R90). -/
abbrev CommandWord := BitVec 32

/-- One chip's slot of a frame as its shift register holds it: `SR[15:0]` (rules R35, R80). -/
abbrev SlotWord := BitVec 16

/-- A GlyphPattern: exactly 8 row-shaped bytes, byte r is row r (rules R12, R120). -/
abbrev Glyph := Vector Byte 8

/-- Eight values given by their index; the hardware is made of eights (rows, columns, modules). -/
def vec8 {α : Type} (f : Fin 8 → α) : Vector α 8 :=
  #v[f 0, f 1, f 2, f 3, f 4, f 5, f 6, f 7]

/-- Sixteen values given by their index (the bytes of the scratch buffer). -/
def vec16 {α : Type} (f : Fin 16 → α) : Vector α 16 :=
  #v[f 0, f 1, f 2, f 3, f 4, f 5, f 6, f 7, f 8, f 9, f 10, f 11, f 12, f 13, f 14, f 15]

/-- The indices 0..7 in ascending order: the notation `for i in 0..7` of rule R9. -/
def upTo7 : List (Fin 8) := [0, 1, 2, 3, 4, 5, 6, 7]

/-- The indices 7..0 in descending order: the notation `for i in 7 downto 0` of rule R9. -/
def downFrom7 : List (Fin 8) := [7, 6, 5, 4, 3, 2, 1, 0]

/-- The indices 0..15 in ascending order. -/
def upTo15 : List (Fin 16) := [0, 1, 2, 3, 4, 5, 6, 7, 8, 9, 10, 11, 12, 13, 14, 15]

end Sys2Proof
end

