-- ==== Sys2Proof/Config.lean ====
section
/-! DEFINITION. What is fixed for one piece of hardware and is not state: the parameters of rule R6, and the free values.

Rule R32 says that these are parameters and not state.  The four parameters rule R6 calls OPEN (`FILL_DIR`,
`DEFAULT_INTENSITY`, the glyph ROM, `INT_TO_TEXT`) are constants without a body, so that nothing can be proved of
their values.  The parameters rule R6 gives a default for are fields of `Config`; their defaults stand in
Machine/Params.lean. -/

namespace Sys2Proof

/-- OrientationMode, the three mountings (rules R12, R25, R130). -/
inductive Orientation where
  | clockwiseMount
  | counterClockwiseMount
  | mirroredMount
deriving DecidableEq, Repr, Inhabited

/-- The direction in which logical columns fill a module (rule R52). -/
inductive FillDir where
  | up
  | down
deriving DecidableEq, Repr, Inhabited

/-- `PAIR_ORDER`: which byte of a chip's slot goes first on the wire (rules R6, R57). -/
inductive PairOrder where
  | valueFirst
  | opcodeFirst
deriving DecidableEq, Repr

/-- `COLBIT_ORDER`: which bit of a column operand goes to row r: bit r, or bit 7 - r (rules R6, R58). -/
inductive ColBitOrder where
  | bitToRow
  | bitFromTop
deriving DecidableEq, Repr

/-- The parameter table of rule R6 that the block's behaviour depends on. -/
structure Config where
  /-- `FILL_DIR(mode)`, OPEN. -/
  fillDir : Orientation → FillDir
  /-- `GLYPH_UPPER[26][8]`, one flat table (rule R53), OPEN. -/
  glyphUpper : Fin 208 → Byte
  /-- `GLYPH_LOWER[26][8]`, a table of its own (rule R122), OPEN. -/
  glyphLower : Fin 208 → Byte
  /-- `GLYPH_DIGIT[10][8]`, OPEN. -/
  glyphDigit : Fin 80 → Byte
  /-- `GLYPH_FALLBACK[8]`, OPEN. -/
  glyphFallback : Fin 8 → Byte
  /-- `DEFAULT_INTENSITY`, 0..15, OPEN. -/
  defaultIntensity : BitVec 4
  /-- `INT_TO_TEXT(value, width, decimals)`, the external collaborator, OPEN (rule R209). -/
  intToText : Int → Nat → Nat → List Byte
  /-- `CODE_A` (rule R121). -/
  codeUpperA : Nat
  /-- `CODE_a` (rule R121). -/
  codeLowerA : Nat
  /-- `CODE_0` (rule R121). -/
  codeDigit0 : Nat
  /-- `CODE_SPACE` (rule R121). -/
  codeSpace : Nat
  /-- `PAIR_ORDER`. -/
  pairOrder : PairOrder
  /-- `COLBIT_ORDER`. -/
  colBitOrder : ColBitOrder
  /-- `OPC_NOOP` (rule R82). -/
  opcNoop : Byte
  /-- `OPC_ROW(r)` (rule R82). -/
  opcRow : Fin 8 → Byte
  /-- `OPC_DECODE` (rule R82). -/
  opcDecode : Byte
  /-- `OPC_INTENSITY` (rule R82). -/
  opcIntensity : Byte
  /-- `OPC_SCANLIMIT` (rule R82). -/
  opcScanLimit : Byte
  /-- `OPC_SHUTDOWN` (rule R82). -/
  opcShutdown : Byte
  /-- `OPC_DISPLAYTEST` (rule R82). -/
  opcDisplayTest : Byte
  /-- `VAL_POWER_DOWN` (rules R6, R183). -/
  valPowerDown : Byte
  /-- `VAL_POWER_UP` (rules R6, R184). -/
  valPowerUp : Byte
  /-- `VAL_DECODE_OFF` (rules R6, R187). -/
  valDecodeOff : Byte
  /-- `VAL_TEST_OFF` (rules R6, R188). -/
  valTestOff : Byte

/-- `FILL_DIR`, OPEN: the spec says only that there are two families of modes (rule R52, decision D7).  Log entry 6. -/
opaque Config.openFillDir : Orientation → FillDir

/-- `GLYPH_UPPER`, OPEN: no bitmap is in the spec (rule R123, decision D15).  Log entry 6. -/
opaque Config.openGlyphUpper : Fin 208 → Byte

/-- `GLYPH_LOWER`, OPEN, neither equal to `GLYPH_UPPER` nor different from it (rule R122).  Log entry 6. -/
opaque Config.openGlyphLower : Fin 208 → Byte

/-- `GLYPH_DIGIT`, OPEN.  Log entry 6. -/
opaque Config.openGlyphDigit : Fin 80 → Byte

/-- `GLYPH_FALLBACK`, OPEN.  Log entry 6. -/
opaque Config.openGlyphFallback : Fin 8 → Byte

/-- `DEFAULT_INTENSITY`, OPEN in 0..15 (rule R6, decision D11).  Log entry 6. -/
opaque Config.openDefaultIntensity : BitVec 4

/-- `INT_TO_TEXT`, OPEN: an uninterpreted function (rule R209, decision D25).  Log entry 6. -/
opaque Config.openIntToText : Int → Nat → Nat → List Byte

/-- The free values: byte `index` of draw number `draw`.  Used wherever the spec says "unspecified" of a value after
which the machine goes on (rules R37, R38, R224; treatment "any value").  Log entry 8. -/
opaque Config.freeByte : (draw index : Nat) → Byte

end Sys2Proof
end

