-- ==== Sys2Proof/Machine/Params.lean ====
section
/-! DEFINITION. The parameters of this hardware (rule R6): the OPEN ones are the constants without a body of Config.lean,
the others have the defaults of rules R6, R82 and R121.  Every definition that needs a parameter, the decoder and the encoder
of wire slots among them, reads it here. -/

namespace Sys2Proof.Machine

/-- The parameter table of rule R6.  Every default stands as rule R6 gives it; those rule R6 marks "from general
knowledge" are log entry 7. -/
def params : Config where
  fillDir := Config.openFillDir
  glyphUpper := Config.openGlyphUpper
  glyphLower := Config.openGlyphLower
  glyphDigit := Config.openGlyphDigit
  glyphFallback := Config.openGlyphFallback
  defaultIntensity := Config.openDefaultIntensity
  intToText := Config.openIntToText
  codeUpperA := 65
  codeLowerA := 97
  codeDigit0 := 48
  codeSpace := 32
  pairOrder := .valueFirst
  colBitOrder := .bitToRow
  opcNoop := 0
  opcRow := fun r => BitVec.ofNat 8 (r.val + 1)
  opcDecode := 9
  opcIntensity := 10
  opcScanLimit := 11
  opcShutdown := 12
  opcDisplayTest := 15
  valPowerDown := 0
  valPowerUp := 1
  valDecodeOff := 0
  valTestOff := 0

end Sys2Proof.Machine
end

