-- ==== Sys2Proof/Machine/State.lean ====
section
/-! DEFINITION. The whole state: the block (rules R20 to R31, R34), its input ports (rule R30), the chained chips (rules
R35, R36), the host's list of commands and pauses (rule R33), and the two traces (rule R10).

There is no program counter, no flag, no exception state and no byte-addressed memory (rules R27, R33, R50, R250). -/

namespace Sys2Proof.Machine

/-- The three lines of the bus (rule R29). -/
inductive Line where
  | data
  | clk
  | latchN
deriving DecidableEq, Repr

/-- One `Pin(line, level)` event (rule R9). -/
structure PinEvent where
  line : Line
  level : Bool
deriving DecidableEq, Repr

/-- One move of the block's sequencer.  A command is a list of these, in the order its rule states (rule R34); the pin
moves are single pin events, so the position inside a transaction (byte p, bit i) is the list's head. -/
inductive Act where
  /-- `N <- n` (rule R180). -/
  | setLength (n : BitVec 4)
  /-- `pins_driven <- 1` (rule R181, step a). -/
  | claimPins
  /-- Zero all 64 rows (rule R181, step b). -/
  | zeroRows
  /-- `ORIENT_Q <- o`, the decoded strap (rule R181, step b). -/
  | loadOrient (o : Orientation)
  /-- `configured <- 1` (rule R181, step b). -/
  | setConfigured
  /-- `FB[m][r] <- v`. -/
  | writeRow (m r : Fin 8) (v : Byte)
  /-- `FB[m][r] <- set(FB[m][r], c, on)`. -/
  | writeBit (m r c : Fin 8) (on : Bool)
  /-- Step 1 of `BusWrite(k, opc, val)`: assemble the frame in `TXBUF` (rule R160). -/
  | assemble (k : Fin 8) (opc val : Byte)
  /-- Step 1 of a push: the row multiplexer hands `FB[m][r]` to the encoder (rule R146). -/
  | assembleRow (m r : Fin 8)
  /-- `Pin(line, level)`. -/
  | pin (line : Line) (level : Bool)
  /-- `Pin(DATA, TXBUF[p][i])` (rule R160, step 3). -/
  | dataBit (p : Fin 16) (i : Fin 8)
  /-- `emit Frame(TXBUF[0..2N-1])` (rule R160, step 4). -/
  | emitFrame
deriving DecidableEq, Repr

/-- The sequencer while a command is in progress: the accepted command word and what is still to be done (rule R34). -/
structure Sequencer where
  word : CommandWord
  rest : List Act
deriving DecidableEq, Repr

/-- What the outside presents next (rules R30, R33): a command word on the command port, a pause, or the `rst` input. -/
inductive HostItem where
  /-- `cmd = w` with `cmd_valid = 1`, held until taken (rule R97). -/
  | command (w : CommandWord)
  /-- A host-level blocking delay (rule R9); the block is idle during it. -/
  | pause (ms : Nat)
  /-- `rst` is asserted (rules R30, R280). -/
  | powerOnReset
deriving DecidableEq, Repr

/-- The register file of one chip, `CHIP[k]` (rule R36). -/
structure ChipRegs where
  /-- `ROW[0..7]`. -/
  row : Vector Byte 8
  decode : Byte
  intensity : BitVec 4
  scanLimit : BitVec 3
  shutdown : BitVec 1
  displayTest : BitVec 1
deriving DecidableEq, Repr

structure State where
  /-- 1 bit: CONFIGURE has been carried out (rule R24). -/
  configured : Bool
  /-- `N`, the chain length in force: 4 bits, of which CONFIGURE writes 1..8 only (rule R23).  Log entry 16. -/
  n : BitVec 4
  /-- `ORIENT_Q` (rule R25). -/
  orientQ : Orientation
  /-- `FB[m][r]`, 64 row registers (rule R20). -/
  fb : Vector (Vector Byte 8) 8
  /-- `TXBUF[0..15]` (rule R28). -/
  txbuf : Vector Byte 16
  /-- `pins_driven` (rule R29). -/
  pinsDriven : Bool
  /-- The level of `DATA`; `none` is "not driven" (rules R29, R38). -/
  dataPin : Option Bool
  /-- The level of `CLK`. -/
  clkPin : Option Bool
  /-- The level of `LATCH_N`. -/
  latchPin : Option Bool
  /-- The sequencer's position; `none` is `busy = 0` (rules R31, R34). -/
  seq : Option Sequencer
  /-- The strap `ORIENT[1:0]` (rules R25, R30). -/
  orientStrap : BitVec 2
  /-- What the host has still to present, first item first (rule R33). -/
  host : List HostItem
  /-- `SR[k]`, the chips' shift registers (rule R35). -/
  sr : Vector SlotWord 8
  /-- `CHIP[k]`, the chips' register files (rule R36). -/
  chips : Vector ChipRegs 8
  /-- The chip that takes its slot next: the index k of the loop of rule R224.  Log entry 12. -/
  rx : Fin 8
  /-- Chips `rx` and above have still to take their slot at a rising edge of LATCH_N.  Log entry 12. -/
  rxPending : Bool
  /-- The frame trace, newest first (rule R10).  Log entry 15. -/
  frameLog : List (List Byte)
  /-- The pin trace, newest first (rule R10).  Log entry 15. -/
  pinLog : List PinEvent
  /-- The model's own: the number of draws of free values so far.  Log entry 8. -/
  freeCount : Nat
deriving DecidableEq, Repr

/-- Why the machine would stop with a fault.  There is no constructor: "The hardware raises no exception" (rule R250), and
every command, legal or not, completes.  Safe. -/
inductive Fault where
deriving DecidableEq, Repr

/-- Why the model gives no next state. -/
inductive Refusal where
  /-- An instruction without a meaning yet, raised by exec's arm alone.  Safe. -/
  | notModelled (mnemonic : String)
  /-- Raised by CONFIGURE on an unconfigured block whose strap `ORIENT` has the reserved value 3: "the strap decoder has
  no result for 3 and a configuration with it is rejected" (rule R135, U4).  Safe.  Log entry 4. -/
  | reservedOrientStrap
deriving DecidableEq, Repr

/-- What one step or one instruction answers. -/
abbrev Result := Host.Outcome State Fault Refusal

/-- A chip's register file with every register zero (log entry 3). -/
def ChipRegs.zero : ChipRegs where
  row := vec8 fun _ => 0
  decode := 0
  intensity := 0
  scanLimit := 0
  shutdown := 0
  displayTest := 0

/-- The machine after power-on reset: the middle column of rule R38.  Where that column says "unspecified" the value is
the model's own (log entries 2 and 3); the strap's level is log entry 4; no command is presented. -/
def State.reset : State where
  configured := false
  n := 0
  orientQ := .clockwiseMount
  fb := vec8 fun _ => vec8 fun _ => 0
  txbuf := vec16 fun _ => 0
  pinsDriven := false
  dataPin := none
  clkPin := none
  latchPin := none
  seq := none
  orientStrap := 0
  host := []
  sr := vec8 fun _ => 0
  chips := vec8 fun _ => ChipRegs.zero
  rx := 0
  rxPending := false
  frameLog := []
  pinLog := []
  freeCount := 0

end Sys2Proof.Machine
end

