-- ==== Sys2Proof/Machine/Operands.lean ====
section
/-! DEFINITION. Every operand form: the bounds check that turns an integer operand into an index (rules R51, R60, R140),
the strap decoder (rules R25, R135), the module-count clamp (rule R180), and the bit operations of rule R9. -/

namespace Sys2Proof.Machine

/-- A row or column operand as an index; none outside 0..7 (rule R140). -/
def index8 (i : Int) : Option (Fin 8) :=
  if h : 0 ≤ i ∧ i < 8 then some ⟨i.toNat, by omega⟩ else none

/-- A module operand as an index; none unless `0 <= module < N` (rule R140).  `FB` has rows for `N_MAX` = 8 modules, which
a legal N never exceeds (log entry 16). -/
def State.moduleIndex (s : State) (m : Int) : Option (Fin 8) :=
  if 0 ≤ m ∧ m < (s.n.toNat : Int) then index8 m else none

/-- An intensity or scan-limit operand as the value byte to send; none outside `0 .. max` (rules R185, R186). -/
def valueUpTo (max : Nat) (v : Int) : Option Byte :=
  if 0 ≤ v ∧ v ≤ (max : Int) then some (BitVec.ofNat 8 v.toNat) else none

/-- The module count in force: the count where it is 1..8, otherwise 8 (rule R180). -/
def clampCount (count : Int) : BitVec 4 :=
  if 1 ≤ count ∧ count ≤ 8 then BitVec.ofNat 4 count.toNat else 8

/-- The strap's mode; none for the reserved value 3 (rules R25, R135). -/
def orientOfStrap (strap : BitVec 2) : Option Orientation :=
  match strap.toNat with
  | 0 => some .clockwiseMount
  | 1 => some .counterClockwiseMount
  | 2 => some .mirroredMount
  | _ => none

/-- `b[i]` of rule R9. -/
def bitAt (b : Byte) (i : Fin 8) : Bool := b.getLsbD i.val

/-- `set(b, i, v)` of rule R9: bit i replaced, other bits kept. -/
def setBit (b : Byte) (i : Fin 8) (v : Bool) : Byte :=
  if v then b ||| (1#8 <<< i.val) else b &&& ~~~(1#8 <<< i.val)

/-- The byte whose bit c is `f c`: the sum of rule R131. -/
def byteOfBits (f : Fin 8 → Bool) : Byte :=
  setBit (setBit (setBit (setBit (setBit (setBit (setBit (setBit 0 0 (f 0)) 1 (f 1)) 2 (f 2)) 3 (f 3)) 4 (f 4)) 5
    (f 5)) 6 (f 6)) 7 (f 7)

/-- The bit of a column operand that goes to row r: `COLBIT_ORDER` (rules R58, R143). -/
def columnBit (cfg : Config) (bits : Byte) (r : Fin 8) : Bool :=
  match cfg.colBitOrder with
  | .bitToRow => bitAt bits r
  | .bitFromTop => bitAt bits r.rev

/-- The modules in use, ascending: `for m in 0..N-1`. -/
def modulesBelow (n : BitVec 4) : List (Fin 8) := upTo7.filter fun m => decide (m.val < n.toNat)

/-- The bytes of a frame, ascending: `for p in 0..2N-1`. -/
def frameBytes (n : BitVec 4) : List (Fin 16) := upTo15.filter fun p => decide (p.val < 2 * n.toNat)

end Sys2Proof.Machine
end

