-- ==== Sys2Proof/Machine/Flags.lean ====
section
/-! DEFINITION. Flags and condition codes: there are none (rule R27).  The only status the host sees is the handshake of
the command port (rules R30, R31, R97). -/

namespace Sys2Proof.Machine

/-- `busy`: a command is in progress (rule R31). -/
def State.busy (s : State) : Bool := s.seq.isSome

/-- `cmd_ready = not busy` (rule R31). -/
def State.cmdReady (s : State) : Bool := !s.busy

/-- `cmd_valid`: the host presents a command word (rules R30, R97). -/
def State.cmdValid (s : State) : Bool :=
  match s.host with
  | .command _ :: _ => true
  | .pause _ :: _ => false
  | .powerOnReset :: _ => false
  | [] => false

/-- "A command is accepted only when `cmd_valid and cmd_ready`" (rules R31, R97). -/
def State.cmdAccepted (s : State) : Bool := s.cmdValid && s.cmdReady

end Sys2Proof.Machine
end

