-- ==== Sys2Proof/Machine/Ops.lean ====
section
/-! DEFINITION. The shared operations: the framebuffer registers (rules R20, R146), the frame assembly and the pins
(rules R81, R86, R160), the far side of the wire that answers the pins' edges (rules R220 to R225), the sequencer's moves
and a whole transaction, and power-on reset (rule R280).

There is no exception to take and none to return from (rules R250, R254, R255), so there is no such operation. -/

namespace Sys2Proof.Machine

/-! ### The framebuffer -/

/-- `FB[m][r]`. -/
def State.fbRow (s : State) (m r : Fin 8) : Byte := s.fb[m][r]

/-- `FB[m][r] <- v`. -/
def State.setFbRow (s : State) (m r : Fin 8) (v : Byte) : State :=
  { s with fb := s.fb.set m (s.fb[m].set r v) }

/-! ### The chips: shift registers and register files -/

/-- The level of DATA as the chips sample it.  While DATA is released "any value" (U16): a free value.  Log entries 8
and 9. -/
def State.dataLevel (s : State) : Bool :=
  match s.dataPin with
  | some level => level
  | none => (Config.freeByte s.freeCount 130).getLsbD 0

/-- The bit that enters `SR[k]` at a clock edge: the level of DATA at chip 0, the bit shifted out of chip k - 1 at the
others (rules R220, R221). -/
def carryInto (d : Bool) (sr : Vector SlotWord 8) (k : Fin 8) : Bool :=
  if k.val = 0 then d else sr[k.val - 1].getLsbD 15

/-- The shift step at a rising edge of CLK: all chips shift together, the new bit enters at bit 0 (rule R221).  A draw
of free values is used up only where DATA is released. -/
def State.shiftChain (s : State) : State :=
  { s with
    sr := vec8 fun k =>
      if k.val < s.n.toNat then (s.sr[k].extractLsb' 0 15) ++ BitVec.ofBool (carryInto s.dataLevel s.sr k) else s.sr[k]
    freeCount := if s.dataPin.isNone then s.freeCount + 1 else s.freeCount }

/-- The value byte of a slot in a shift register (rules R222, R224; `PAIR_ORDER`). -/
def slotValue (cfg : Config) (w : SlotWord) : Byte :=
  match cfg.pairOrder with
  | .valueFirst => w.extractLsb' 8 8
  | .opcodeFirst => w.extractLsb' 0 8

/-- The wire opcode a chip decodes: the low four bits of the opcode byte (rule R224; `PAIR_ORDER`). -/
def slotOpcode (cfg : Config) (w : SlotWord) : Byte :=
  match cfg.pairOrder with
  | .valueFirst => (w.extractLsb' 0 4).setWidth 8
  | .opcodeFirst => (w.extractLsb' 8 4).setWidth 8

/-- `ROW[r] <- v`. -/
def ChipRegs.setRow (c : ChipRegs) (r : Fin 8) (v : Byte) : ChipRegs := { c with row := c.row.set r v }

/-- The row register a wire opcode selects, if it selects one (rule R82). -/
def rowOfOpcode (cfg : Config) (opc : Byte) : Option (Fin 8) := upTo7.find? fun r => cfg.opcRow r == opc

/-- The commit step of one chip with wire opcode `opc` and value `val` (rule R224).  `free` is what the register file
becomes where rule R224 says "unspecified". -/
def ChipRegs.write (cfg : Config) (c free : ChipRegs) (opc val : Byte) : ChipRegs :=
  if opc = cfg.opcNoop then c
  else match rowOfOpcode cfg opc with
  | some r => c.setRow r val
  | none =>
    if opc = cfg.opcDecode then { c with decode := val }
    else if opc = cfg.opcIntensity then { c with intensity := val.setWidth 4 }
    else if opc = cfg.opcScanLimit then { c with scanLimit := val.setWidth 3 }
    else if opc = cfg.opcShutdown then { c with shutdown := val.setWidth 1 }
    else if opc = cfg.opcDisplayTest then { c with displayTest := val.setWidth 1 }
    else free

/-- The wire opcodes to which rule R224 gives no effect: 13 and 14. -/
def opcodeUnspecified (cfg : Config) (opc : Byte) : Bool :=
  opc != cfg.opcNoop && (rowOfOpcode cfg opc).isNone && opc != cfg.opcDecode && opc != cfg.opcIntensity
    && opc != cfg.opcScanLimit && opc != cfg.opcShutdown && opc != cfg.opcDisplayTest

/-- An unconstrained register file for chip k (rules R37, R224): sixteen bytes of one draw per chip.  Log entry 8. -/
def freeChip (draw : Nat) (k : Fin 8) : ChipRegs where
  row := vec8 fun r => Config.freeByte draw (16 * k.val + r.val)
  decode := Config.freeByte draw (16 * k.val + 8)
  intensity := (Config.freeByte draw (16 * k.val + 9)).setWidth 4
  scanLimit := (Config.freeByte draw (16 * k.val + 10)).setWidth 3
  shutdown := (Config.freeByte draw (16 * k.val + 11)).setWidth 1
  displayTest := (Config.freeByte draw (16 * k.val + 12)).setWidth 1

/-- What chip k's register file becomes when it commits the slot in its shift register (rule R224). -/
def State.committed (cfg : Config) (s : State) (k : Fin 8) : ChipRegs :=
  s.chips[k].write cfg (freeChip s.freeCount k) (slotOpcode cfg s.sr[k]) (slotValue cfg s.sr[k])

/-- The slot in chip k's shift register is one to which rule R224 gives no effect. -/
def State.slotUnspecified (cfg : Config) (s : State) (k : Fin 8) : Bool :=
  opcodeUnspecified cfg (slotOpcode cfg s.sr[k])

/-- The commit step at a rising edge of LATCH_N: every chip at the same instant (rules R62, R224), each its own slot.  That
this holds for several non-zero slots at once too, which rules R84 and R232 leave open, is a DESIGN CHOICE, log entry 23.
A draw of free values is used up only where some chip's slot is unspecified. -/
def State.commitChain (cfg : Config) (s : State) : State :=
  { s with
    chips := vec8 fun k => if k.val < s.n.toNat then s.committed cfg k else s.chips[k]
    freeCount := if (modulesBelow s.n).any (s.slotUnspecified cfg) then s.freeCount + 1 else s.freeCount }

/-- The commit step of the one chip whose turn it is (rule R224, loop index k = `rx`).  DESIGN CHOICE, log entry 12: it
commits also where `rx` is at or past N, a chip that the loop of rule R224 does not reach. -/
def State.commitOne (cfg : Config) (s : State) : State :=
  { s with
    chips := s.chips.set s.rx (s.committed cfg s.rx)
    freeCount := if s.slotUnspecified cfg s.rx then s.freeCount + 1 else s.freeCount }

/-- The next chip's turn: `for k in 0..N_PHYS-1` of rule R224.  Log entry 12. -/
def State.nextChip (s : State) : State :=
  if h : s.rx.val + 1 < s.n.toNat ∧ s.rx.val + 1 < 8 then { s with rx := ⟨s.rx.val + 1, by omega⟩ }
  else { s with rx := 0, rxPending := false }

/-- A write of the register file of the chip whose turn it is, also where `rx` is at or past N (DESIGN CHOICE, log
entry 12). -/
def State.writeChip (s : State) (f : ChipRegs → ChipRegs) : State :=
  { s with chips := s.chips.set s.rx (f s.chips[s.rx]) }

/-! ### The pins -/

/-- A line goes from driven low to driven high.  A line that was released gives no edge (U16).  Log entry 9. -/
def risingEdge (old : Option Bool) (level : Bool) : Bool := old == some false && level

/-- `Pin(line, level)`: the level changes, the event is appended to the pin trace, and the chips answer a rising edge of
CLK (shift) or of LATCH_N (commit) (rules R9, R11, R221, R224).

DESIGN CHOICE, log entry 23: the shift rule and the commit rule are applied at every rising edge, also where U7 and rule
R232 leave it open what a chip does because no command does it (a clock edge while LATCH_N is high, a commit after a number
of clock edges other than 16N, a second commit without shifting, a frame with more than one non-zero slot). -/
def State.drive (cfg : Config) (s : State) (line : Line) (level : Bool) : State :=
  match line with
  | .data => { s with dataPin := some level, pinLog := ⟨.data, level⟩ :: s.pinLog }
  | .clk =>
    let t : State := { s with clkPin := some level, pinLog := ⟨.clk, level⟩ :: s.pinLog }
    if risingEdge s.clkPin level then t.shiftChain else t
  | .latchN =>
    let t : State := { s with latchPin := some level, pinLog := ⟨.latchN, level⟩ :: s.pinLog }
    if risingEdge s.latchPin level then t.commitChain cfg else t

/-! ### The bus encoder -/

/-- The first byte of a slot on the wire (`PAIR_ORDER`, rules R57, R80). -/
def pairFirst (cfg : Config) (opc val : Byte) : Byte :=
  match cfg.pairOrder with
  | .valueFirst => val
  | .opcodeFirst => opc

/-- The second byte of a slot on the wire. -/
def pairSecond (cfg : Config) (opc val : Byte) : Byte :=
  match cfg.pairOrder with
  | .valueFirst => opc
  | .opcodeFirst => val

/-- `T[p]` of the frame for (k, opc, val): the pair stands at `2(N-1-k)` and `2(N-1-k) + 1`, every other byte is 0
(rule R81).  The two positions are written as equations without subtraction.

DESIGN CHOICE, log entry 25: for k outside 0..N-1 no position is met and the frame is all zero.  Rule R166 does not define
that case, and no command reaches it. -/
def frameByte (cfg : Config) (n : BitVec 4) (k : Fin 8) (opc val : Byte) (p : Nat) : Byte :=
  if p + 2 * k.val + 2 = 2 * n.toNat then pairFirst cfg opc val
  else if p + 2 * k.val + 1 = 2 * n.toNat then pairSecond cfg opc val
  else 0

/-- Step 1 of `BusWrite`: the frame in `TXBUF[0..2N-1]`, the rest of the buffer kept (rules R28, R160, R161). -/
def State.assemble (cfg : Config) (s : State) (k : Fin 8) (opc val : Byte) : State :=
  { s with txbuf := vec16 fun p => if p.val < 2 * s.n.toNat then frameByte cfg s.n k opc val p.val else s.txbuf[p] }

/-- `TXBUF[0..2N-1]`, the frame as it is shifted (rule R161). -/
def State.frame (s : State) : List Byte := (frameBytes s.n).map fun p => s.txbuf[p]

/-- One move of the sequencer. -/
def State.perform (cfg : Config) (s : State) : Act → State
  | .setLength n => { s with n := n }
  | .claimPins => { s with pinsDriven := true }
  | .zeroRows => { s with fb := vec8 fun _ => vec8 fun _ => 0 }
  | .loadOrient o => { s with orientQ := o }
  | .setConfigured => { s with configured := true }
  | .writeRow m r v => s.setFbRow m r v
  | .writeBit m r c on => s.setFbRow m r (setBit (s.fbRow m r) c on)
  | .assemble k opc val => s.assemble cfg k opc val
  | .assembleRow m r => s.assemble cfg m (cfg.opcRow r) (s.fbRow m r)
  | .pin line level => s.drive cfg line level
  | .dataBit p i => s.drive cfg .data (bitAt s.txbuf[p] i)
  | .emitFrame => { s with frameLog := s.frame :: s.frameLog }

/-- The moves of a list, in order. -/
def State.run (cfg : Config) (s : State) (acts : List Act) : State := acts.foldl (State.perform cfg) s

/-- The bit cell of bit i of byte p: DATA set, CLK rises, CLK falls (rules R86, R160). -/
def bitCell (p : Fin 16) (i : Fin 8) : List Act := [.dataBit p i, .pin .clk true, .pin .clk false]

/-- The bit cells of one byte, bit 7 first (rule R56). -/
def byteCells (p : Fin 16) : List Act := downFrom7.flatMap (bitCell p)

/-- Steps 2 to 4 of `BusWrite`: latch low, `2N` bytes, latch high, emit (rule R160). -/
def shiftOut (n : BitVec 4) : List Act :=
  [.pin .latchN false] ++ (frameBytes n).flatMap byteCells ++ [.pin .latchN true, .emitFrame]

/-- `BusWrite(k, opc, val)` in a chain of length n: one transaction (rule R160).  The operands are not checked (rule R166);
for k outside 0..N-1 see log entry 25. -/
def busWrite (n : BitVec 4) (k : Fin 8) (opc val : Byte) : List Act := .assemble k opc val :: shiftOut n

/-- A push of row r of module m: the row as it stands, by the row multiplexer (rule R146). -/
def pushRow (n : BitVec 4) (m r : Fin 8) : List Act := .assembleRow m r :: shiftOut n

/-! ### Observables and reset -/

/-- The frame trace, oldest first (rule R10). -/
def State.frameTrace (s : State) : List (List Byte) := s.frameLog.reverse

/-- The pin trace, oldest first (rule R10). -/
def State.pinTrace (s : State) : List PinEvent := s.pinLog.reverse

/-- An unconstrained orientation, for a register that rule R38 calls unspecified. -/
def freeOrientation (b : Byte) : Orientation :=
  match b.toNat % 3 with
  | 0 => .clockwiseMount
  | 1 => .counterClockwiseMount
  | _ => .mirroredMount

/-- `rst` asserted (rules R280, R281): the middle column of rule R38, every unspecified register a free value, the
traces empty.  The strap and the host's list are outside the block and stay.  Log entry 10. -/
def State.powerOnReset (s : State) : State :=
  { State.reset with
    n := (Config.freeByte s.freeCount 128).setWidth 4
    orientQ := freeOrientation (Config.freeByte s.freeCount 129)
    fb := vec8 fun m => vec8 fun r => Config.freeByte s.freeCount (192 + 8 * m.val + r.val)
    txbuf := vec16 fun p => Config.freeByte s.freeCount (256 + p.val)
    sr := vec8 fun k => Config.freeByte s.freeCount (16 * k.val + 13) ++ Config.freeByte s.freeCount (16 * k.val + 14)
    chips := vec8 fun k => freeChip s.freeCount k
    orientStrap := s.orientStrap
    host := s.host
    freeCount := s.freeCount + 1 }

end Sys2Proof.Machine
end

