-- ==== Sys2Proof/Machine/Glyph.lean ====
section
/-! DEFINITION. The combinational units of the text path: the glyph ROM and character mapper (rules R120 to R126), the
orientation engine (rules R130 to R136), and the logical-column multiplexer (rule R52).  None has state. -/

namespace Sys2Proof.Machine

/-- `LOOKUP(ch)`: range arithmetic into one of three flat tables, zero for the space, the fallback otherwise, the tests in
the order of rule R120. -/
def lookup (cfg : Config) (ch : Byte) : Glyph :=
  if h : cfg.codeUpperA ≤ ch.toNat ∧ ch.toNat ≤ cfg.codeUpperA + 25 then
    vec8 fun r => cfg.glyphUpper ⟨(ch.toNat - cfg.codeUpperA) * 8 + r.val, by omega⟩
  else if h : cfg.codeLowerA ≤ ch.toNat ∧ ch.toNat ≤ cfg.codeLowerA + 25 then
    vec8 fun r => cfg.glyphLower ⟨(ch.toNat - cfg.codeLowerA) * 8 + r.val, by omega⟩
  else if h : cfg.codeDigit0 ≤ ch.toNat ∧ ch.toNat ≤ cfg.codeDigit0 + 9 then
    vec8 fun r => cfg.glyphDigit ⟨(ch.toNat - cfg.codeDigit0) * 8 + r.val, by omega⟩
  else if ch.toNat = cfg.codeSpace then vec8 fun _ => 0
  else vec8 fun r => cfg.glyphFallback r

/-- `G[r][c]`, the pixel at row r and column c (rule R58). -/
def pixel (g : Glyph) (r c : Fin 8) : Bool := bitAt g[r] c

/-- The glyph whose pixel at (r, c) is `f r c`. -/
def glyphOfPixels (f : Fin 8 → Fin 8 → Bool) : Glyph := vec8 fun r => byteOfBits (f r)

/-- `TRANSFORM(G, mode)` (rule R130); `i.rev` is 7 - i. -/
def transform (g : Glyph) (mode : Orientation) : Glyph :=
  match mode with
  | .clockwiseMount => glyphOfPixels fun r c => pixel g c.rev r
  | .counterClockwiseMount => glyphOfPixels fun r c => pixel g c r.rev
  | .mirroredMount => glyphOfPixels fun r c => pixel g r.rev c

/-- `ColMap(L)`: the module and column of a logical column; none outside `0 <= L < 8N`, where it is undefined
(rule R52).  There are modules 0 to 7 (`N_MAX`), which a legal N never exceeds (log entry 16). -/
def colMap (cfg : Config) (mode : Orientation) (n : BitVec 4) (l : Int) : Option (Fin 8 × Fin 8) :=
  if h : 0 ≤ l ∧ l < 8 * (n.toNat : Int) ∧ l < 64 then
    let c0 : Fin 8 := ⟨l.toNat % 8, by omega⟩
    some (⟨l.toNat / 8, by omega⟩,
      match cfg.fillDir mode with
      | .up => c0
      | .down => c0.rev)
  else none

end Sys2Proof.Machine
end

