-- ==== Sys2Proof/Machine/FrameBuffer.lean ====
section
/-! DEFINITION. The framebuffer commands: SETLED_OFF, SETLED_ON, SETROW, SETCOLUMN, CLEAR, CLEARALL (rules R140 to R148).

Each command has the list of the sequencer's moves its rule states (no move where a check fails: the command is a no-op)
and its meaning, which makes those moves. -/

namespace Sys2Proof.Machine

/-- The body of SETLED once the checks have passed: change one bit, push the row (rule R141). -/
def setLedBody (n : BitVec 4) (m r c : Fin 8) (on : Bool) : List Act := .writeBit m r c on :: pushRow n m r

/-- SETLED with its checks (rules R140, R141). -/
def setLedActs (s : State) (mdl row col : Int) (on : Bool) : List Act :=
  if s.configured then
    match s.moduleIndex mdl, index8 row, index8 col with
    | some m, some r, some c => setLedBody s.n m r c on
    | _, _, _ => []
  else []

/-- SETROW with its checks (rule R142). -/
def setRowActs (cfg : Config) (s : State) (mdl row : Int) (value : Byte) : List Act :=
  if s.configured then
    match s.moduleIndex mdl, index8 row with
    | some m, some r => .writeRow m r value :: busWrite s.n m (cfg.opcRow r) value
    | _, _ => []
  else []

/-- The body of SETCOLUMN: SETLED of each row with the column operand's bit for it, rows ascending (rule R143). -/
def setColumnBody (cfg : Config) (n : BitVec 4) (m c : Fin 8) (bits : Byte) : List Act :=
  upTo7.flatMap fun r => setLedBody n m r c (columnBit cfg bits r)

/-- SETCOLUMN with its checks (rule R143). -/
def setColumnActs (cfg : Config) (s : State) (mdl col : Int) (bits : Byte) : List Act :=
  if s.configured then
    match s.moduleIndex mdl, index8 col with
    | some m, some c => setColumnBody cfg s.n m c bits
    | _, _ => []
  else []

/-- The body of CLEAR: zero a row, push it, rows ascending (rule R144). -/
def clearBody (cfg : Config) (n : BitVec 4) (m : Fin 8) : List Act :=
  upTo7.flatMap fun r => .writeRow m r 0 :: busWrite n m (cfg.opcRow r) 0

/-- CLEAR with its checks (rule R144). -/
def clearActs (cfg : Config) (s : State) (mdl : Int) : List Act :=
  if s.configured then
    match s.moduleIndex mdl with
    | some m => clearBody cfg s.n m
    | none => []
  else []

/-- CLEARALL: CLEAR of each module, modules ascending (rule R145). -/
def clearAllActs (cfg : Config) (s : State) : List Act :=
  if s.configured then (modulesBelow s.n).flatMap (clearBody cfg s.n) else []

/-- SETLED_OFF (rule R141). -/
def execSetLedOff (mdl row col : Int) (s : State) : Result :=
  .next (s.run params (setLedActs s mdl row col false))

/-- SETLED_ON (rule R141). -/
def execSetLedOn (mdl row col : Int) (s : State) : Result :=
  .next (s.run params (setLedActs s mdl row col true))

/-- SETROW (rule R142). -/
def execSetRow (mdl row : Int) (value : Byte) (s : State) : Result :=
  .next (s.run params (setRowActs params s mdl row value))

/-- SETCOLUMN (rule R143). -/
def execSetColumn (mdl col : Int) (bits : Byte) (s : State) : Result :=
  .next (s.run params (setColumnActs params s mdl col bits))

/-- CLEAR (rule R144). -/
def execClear (mdl : Int) (s : State) : Result :=
  .next (s.run params (clearActs params s mdl))

/-- CLEARALL (rule R145). -/
def execClearAll (s : State) : Result :=
  .next (s.run params (clearAllActs params s))

end Sys2Proof.Machine
end

