-- ==== Sys2Proof/Machine/Control.lean ====
section
/-! DEFINITION. Device control: CONFIGURE, POWER_DOWN, POWER_UP, SCANLIMIT, INTENSITY and NOP (rules R180 to R191). -/

namespace Sys2Proof.Machine

/-- Step c of CONFIGURE for one module: display test off, scan limit 7, decode off, clear (rule R181). -/
def initModule (cfg : Config) (n : BitVec 4) (m : Fin 8) : List Act :=
  busWrite n m cfg.opcDisplayTest cfg.valTestOff ++ busWrite n m cfg.opcScanLimit 7
    ++ busWrite n m cfg.opcDecode cfg.valDecodeOff ++ clearBody cfg n m

/-- CONFIGURE with the chain length and the mode settled: steps a to d of rule R181, in order. -/
def configureBody (cfg : Config) (n : BitVec 4) (o : Orientation) : List Act :=
  [.setLength n]
    ++ [.claimPins, .pin .data false, .pin .clk false, .pin .latchN true]
    ++ [.zeroRows, .loadOrient o, .setConfigured]
    ++ (modulesBelow n).flatMap (initModule cfg n)
    ++ (modulesBelow n).flatMap (fun m => busWrite n m cfg.opcShutdown cfg.valPowerDown)
    ++ (modulesBelow n).flatMap (fun m => busWrite n m cfg.opcIntensity (cfg.defaultIntensity.setWidth 8))
    ++ (modulesBelow n).flatMap (fun m => busWrite n m cfg.opcShutdown cfg.valPowerUp)
    ++ (modulesBelow n).flatMap (clearBody cfg n)

/-- CONFIGURE: nothing on a configured block (rule R180); refused on the reserved strap (rule R135); otherwise the
sequence of rule R181 with the clamped count. -/
def configureActs (cfg : Config) (s : State) (count : Int) : Except Refusal (List Act) :=
  if s.configured then .ok []
  else match orientOfStrap s.orientStrap with
  | some o => .ok (configureBody cfg (clampCount count) o)
  | none => .error .reservedOrientStrap

/-- A setter of one chip register: one transaction where the module is valid and there is a value to send, none otherwise
(rules R183 to R186, R190). -/
def setterActs (s : State) (mdl : Int) (opc : Byte) (value : Option Byte) : List Act :=
  if s.configured then
    match s.moduleIndex mdl, value with
    | some m, some v => busWrite s.n m opc v
    | _, _ => []
  else []

/-- POWER_DOWN (rule R183). -/
def powerDownActs (cfg : Config) (s : State) (mdl : Int) : List Act :=
  setterActs s mdl cfg.opcShutdown (some cfg.valPowerDown)

/-- POWER_UP (rule R184). -/
def powerUpActs (cfg : Config) (s : State) (mdl : Int) : List Act :=
  setterActs s mdl cfg.opcShutdown (some cfg.valPowerUp)

/-- SCANLIMIT: limits 0..7 (rule R185). -/
def scanLimitActs (cfg : Config) (s : State) (mdl limit : Int) : List Act :=
  setterActs s mdl cfg.opcScanLimit (valueUpTo 7 limit)

/-- INTENSITY: levels 0..15 (rule R186). -/
def intensityActs (cfg : Config) (s : State) (mdl level : Int) : List Act :=
  setterActs s mdl cfg.opcIntensity (valueUpTo 15 level)

/-- NOP (rule R189). -/
def execNop (s : State) : Result := .next s

/-- CONFIGURE (rules R180, R181). -/
def execConfigure (count : Int) (s : State) : Result :=
  match configureActs params s count with
  | .ok acts => .next (s.run params acts)
  | .error r => .refused r

/-- POWER_DOWN (rule R183). -/
def execPowerDown (mdl : Int) (s : State) : Result :=
  .next (s.run params (powerDownActs params s mdl))

/-- POWER_UP (rule R184). -/
def execPowerUp (mdl : Int) (s : State) : Result :=
  .next (s.run params (powerUpActs params s mdl))

/-- SCANLIMIT (rule R185). -/
def execScanLimit (mdl limit : Int) (s : State) : Result :=
  .next (s.run params (scanLimitActs params s mdl limit))

/-- INTENSITY (rule R186). -/
def execIntensity (mdl level : Int) (s : State) : Result :=
  .next (s.run params (intensityActs params s mdl level))

end Sys2Proof.Machine
end

