-- ==== Sys2Proof/Machine/Text.lean ====
section
/-! DEFINITION. PLACEGLYPH, the placement datapath (rules R200 to R203). -/

namespace Sys2Proof.Machine

/-- The loop of rule R200 over the byte indices `js`: stop at the first column at or past the end of the chain, skip a
negative column, otherwise byte j goes to the physical column of `pos + j`.  The positions are integers, so nothing wraps
(rule R203). -/
def placeColumns (cfg : Config) (mode : Orientation) (n : BitVec 4) (t : Glyph) (pos : Int) :
    List (Fin 8) → List ((Fin 8 × Fin 8) × Byte)
  | [] => []
  | j :: js =>
    let l : Int := pos + (j.val : Int)
    if 8 * (n.toNat : Int) ≤ l then []
    else match colMap cfg mode n l with
    | none => placeColumns cfg mode n t pos js
    | some mc => (mc, t[j]) :: placeColumns cfg mode n t pos js

/-- PLACEGLYPH: look up, transform, and SETCOLUMN of every column that is on the chain (rule R200). -/
def placeGlyphActs (cfg : Config) (s : State) (ch : Byte) (pos : Int) : List Act :=
  if s.configured then
    (placeColumns cfg s.orientQ s.n (transform (lookup cfg ch) s.orientQ) pos upTo7).flatMap fun x =>
      setColumnBody cfg s.n x.1.1 x.1.2 x.2
  else []

/-- PLACEGLYPH (rule R200). -/
def execPlaceGlyph (ch : Byte) (pos : Int) (s : State) : Result :=
  .next (s.run params (placeGlyphActs params s ch pos))

end Sys2Proof.Machine
end

