-- ==== Sys2Proof/Machine/Slots.lean ====
section
/-! DEFINITION. The wire slots: what the chip whose turn it is does with the slot in its shift register when LATCH_N rises
(rules R224, R225, R226).  The chip is `rx`, whatever N is (log entry 12); its shift register is not changed. -/

namespace Sys2Proof.Machine

/-- W.NOOP: no register written (rule R225). -/
def execWNoop (s : State) : Result := .next s

/-- W.ROW0: `ROW[0] <- v` (rule R224). -/
def execWRow0 (v : Byte) (s : State) : Result := .next (s.writeChip fun c => c.setRow 0 v)

/-- W.ROW1 (rule R224). -/
def execWRow1 (v : Byte) (s : State) : Result := .next (s.writeChip fun c => c.setRow 1 v)

/-- W.ROW2 (rule R224). -/
def execWRow2 (v : Byte) (s : State) : Result := .next (s.writeChip fun c => c.setRow 2 v)

/-- W.ROW3 (rule R224). -/
def execWRow3 (v : Byte) (s : State) : Result := .next (s.writeChip fun c => c.setRow 3 v)

/-- W.ROW4 (rule R224). -/
def execWRow4 (v : Byte) (s : State) : Result := .next (s.writeChip fun c => c.setRow 4 v)

/-- W.ROW5 (rule R224). -/
def execWRow5 (v : Byte) (s : State) : Result := .next (s.writeChip fun c => c.setRow 5 v)

/-- W.ROW6 (rule R224). -/
def execWRow6 (v : Byte) (s : State) : Result := .next (s.writeChip fun c => c.setRow 6 v)

/-- W.ROW7 (rule R224). -/
def execWRow7 (v : Byte) (s : State) : Result := .next (s.writeChip fun c => c.setRow 7 v)

/-- W.DECODE: `DECODE <- VAL_DECODE_OFF`, the only value sent (rules R187, R224). -/
def execWDecode (s : State) : Result := .next (s.writeChip fun c => { c with decode := params.valDecodeOff })

/-- W.INTENSITY: `INTENSITY <- v` (rule R224). -/
def execWIntensity (v : BitVec 4) (s : State) : Result := .next (s.writeChip fun c => { c with intensity := v })

/-- W.SCANLIMIT: `SCANLIMIT <- v` (rule R224). -/
def execWScanLimit (v : BitVec 3) (s : State) : Result := .next (s.writeChip fun c => { c with scanLimit := v })

/-- W.SHUTDOWN: `SHUTDOWN <- v` (rule R224). -/
def execWShutdown (v : BitVec 1) (s : State) : Result := .next (s.writeChip fun c => { c with shutdown := v })

/-- W.DISPLAYTEST: `DISPLAYTEST <- VAL_TEST_OFF`, the only value sent, cut to the register's bit (rules R188, R224). -/
def execWDisplayTest (s : State) : Result :=
  .next (s.writeChip fun c => { c with displayTest := params.valTestOff.setWidth 1 })

end Sys2Proof.Machine
end

