-- ==== Sys2Proof/Syntax.lean ====
section
/-! DEFINITION. The instructions: thirteen commands of the command port and fourteen slots of the wire, one constructor
per row of the opcode table.

A command is what the host asks of the block (rule R92).  A wire slot is what one chip of the chain takes from its shift
register when the latch rises (rules R80, R224).  Index-like operands are integers, as rule R93 allows; `WellFormed` and
the encoder hold them to the fields' ranges. -/

namespace Sys2Proof

inductive Instr where
  /-- NOP, format F0 (rule R189). -/
  | nop
  /-- CONFIGURE, format FN (rules R180, R181). -/
  | configure (count : Int)
  /-- POWER_DOWN, format FM (rule R183). -/
  | powerDown (mdl : Int)
  /-- POWER_UP, format FM (rule R184). -/
  | powerUp (mdl : Int)
  /-- SCANLIMIT, format FMV (rule R185). -/
  | scanLimit (mdl limit : Int)
  /-- INTENSITY, format FMV (rule R186). -/
  | intensity (mdl level : Int)
  /-- SETLED_OFF, format FMRC (rule R141 with on = 0). -/
  | setLedOff (mdl row col : Int)
  /-- SETLED_ON, format FMRC (rule R141 with on = 1). -/
  | setLedOn (mdl row col : Int)
  /-- SETROW, format FMRV (rule R142). -/
  | setRow (mdl row : Int) (value : Byte)
  /-- SETCOLUMN, format FMCV (rule R143). -/
  | setColumn (mdl col : Int) (bits : Byte)
  /-- CLEAR, format FM (rule R144). -/
  | clear (mdl : Int)
  /-- CLEARALL, format F0 (rule R145). -/
  | clearAll
  /-- PLACEGLYPH, format FP (rule R200). -/
  | placeGlyph (ch : Byte) (pos : Int)
  /-- W.NOOP, the slot of sixteen zero bits (rules R85, R225). -/
  | wNoop
  /-- W.ROW0 (rules R82, R224). -/
  | wRow0 (v : Byte)
  /-- W.ROW1. -/
  | wRow1 (v : Byte)
  /-- W.ROW2. -/
  | wRow2 (v : Byte)
  /-- W.ROW3. -/
  | wRow3 (v : Byte)
  /-- W.ROW4. -/
  | wRow4 (v : Byte)
  /-- W.ROW5. -/
  | wRow5 (v : Byte)
  /-- W.ROW6. -/
  | wRow6 (v : Byte)
  /-- W.ROW7. -/
  | wRow7 (v : Byte)
  /-- W.DECODE, sent with value 0 only (rules R82, R187). -/
  | wDecode
  /-- W.INTENSITY (rules R82, R224). -/
  | wIntensity (v : BitVec 4)
  /-- W.SCANLIMIT (rules R82, R224). -/
  | wScanLimit (v : BitVec 3)
  /-- W.SHUTDOWN: 0 is power down, 1 power up (rules R82, R224). -/
  | wShutdown (v : BitVec 1)
  /-- W.DISPLAYTEST, sent with value 0 only (rules R82, R188). -/
  | wDisplayTest
deriving DecidableEq, Repr

end Sys2Proof
end

