-- ==== Sys2Proof/Machine/Dispatch.lean ====
section
/-! DEFINITION. Which meaning each instruction has: one arm per constructor. -/

namespace Sys2Proof.Machine

def exec (i : Instr) (s : State) : Host.Outcome State Fault Refusal :=
  match i with
  | .nop => Sys2Proof.Machine.execNop s
  | .configure count => Sys2Proof.Machine.execConfigure count s
  | .powerDown mdl => Sys2Proof.Machine.execPowerDown mdl s
  | .powerUp mdl => Sys2Proof.Machine.execPowerUp mdl s
  | .scanLimit mdl limit => Sys2Proof.Machine.execScanLimit mdl limit s
  | .intensity mdl level => Sys2Proof.Machine.execIntensity mdl level s
  | .setLedOff mdl row col => Sys2Proof.Machine.execSetLedOff mdl row col s
  | .setLedOn mdl row col => Sys2Proof.Machine.execSetLedOn mdl row col s
  | .setRow mdl row value => Sys2Proof.Machine.execSetRow mdl row value s
  | .setColumn mdl col bits => Sys2Proof.Machine.execSetColumn mdl col bits s
  | .clear mdl => Sys2Proof.Machine.execClear mdl s
  | .clearAll => Sys2Proof.Machine.execClearAll s
  | .placeGlyph ch pos => Sys2Proof.Machine.execPlaceGlyph ch pos s
  | .wNoop => Sys2Proof.Machine.execWNoop s
  | .wRow0 v => Sys2Proof.Machine.execWRow0 v s
  | .wRow1 v => Sys2Proof.Machine.execWRow1 v s
  | .wRow2 v => Sys2Proof.Machine.execWRow2 v s
  | .wRow3 v => Sys2Proof.Machine.execWRow3 v s
  | .wRow4 v => Sys2Proof.Machine.execWRow4 v s
  | .wRow5 v => Sys2Proof.Machine.execWRow5 v s
  | .wRow6 v => Sys2Proof.Machine.execWRow6 v s
  | .wRow7 v => Sys2Proof.Machine.execWRow7 v s
  | .wDecode => Sys2Proof.Machine.execWDecode s
  | .wIntensity v => Sys2Proof.Machine.execWIntensity v s
  | .wScanLimit v => Sys2Proof.Machine.execWScanLimit v s
  | .wShutdown v => Sys2Proof.Machine.execWShutdown v s
  | .wDisplayTest => Sys2Proof.Machine.execWDisplayTest s

end Sys2Proof.Machine
end

