-- ==== Sys2Proof/WellFormed.lean ====
section
/-! DEFINITION. Which instructions an encoding exists for: every integer operand lies in the range of its field (rule R93).

An operand outside the *address* ranges (module 9, row -1, a position far off the chain) is well formed: it is a legal
encoding that its own rule makes a no-op or clips (rule R96).  Only an operand that no field can carry is ill formed; the
encoder refuses it (rule R203). -/

namespace Sys2Proof

/-- The range of an 8-bit two's-complement field (rule R93). -/
def fitsField8 (i : Int) : Bool := decide (-128 ≤ i ∧ i ≤ 127)

/-- The range of a 16-bit two's-complement field (rule R93). -/
def fitsField16 (i : Int) : Bool := decide (-32768 ≤ i ∧ i ≤ 32767)

/-- Every operand of the instruction can be carried by its field (rules R91, R93). -/
def Instr.wellFormed : Instr → Bool
  | .nop => true
  | .configure count => fitsField16 count
  | .powerDown mdl => fitsField8 mdl
  | .powerUp mdl => fitsField8 mdl
  | .scanLimit mdl limit => fitsField8 mdl && fitsField8 limit
  | .intensity mdl level => fitsField8 mdl && fitsField8 level
  | .setLedOff mdl row col => fitsField8 mdl && fitsField8 row && fitsField8 col
  | .setLedOn mdl row col => fitsField8 mdl && fitsField8 row && fitsField8 col
  | .setRow mdl row _ => fitsField8 mdl && fitsField8 row
  | .setColumn mdl col _ => fitsField8 mdl && fitsField8 col
  | .clear mdl => fitsField8 mdl
  | .clearAll => true
  | .placeGlyph _ pos => fitsField16 pos
  | .wNoop => true
  | .wRow0 _ => true
  | .wRow1 _ => true
  | .wRow2 _ => true
  | .wRow3 _ => true
  | .wRow4 _ => true
  | .wRow5 _ => true
  | .wRow6 _ => true
  | .wRow7 _ => true
  | .wDecode => true
  | .wIntensity _ => true
  | .wScanLimit _ => true
  | .wShutdown _ => true
  | .wDisplayTest => true

/-- The instruction is one of the command port; the others are wire slots (rules R80, R92). -/
def Instr.isCommand : Instr → Bool
  | .nop | .configure _ | .powerDown _ | .powerUp _ | .scanLimit _ _ | .intensity _ _ | .setLedOff _ _ _
  | .setLedOn _ _ _ | .setRow _ _ _ | .setColumn _ _ _ | .clear _ | .clearAll | .placeGlyph _ _ => true
  | .wNoop | .wRow0 _ | .wRow1 _ | .wRow2 _ | .wRow3 _ | .wRow4 _ | .wRow5 _ | .wRow6 _ | .wRow7 _
  | .wDecode | .wIntensity _ | .wScanLimit _ | .wShutdown _ | .wDisplayTest => false

end Sys2Proof
end

