-- ==== Sys2Proof/Decode.lean ====
section
/-! DEFINITION. Decoding and encoding: the 32-bit command word (rules R90 to R96) and the 16-bit wire slot (rules R80,
R82).  The numbers of the wire opcodes and of the values that have a name are the parameters of rule R6, read from `params`.
The two encodings are unrelated, so a code word says which of the two it is.  Decoding is total and rejects by
name; the encoder is written from the same tables and refuses an operand that its field cannot carry. -/

namespace Sys2Proof

/-- A word in one of the two encodings. -/
inductive CodeWord where
  | command (w : CommandWord)
  | slot (w : SlotWord)
deriving DecidableEq, Repr

/-- Why a word has no instruction. -/
inductive DecodeError where
  /-- A command code that rule R92 does not list (rule R94). -/
  | reservedCommandCode (op : Byte)
  /-- A wire opcode byte that selects no register: 13, 14, or one with a bit of 7..4 set (rule R84). -/
  | unusedWireOpcode (opc : Byte)
  /-- A value the block never sends with this wire opcode (rule R84). -/
  | valueNeverSent (opc value : Byte)
deriving DecidableEq, Repr

/-- `OP = cmd[31:24]`, the command code (rule R90). -/
def fieldOp (w : CommandWord) : Byte := w.extractLsb' 24 8

/-- `A = cmd[23:16]` (rule R90). -/
def fieldA (w : CommandWord) : Byte := w.extractLsb' 16 8

/-- `B = cmd[15:8]` (rule R90). -/
def fieldB (w : CommandWord) : Byte := w.extractLsb' 8 8

/-- `C = cmd[7:0]` (rule R90). -/
def fieldC (w : CommandWord) : Byte := w.extractLsb' 0 8

/-- `cmd[15:0]`, the field of `count` and `pos` (rule R91). -/
def fieldBC (w : CommandWord) : BitVec 16 := w.extractLsb' 0 16

/-- The command a command word asks for (rules R91, R92).  Fields that rule R91 marks "ignored" are not looked at
(rule R95); `sext_N` of rule R9 is `toInt`. -/
def decodeCommand (w : CommandWord) : Except DecodeError Instr :=
  match (fieldOp w).toNat with
  | 0x00 => .ok .nop
  | 0x01 => .ok (.configure (fieldBC w).toInt)
  | 0x10 => .ok (.powerDown (fieldA w).toInt)
  | 0x11 => .ok (.powerUp (fieldA w).toInt)
  | 0x12 => .ok (.scanLimit (fieldA w).toInt (fieldC w).toInt)
  | 0x13 => .ok (.intensity (fieldA w).toInt (fieldC w).toInt)
  | 0x20 => .ok (.setLedOff (fieldA w).toInt (fieldB w).toInt (fieldC w).toInt)
  | 0x21 => .ok (.setLedOn (fieldA w).toInt (fieldB w).toInt (fieldC w).toInt)
  | 0x22 => .ok (.setRow (fieldA w).toInt (fieldB w).toInt (fieldC w))
  | 0x23 => .ok (.setColumn (fieldA w).toInt (fieldB w).toInt (fieldC w))
  | 0x24 => .ok (.clear (fieldA w).toInt)
  | 0x25 => .ok .clearAll
  | 0x30 => .ok (.placeGlyph (fieldA w) (fieldBC w).toInt)
  | _ => .error (.reservedCommandCode (fieldOp w))

/-- The value byte of a slot: the byte sent first, `SR[15:8]` (rule R80). -/
def slotValueField (w : SlotWord) : Byte := w.extractLsb' 8 8

/-- The wire-opcode byte of a slot: the byte sent second, `SR[7:0]` (rule R80). -/
def slotOpcodeField (w : SlotWord) : Byte := w.extractLsb' 0 8

/-- A slot whose value must have no bit at or above `width`, as its row of the opcode table says. -/
def narrowValue (width : Nat) (w : SlotWord) (make : BitVec width → Instr) : Except DecodeError Instr :=
  if (slotValueField w).toNat < 2 ^ width then .ok (make ((slotValueField w).setWidth width))
  else .error (.valueNeverSent (slotOpcodeField w) (slotValueField w))

/-- A slot that is sent with one value only. -/
def fixedValue (w : SlotWord) (value : Byte) (i : Instr) : Except DecodeError Instr :=
  if slotValueField w = value then .ok i else .error (.valueNeverSent (slotOpcodeField w) (slotValueField w))

/-- The register write a wire slot carries (rule R82; the SLOT16 rows of the opcode table). -/
def decodeSlot (w : SlotWord) : Except DecodeError Instr :=
  if slotOpcodeField w = Machine.params.opcNoop then fixedValue w 0 .wNoop
  else if slotOpcodeField w = Machine.params.opcRow 0 then .ok (.wRow0 (slotValueField w))
  else if slotOpcodeField w = Machine.params.opcRow 1 then .ok (.wRow1 (slotValueField w))
  else if slotOpcodeField w = Machine.params.opcRow 2 then .ok (.wRow2 (slotValueField w))
  else if slotOpcodeField w = Machine.params.opcRow 3 then .ok (.wRow3 (slotValueField w))
  else if slotOpcodeField w = Machine.params.opcRow 4 then .ok (.wRow4 (slotValueField w))
  else if slotOpcodeField w = Machine.params.opcRow 5 then .ok (.wRow5 (slotValueField w))
  else if slotOpcodeField w = Machine.params.opcRow 6 then .ok (.wRow6 (slotValueField w))
  else if slotOpcodeField w = Machine.params.opcRow 7 then .ok (.wRow7 (slotValueField w))
  else if slotOpcodeField w = Machine.params.opcDecode then fixedValue w Machine.params.valDecodeOff .wDecode
  else if slotOpcodeField w = Machine.params.opcIntensity then narrowValue 4 w .wIntensity
  else if slotOpcodeField w = Machine.params.opcScanLimit then narrowValue 3 w .wScanLimit
  else if slotOpcodeField w = Machine.params.opcShutdown then narrowValue 1 w .wShutdown
  else if slotOpcodeField w = Machine.params.opcDisplayTest then
    fixedValue w Machine.params.valTestOff .wDisplayTest
  else .error (.unusedWireOpcode (slotOpcodeField w))

/-- Decoding in either encoding. -/
def decode : CodeWord → Except DecodeError Instr
  | .command w => decodeCommand w
  | .slot w => decodeSlot w

/-! ### The encoder -/

/-- A command word of its four byte fields (rule R90). -/
def commandWord (op a b c : Byte) : CommandWord := op ++ a ++ b ++ c

/-- A command word of formats FN and FP: `OP`, `A` and a 16-bit field (rule R91). -/
def commandWord16 (op a : Byte) (bc : BitVec 16) : CommandWord := op ++ a ++ bc

/-- A two's-complement 8-bit field (rule R93). -/
def int8 (i : Int) : Byte := BitVec.ofInt 8 i

/-- A two's-complement 16-bit field (rule R93). -/
def int16 (i : Int) : BitVec 16 := BitVec.ofInt 16 i

/-- A wire slot: value byte, then wire-opcode byte (rule R80). -/
def slotWord (value opc : Byte) : SlotWord := value ++ opc

/-- The word of an instruction whose operands fit their fields; ignored fields are written as 0 (rule R95). -/
def encodeFields : Instr → CodeWord
  | .nop => .command (commandWord 0x00 0 0 0)
  | .configure count => .command (commandWord16 0x01 0 (int16 count))
  | .powerDown mdl => .command (commandWord 0x10 (int8 mdl) 0 0)
  | .powerUp mdl => .command (commandWord 0x11 (int8 mdl) 0 0)
  | .scanLimit mdl limit => .command (commandWord 0x12 (int8 mdl) 0 (int8 limit))
  | .intensity mdl level => .command (commandWord 0x13 (int8 mdl) 0 (int8 level))
  | .setLedOff mdl row col => .command (commandWord 0x20 (int8 mdl) (int8 row) (int8 col))
  | .setLedOn mdl row col => .command (commandWord 0x21 (int8 mdl) (int8 row) (int8 col))
  | .setRow mdl row value => .command (commandWord 0x22 (int8 mdl) (int8 row) value)
  | .setColumn mdl col bits => .command (commandWord 0x23 (int8 mdl) (int8 col) bits)
  | .clear mdl => .command (commandWord 0x24 (int8 mdl) 0 0)
  | .clearAll => .command (commandWord 0x25 0 0 0)
  | .placeGlyph ch pos => .command (commandWord16 0x30 ch (int16 pos))
  | .wNoop => .slot (slotWord 0 Machine.params.opcNoop)
  | .wRow0 v => .slot (slotWord v (Machine.params.opcRow 0))
  | .wRow1 v => .slot (slotWord v (Machine.params.opcRow 1))
  | .wRow2 v => .slot (slotWord v (Machine.params.opcRow 2))
  | .wRow3 v => .slot (slotWord v (Machine.params.opcRow 3))
  | .wRow4 v => .slot (slotWord v (Machine.params.opcRow 4))
  | .wRow5 v => .slot (slotWord v (Machine.params.opcRow 5))
  | .wRow6 v => .slot (slotWord v (Machine.params.opcRow 6))
  | .wRow7 v => .slot (slotWord v (Machine.params.opcRow 7))
  | .wDecode => .slot (slotWord Machine.params.valDecodeOff Machine.params.opcDecode)
  | .wIntensity v => .slot (slotWord (v.setWidth 8) Machine.params.opcIntensity)
  | .wScanLimit v => .slot (slotWord (v.setWidth 8) Machine.params.opcScanLimit)
  | .wShutdown v => .slot (slotWord (v.setWidth 8) Machine.params.opcShutdown)
  | .wDisplayTest => .slot (slotWord Machine.params.valTestOff Machine.params.opcDisplayTest)

/-- The word of an instruction; none where an operand is outside its field: "refused by the encoder, not wrapped"
(rule R203). -/
def encode (i : Instr) : Option CodeWord :=
  if i.wellFormed then some (encodeFields i) else none

/-- The instruction read from a word of the opcode table: 32-bit rows are command words, 16-bit rows are wire slots with
bit 15 the first bit on the wire (the tables' numbering in the opcode table and rule R80). -/
def decodeTableWord (nbits w : Nat) : Option Instr :=
  match (if nbits = 16 then decode (.slot (BitVec.ofNat 16 w))
         else decode (.command (BitVec.ofNat 32 w))) with
  | .ok i => some i
  | .error _ => none

end Sys2Proof
end

