-- ==== Sys2Proof/Machine/Sequencer.lean ====
section
/-! DEFINITION. The sequencer move by move (rules R31, R34): accept a command, then make one move of it at a time.

`exec` carries a command out in one step, as rule R34 allows.  Here is the same command in progress, with `busy = 1` and
every intermediate state visible (rules R62, R291); that both agree is an obligation.  Log entries 1 and 20. -/

namespace Sys2Proof.Machine

/-- The moves of a command, in the order its rule states; a wire slot is no command and has none. -/
def commandActs (cfg : Config) (s : State) : Instr → Except Refusal (List Act)
  | .nop => .ok []
  | .configure count => configureActs cfg s count
  | .powerDown mdl => .ok (powerDownActs cfg s mdl)
  | .powerUp mdl => .ok (powerUpActs cfg s mdl)
  | .scanLimit mdl limit => .ok (scanLimitActs cfg s mdl limit)
  | .intensity mdl level => .ok (intensityActs cfg s mdl level)
  | .setLedOff mdl row col => .ok (setLedActs s mdl row col false)
  | .setLedOn mdl row col => .ok (setLedActs s mdl row col true)
  | .setRow mdl row value => .ok (setRowActs cfg s mdl row value)
  | .setColumn mdl col bits => .ok (setColumnActs cfg s mdl col bits)
  | .clear mdl => .ok (clearActs cfg s mdl)
  | .clearAll => .ok (clearAllActs cfg s)
  | .placeGlyph ch pos => .ok (placeGlyphActs cfg s ch pos)
  | .wNoop | .wRow0 _ | .wRow1 _ | .wRow2 _ | .wRow3 _ | .wRow4 _ | .wRow5 _ | .wRow6 _ | .wRow7 _
  | .wDecode | .wIntensity _ | .wScanLimit _ | .wShutdown _ | .wDisplayTest => .ok []

/-- The sequencer with moves left to make: busy exactly while there are some (rule R31). -/
def sequencerOf (w : CommandWord) (acts : List Act) : Option Sequencer :=
  match acts with
  | [] => none
  | a :: rest => some { word := w, rest := a :: rest }

/-- The word `w` of command `i` is taken, `busy` rises, no move is made yet (rules R31, R97). -/
def State.beginCommand (cfg : Config) (s : State) (w : CommandWord) (i : Instr) : Result :=
  match commandActs cfg s i with
  | .ok acts => .next { s with seq := sequencerOf w acts }
  | .error r => .refused r

/-- One move of the command in progress; `busy` falls with the last one (rule R31). -/
def State.tick (cfg : Config) (s : State) : State :=
  match s.seq with
  | none => s
  | some q =>
    match q.rest with
    | [] => { s with seq := none }
    | a :: rest => ({ s with seq := sequencerOf q.word rest } : State).perform cfg a

/-- `k` moves. -/
def State.ticks (cfg : Config) (s : State) : Nat → State
  | 0 => s
  | k + 1 => (s.tick cfg).ticks cfg k

end Sys2Proof.Machine
end

