-- ==== Sys2Proof/Machine/Fetch.lean ====
section
/-! DEFINITION. What the machine does next: which agent moves (rule R11) and what it takes.

There is no program counter and no fetch from memory (rule R33).  A chip takes its slot from its own shift register; the
block takes a command word from the command port; the host's list holds what will be presented. -/

namespace Sys2Proof.Machine

/-- What the next step is about. -/
inductive Fetched where
  /-- A chip's slot that decodes to a wire instruction. -/
  | slot (i : Instr)
  /-- A chip's slot that the block never sends (rule R84). -/
  | slotNeverSent (e : DecodeError)
  /-- `rst` is asserted; the state is the one without that item. -/
  | powerOnReset (t : State)
  /-- A command is in progress (`busy = 1`): one move of the sequencer. -/
  | move
  /-- A command word with an instruction; the state is the one with the word taken. -/
  | command (i : Instr) (t : State)
  /-- A command word with a reserved code; the state is the one with the word taken. -/
  | reserved (e : DecodeError) (t : State)
  /-- A pause of the host; the state is the one with the pause over. -/
  | pause (t : State)
  /-- Nothing is presented. -/
  | idle
deriving DecidableEq, Repr

/-- What the host's list presents to a block that is not committing a latch edge.  A word presented while `cmd_ready = 0`
is not taken and not queued: the host holds it (rule R97). -/
def State.fetchHost (s : State) : Fetched :=
  match s.host with
  | .powerOnReset :: rest => .powerOnReset { s with host := rest }
  | .command w :: rest =>
    if s.cmdReady then
      match decodeCommand w with
      | .ok i => .command i { s with host := rest }
      | .error e => .reserved e { s with host := rest }
    else .move
  | .pause _ :: rest => if s.cmdReady then .pause { s with host := rest } else .move
  | [] => if s.cmdReady then .idle else .move

/-- What the machine does next: chips that have still to commit at a latch edge move first (rule R62), then the block. -/
def State.fetch (s : State) : Fetched :=
  if s.rxPending then
    match decodeSlot s.sr[s.rx] with
    | .ok i => .slot i
    | .error e => .slotNeverSent e
  else s.fetchHost

/-- A chip has executed its slot: the next chip's turn (rule R224). -/
def afterSlot (r : Result) : Result :=
  match r with
  | .next t => .next t.nextChip
  | .fault f => .fault f
  | .refused e => .refused e

/-- A slot the block never sends: what rule R224 says of it, a free register file where that rule says "unspecified".
Log entry 13. -/
def State.stepSlotNeverSent (s : State) : Result := .next (s.commitOne params).nextChip

/-- A reserved command code "is accepted and completes as a no-op" (rule R94). -/
def stepReserved (t : State) : Result := .next t

/-- A pause is no operation of the block (rules R9, R207). -/
def stepPause (t : State) : Result := .next t

/-- Nothing presented: "the block waits for a command" (rule R280). -/
def State.stepIdle (s : State) : Result := .next s

/-- `rst` is asserted (rule R280). -/
def stepPowerOnReset (t : State) : Result := .next t.powerOnReset

/-- One move of the command in progress (rule R34). -/
def State.stepMove (s : State) : Result := .next (s.tick params)

/-- A 32-bit word of the opcode table placed on the command port of a block that is ready. -/
def State.withCommandWord (s : State) (w : CommandWord) : State :=
  { s with rxPending := false, seq := none, host := .command w :: s.host }

/-- A 16-bit word of the opcode table placed in the shift register of the chip whose turn it is, at a latch edge. -/
def State.withSlotWord (s : State) (w : SlotWord) : State :=
  { s with rxPending := true, sr := s.sr.set s.rx w }

end Sys2Proof.Machine
end

