-- ==== Sys2Proof/Machine/Step.lean ====
section
/-! DEFINITION. One step of the machine. -/

namespace Sys2Proof.Machine

/-- One step: a chip takes its slot, or the block carries out the command presented, or makes one move of the command in
progress, or the host pauses, or `rst` is asserted, or nothing is presented. -/
def step (s : State) : Host.Outcome State Fault Refusal :=
  match s.fetch with
  | .slot i => afterSlot (exec i s)
  | .slotNeverSent _ => s.stepSlotNeverSent
  | .powerOnReset t => stepPowerOnReset t
  | .move => s.stepMove
  | .command i t => exec i t
  | .reserved _ t => stepReserved t
  | .pause t => stepPause t
  | .idle => s.stepIdle

/-- The state in which the next step runs the instruction whose bits are `w`: a 16-bit word is a wire slot in the shift
register of the chip whose turn it is, any other a command word on the command port (log entry 11). -/
def State.withFetchWord (s : State) (nbits w : Nat) : State :=
  if nbits = 16 then s.withSlotWord (BitVec.ofNat 16 w) else s.withCommandWord (BitVec.ofNat 32 w)

end Sys2Proof.Machine
end

