-- ==== Sys2Proof/Machine/Pseudo.lean ====
section
/-! DEFINITION. The text pseudo-commands: host-level sequences of commands and pauses with a fixed expansion (rules R4,
R101, R205 to R211).  They have no command word; the host presents their expansion item by item. -/

namespace Sys2Proof.Machine

/-- One move of the host: present a command, or pause (rules R11, R33). -/
inductive HostStep where
  | command (i : Instr)
  | pause (ms : Nat)
deriving DecidableEq, Repr

/-- The body of `placeString` from glyph number i on: glyph i at `start + 8 i`, ascending i (rule R205). -/
def placeStringFrom (start : Int) : (i : Nat) → List Byte → List HostStep
  | _, [] => []
  | i, ch :: text => .command (.placeGlyph ch (start + 8 * (i : Int))) :: placeStringFrom start (i + 1) text

/-- `placeString(text, start)` (rule R205). -/
def placeString (text : List Byte) (start : Int) : List HostStep := placeStringFrom start 0 text

/-- Glyphs 1, 2, ... of `placeStringCompact`: glyph i at `start + 8 i - 2 i` (rule R206). -/
def placeCompactFrom (start : Int) : (i : Nat) → List Byte → List HostStep
  | _, [] => []
  | i, ch :: text =>
    .command (.placeGlyph ch (start + 8 * (i : Int) - 2 * (i : Int))) :: placeCompactFrom start (i + 1) text

/-- `placeStringCompact(text, start)`: the first glyph at `start - 1` (rule R206). -/
def placeStringCompact (text : List Byte) (start : Int) : List HostStep :=
  match text with
  | [] => []
  | ch :: rest => .command (.placeGlyph ch (start - 1)) :: placeCompactFrom start 1 rest

/-- `for step in from downto ...`, `count` values. -/
def downFrom (first : Int) : Nat → List Int
  | 0 => []
  | k + 1 => first :: downFrom (first - 1) k

/-- The positions of a scroll of `len` characters on N modules: `8N` down to `-(8 len) + 1`, both included (rule R207). -/
def scrollPositions (n len : Nat) : List Int := downFrom (8 * (n : Int)) (8 * n + 8 * len)

/-- `scroll(text, delayPerStep)`: place the text, then pause, at each position (rule R207).  That the delay is a
natural number is a DESIGN CHOICE, log entry 24. -/
def scroll (n : Nat) (text : List Byte) (delay : Nat) : List HostStep :=
  (scrollPositions n text.length).flatMap fun p => placeString text p ++ [.pause delay]

/-- `scrollCompact(text, delayPerStep)`: the same bounds, compact placement (rule R208). -/
def scrollCompact (n : Nat) (text : List Byte) (delay : Nat) : List HostStep :=
  (scrollPositions n text.length).flatMap fun p => placeStringCompact text p ++ [.pause delay]

/-- `formatNumber(value, position)`: the collaborator's text of width N with zero decimals (rule R209). -/
def formatNumber (cfg : Config) (n : Nat) (value position : Int) : List HostStep :=
  placeString (cfg.intToText value n 0) position

/-- A host move as an item of the host's list; none where the encoder refuses the command (rule R203) and for a wire slot,
which the host cannot issue (rule R102). -/
def HostStep.item : HostStep → Option HostItem
  | .command i =>
    match encode i with
    | some (.command w) => some (.command w)
    | some (.slot _) => none
    | none => none
  | .pause ms => some (.pause ms)

/-- The items of a sequence; none where one of them is refused. -/
def hostItems : List HostStep → Option (List HostItem)
  | [] => some []
  | x :: xs =>
    match x.item, hostItems xs with
    | some y, some ys => some (y :: ys)
    | _, _ => none

end Sys2Proof.Machine
end

