-- ==== Sys2Proof/Machine/Assembly.lean ====
section
/-! DEFINITION. The assembly syntax (rules R100, R101): a name, then its operands in parentheses separated by commas.

Integers are decimal, or hexadecimal with `0x`; a character operand stands in single quotes or as its code; a text operand
stands in double quotes; `on` is `true`, `false`, 1 or 0.  Text is a list of characters.  Log entry 18. -/

namespace Sys2Proof.Machine

/-- A lexical item of a line. -/
inductive Token where
  | lparen
  | rparen
  | comma
  /-- A name or a number: a run of letters, digits and `-`. -/
  | word (w : List Char)
  /-- A character in single quotes. -/
  | quoted (c : Char)
  /-- A text in double quotes. -/
  | text (t : List Char)
deriving DecidableEq, Repr

/-- Where the lexer stands. -/
inductive LexMode where
  | between
  /-- Inside a word, its characters so far in reverse. -/
  | inWord (rev : List Char)
  /-- Inside double quotes, the characters so far in reverse. -/
  | inText (rev : List Char)
  /-- After an opening single quote. -/
  | quoteOpen
  /-- After the character of a single quote. -/
  | quoteChar (c : Char)
deriving DecidableEq, Repr

/-- A character of a name or a number. -/
def isWordChar (c : Char) : Bool := c.isAlphanum || c == '-'

/-- The token of a character that stands between words; none where it starts none. -/
def punctuation (c : Char) : Option Token :=
  if c == '(' then some .lparen else if c == ')' then some .rparen else if c == ',' then some .comma else none

/-- The tokens of a line. -/
def lex : LexMode → List Char → Option (List Token)
  | .between, [] => some []
  | .inWord rev, [] => some [.word rev.reverse]
  | .inText _, [] => none
  | .quoteOpen, [] => none
  | .quoteChar _, [] => none
  | .between, c :: cs =>
    if c == ' ' then lex .between cs
    else if isWordChar c then lex (.inWord [c]) cs
    else if c == '"' then lex (.inText []) cs
    else if c == '\'' then lex .quoteOpen cs
    else match punctuation c with
    | some t => (lex .between cs).map (t :: ·)
    | none => none
  | .inWord rev, c :: cs =>
    if isWordChar c then lex (.inWord (c :: rev)) cs
    else if c == ' ' then (lex .between cs).map (.word rev.reverse :: ·)
    else match punctuation c with
    | some t => (lex .between cs).map (fun ts => .word rev.reverse :: t :: ts)
    | none => none
  | .inText rev, c :: cs =>
    if c == '"' then (lex .between cs).map (.text rev.reverse :: ·) else lex (.inText (c :: rev)) cs
  | .quoteOpen, c :: cs => lex (.quoteChar c) cs
  | .quoteChar x, c :: cs => if c == '\'' then (lex .between cs).map (.quoted x :: ·) else none

/-- An operand as written. -/
inductive Operand where
  | int (i : Int)
  | char (c : Byte)
  | text (t : List Byte)
  | bool (b : Bool)
deriving DecidableEq, Repr

/-- A digit of base `base`. -/
def digit (base : Nat) (c : Char) : Option Nat :=
  let v :=
    if c.isDigit then c.toNat - '0'.toNat
    else if 'a'.toNat ≤ c.toNat ∧ c.toNat ≤ 'f'.toNat then c.toNat - 'a'.toNat + 10
    else if 'A'.toNat ≤ c.toNat ∧ c.toNat ≤ 'F'.toNat then c.toNat - 'A'.toNat + 10
    else base
  if v < base then some v else none

/-- The digits of a number, the first the most significant. -/
def digits (base : Nat) : (acc : Nat) → List Char → Option Nat
  | acc, [] => some acc
  | acc, c :: cs =>
    match digit base c with
    | some v => digits base (acc * base + v) cs
    | none => none

/-- A natural number: decimal, or hexadecimal with `0x`. -/
def natural : List Char → Option Nat
  | [] => none
  | ['0', 'x'] => none
  | '0' :: 'x' :: cs => digits 16 0 cs
  | c :: cs => digits 10 0 (c :: cs)

/-- An integer: a natural number, or one with a minus sign. -/
def integer : List Char → Option Int
  | '-' :: cs => (natural cs).map fun v => -(v : Int)
  | cs => (natural cs).map fun v => (v : Int)

/-- The code of a character (rule R121: codes 0..255). -/
def charCode (c : Char) : Option Byte := if c.toNat < 256 then some (BitVec.ofNat 8 c.toNat) else none

/-- The codes of a text. -/
def textCodes : List Char → Option (List Byte)
  | [] => some []
  | c :: cs =>
    match charCode c, textCodes cs with
    | some b, some bs => some (b :: bs)
    | _, _ => none

/-- One operand from its token. -/
def operand : Token → Option Operand
  | .word w =>
    if w = ['t', 'r', 'u', 'e'] then some (.bool true)
    else if w = ['f', 'a', 'l', 's', 'e'] then some (.bool false)
    else (integer w).map .int
  | .quoted c => (charCode c).map .char
  | .text t => (textCodes t).map .text
  | .lparen | .rparen | .comma => none

/-- Operands up to the closing parenthesis, at least one, commas between. -/
def operandsTail : List Token → Option (List Operand)
  | [t, .rparen] => (operand t).map fun o => [o]
  | t :: .comma :: ts =>
    match operand t, operandsTail ts with
    | some o, some os => some (o :: os)
    | _, _ => none
  | _ => none

/-- The operands after the opening parenthesis. -/
def operands : List Token → Option (List Operand)
  | [.rparen] => some []
  | ts => operandsTail ts

/-- An unsigned 8-bit operand (rule R93): `value`, `bits` or `ch`.  That a quoted character may stand for a `value` or for
`bits` too, as its code, is a DESIGN CHOICE, log entry 18: rule R100 names the quotes for a character operand. -/
def Operand.byte : Operand → Option Byte
  | .int i => if 0 ≤ i ∧ i ≤ 255 then some (BitVec.ofNat 8 i.toNat) else none
  | .char c => some c
  | .text _ => none
  | .bool _ => none

/-- The operand `on`. -/
def Operand.on : Operand → Option Bool
  | .bool b => some b
  | .int i => if i = 1 then some true else if i = 0 then some false else none
  | .char _ => none
  | .text _ => none

/-- A `delayPerStep` operand: a natural number of milliseconds, without upper bound; a negative one is not of the syntax.
The range is a DESIGN CHOICE, log entry 24: neither the source nor the spec gives one (N30); milliseconds are rule R9's. -/
def Operand.duration : Operand → Option Nat
  | .int i => if 0 ≤ i then some i.toNat else none
  | .char _ => none
  | .text _ => none
  | .bool _ => none

/-- The expansion of one call: a command (rule R100) or a pseudo-command (rule R101) for a chain of N modules. -/
def expandCall (cfg : Config) (n : Nat) (name : List Char) (ops : List Operand) : Option (List HostStep) :=
  match String.ofList name, ops with
  | "nop", [] => some [.command .nop]
  | "configure", [.int c] => some [.command (.configure c)]
  | "powerDown", [.int m] => some [.command (.powerDown m)]
  | "powerUp", [.int m] => some [.command (.powerUp m)]
  | "scanLimit", [.int m, .int l] => some [.command (.scanLimit m l)]
  | "intensity", [.int m, .int l] => some [.command (.intensity m l)]
  | "setLed", [.int m, .int r, .int c, on] =>
    on.on.map fun b => [.command (if b then .setLedOn m r c else .setLedOff m r c)]
  | "setRow", [.int m, .int r, v] => v.byte.map fun b => [.command (.setRow m r b)]
  | "setColumn", [.int m, .int c, v] => v.byte.map fun b => [.command (.setColumn m c b)]
  | "clear", [.int m] => some [.command (.clear m)]
  | "clearAll", [] => some [.command .clearAll]
  | "placeGlyph", [ch, .int p] => ch.byte.map fun b => [.command (.placeGlyph b p)]
  | "placeString", [.text t, .int p] => some (placeString t p)
  | "placeStringCompact", [.text t, .int p] => some (placeStringCompact t p)
  | "scroll", [.text t, d] => d.duration.map fun ms => scroll n t ms
  | "scrollCompact", [.text t, d] => d.duration.map fun ms => scrollCompact n t ms
  | "formatNumber", [.int v, .int p] => some (formatNumber cfg n v p)
  | _, _ => none

/-- The host moves of one line of assembly text; none where the line is not of the syntax. -/
def assembleLine (cfg : Config) (n : Nat) (line : List Char) : Option (List HostStep) :=
  match lex .between line with
  | some (.word name :: .lparen :: ts) =>
    match operands ts with
    | some ops => expandCall cfg n name ops
    | none => none
  | _ => none

end Sys2Proof.Machine
end

