-- ==== Sys2Proof/Machine/Display.lean ====
section
/-! DEFINITION. What the chips show: the display function of the chip registers (rules R228 to R230).  It reads the chain
and changes nothing; no rule about the block depends on it.  Log entry 19. -/

namespace Sys2Proof.Machine

/-- LED (r, c) of a chip is lit (rule R230). -/
def ChipRegs.lit (cfg : Config) (chip : ChipRegs) (r c : Fin 8) : Bool :=
  chip.displayTest == 1 ||
    (chip.shutdown == cfg.valPowerUp.setWidth 1 && decide (r.val ≤ chip.scanLimit.toNat) && chip.decode == 0
      && bitAt chip.row[r] c)

/-- LED (k, r, c) of the chain is lit. -/
def State.lit (cfg : Config) (s : State) (k r c : Fin 8) : Bool := s.chips[k].lit cfg r c

/-- The brightness of chip k, 0 dimmest to 15 brightest (rule R229). -/
def State.brightness (s : State) (k : Fin 8) : Nat := s.chips[k].intensity.toNat

/-- The number of active rows of chip k: a scan limit L drives rows 0 to L (rule R229). -/
def State.activeRows (s : State) (k : Fin 8) : Nat := s.chips[k].scanLimit.toNat + 1

end Sys2Proof.Machine
end

