-- ==== Sys2Proof/Safety.lean ====
section
/-! DEFINITION. The terms in which claims about the machine are stated: the bus at rest, a whole transaction seen from the
outside, what a run may not do, and the invariants of the machine between commands.

Nothing here is part of the machine: no definition of Machine/ uses this file. -/

namespace Sys2Proof.Machine

/-! ### A transaction seen from the outside -/

/-- The bus between transactions (rule R29): the pins are driven, `LATCH_N` = 1, `CLK` = 0. -/
def State.BusIdle (s : State) : Prop :=
  s.pinsDriven = true ∧ s.clkPin = some false ∧ s.latchPin = some true

/-- A configured block with its bus at rest and a chain length no greater than `N_MAX`: what every command of rule R282
needs.  The register `N` has 4 bits and legal values 1..8 (rule R23). -/
def State.Ready (s : State) : Prop := s.configured = true ∧ s.BusIdle ∧ s.n.toNat ≤ 8

/-- The frame for (k, opc, val) in a chain of length n: `T[0..2N-1]` (rule R81). -/
def frameOf (cfg : Config) (n : BitVec 4) (k : Fin 8) (opc val : Byte) : List Byte :=
  (List.range (2 * n.toNat)).map (frameByte cfg n k opc val)

/-- The pin events of one byte: eight bit cells, bit 7 first (rules R56, R86). -/
def byteEvents (b : Byte) : List PinEvent :=
  downFrom7.flatMap fun i => [⟨.data, bitAt b i⟩, ⟨.clk, true⟩, ⟨.clk, false⟩]

/-- The pin events of one transaction (rule R86). -/
def frameEvents (frame : List Byte) : List PinEvent :=
  [⟨.latchN, false⟩] ++ frame.flatMap byteEvents ++ [⟨.latchN, true⟩]

/-- The slot that ends up in chip j after the frame for (k, opc, val) (rule R222). -/
def slotFor (cfg : Config) (k : Fin 8) (opc val : Byte) (j : Fin 8) : SlotWord :=
  if j = k then slotWord (pairFirst cfg opc val) (pairSecond cfg opc val) else 0

/-- The level of DATA after the frame: its last bit (rule R29). -/
def lastBit (frame : List Byte) : Bool :=
  match frame.getLast? with
  | some b => bitAt b 0
  | none => false

/-- The whole effect of one transaction `BusWrite(k, opc, val)` (rules R160, R222, R226), stated at once and not pin by
pin: the scratch buffer and the traces, the pins, the shift registers, and one register of chip k. -/
def State.transact (cfg : Config) (s : State) (k : Fin 8) (opc val : Byte) : State :=
  { s.assemble cfg k opc val with
    dataPin := some (lastBit (frameOf cfg s.n k opc val))
    sr := vec8 fun j => if j.val < s.n.toNat then slotFor cfg k opc val j else s.sr[j]
    chips := s.chips.set k (s.chips[k].write cfg (freeChip s.freeCount k) opc val)
    frameLog := frameOf cfg s.n k opc val :: s.frameLog
    pinLog := (frameEvents (frameOf cfg s.n k opc val)).reverse ++ s.pinLog }

/-- A push of row r of module m: the transaction that sends the row as it stands (rule R146). -/
def State.push (cfg : Config) (s : State) (m r : Fin 8) : State := s.transact cfg m (cfg.opcRow r) (s.fbRow m r)

/-- SETLED on a valid address: change the bit, push the row (rule R141). -/
def State.setLed (cfg : Config) (s : State) (m r c : Fin 8) (on : Bool) : State :=
  (s.setFbRow m r (setBit (s.fbRow m r) c on)).push cfg m r

/-- SETROW on a valid address: replace the row, push it (rule R142). -/
def State.setRow (cfg : Config) (s : State) (m r : Fin 8) (v : Byte) : State := (s.setFbRow m r v).push cfg m r

/-- SETCOLUMN on a valid address: SETLED of the rows in ascending order (rule R143). -/
def State.setColumn (cfg : Config) (s : State) (m c : Fin 8) (bits : Byte) : State :=
  upTo7.foldl (fun t r => t.setLed cfg m r c (columnBit cfg bits r)) s

/-- CLEAR of a valid module: zero and push the rows in ascending order (rule R144). -/
def State.clear (cfg : Config) (s : State) (m : Fin 8) : State := upTo7.foldl (fun t r => t.setRow cfg m r 0) s

/-- CLEARALL: CLEAR of the modules in ascending order (rule R145). -/
def State.clearAll (cfg : Config) (s : State) : State := (modulesBelow s.n).foldl (fun t m => t.clear cfg m) s

/-- PLACEGLYPH: SETCOLUMN of the columns of the glyph that are on the chain (rule R200). -/
def State.placeGlyph (cfg : Config) (s : State) (ch : Byte) (pos : Int) : State :=
  (placeColumns cfg s.orientQ s.n (transform (lookup cfg ch) s.orientQ) pos upTo7).foldl
    (fun t x => t.setColumn cfg x.1.1 x.1.2 x.2) s

/-- The block just claimed by CONFIGURE: steps a and b of rule R181, with the chain length of rule R180. -/
def State.claimed (s : State) (n : BitVec 4) (o : Orientation) : State :=
  { s with
    n := n
    pinsDriven := true
    dataPin := some false
    clkPin := some false
    latchPin := some true
    pinLog := ⟨.latchN, true⟩ :: ⟨.clk, false⟩ :: ⟨.data, false⟩ :: s.pinLog
    fb := vec8 fun _ => vec8 fun _ => 0
    orientQ := o
    configured := true }

/-- Step c of rule R181 for one module. -/
def State.initModule (cfg : Config) (s : State) (m : Fin 8) : State :=
  (((s.transact cfg m cfg.opcDisplayTest cfg.valTestOff).transact cfg m cfg.opcScanLimit 7).transact cfg m
    cfg.opcDecode cfg.valDecodeOff).clear cfg m

/-- One register of every chip written with one value, chips ascending: the "globally" steps of rule R181. -/
def State.everyChip (cfg : Config) (s : State) (opc val : Byte) : State :=
  (modulesBelow s.n).foldl (fun t m => t.transact cfg m opc val) s

/-- CONFIGURE of an unconfigured block: steps a to d of rule R181. -/
def State.configure (cfg : Config) (s : State) (n : BitVec 4) (o : Orientation) : State :=
  let a := s.claimed n o
  let c := (modulesBelow n).foldl (fun t m => t.initModule cfg m) a
  (((c.everyChip cfg cfg.opcShutdown cfg.valPowerDown).everyChip cfg cfg.opcIntensity
    (cfg.defaultIntensity.setWidth 8)).everyChip cfg cfg.opcShutdown cfg.valPowerUp).clearAll cfg

/-! ### What is left alone -/

/-- The control registers, the ports and the host's list are those of `s`: what no command but CONFIGURE changes
(rules R7, R23, R24, R25).  The sequencer's position and the chips' turn are the model's own. -/
def State.SameControl (s t : State) : Prop :=
  t.configured = s.configured ∧ t.n = s.n ∧ t.orientQ = s.orientQ ∧ t.pinsDriven = s.pinsDriven ∧
    t.seq = s.seq ∧ t.orientStrap = s.orientStrap ∧ t.host = s.host ∧ t.rx = s.rx ∧ t.rxPending = s.rxPending ∧
    t.freeCount = s.freeCount

/-- The block of two states is the same: everything on this side of the wire (rule R233). -/
def State.SameBlock (s t : State) : Prop :=
  t.configured = s.configured ∧ t.n = s.n ∧ t.orientQ = s.orientQ ∧ t.fb = s.fb ∧ t.txbuf = s.txbuf ∧
    t.pinsDriven = s.pinsDriven ∧ t.dataPin = s.dataPin ∧ t.clkPin = s.clkPin ∧ t.latchPin = s.latchPin ∧
    t.seq = s.seq ∧ t.orientStrap = s.orientStrap ∧ t.host = s.host ∧ t.frameLog = s.frameLog ∧ t.pinLog = s.pinLog

/-- The conditions of rule R251 that make a command a no-op: X1 to X5, X11 and X12. -/
def State.Drops (s : State) : Instr → Prop
  | .configure _ => s.configured = true
  | .powerDown mdl | .powerUp mdl | .clear mdl => s.configured = false ∨ ¬ (0 ≤ mdl ∧ mdl < (s.n.toNat : Int))
  | .scanLimit mdl limit => s.configured = false ∨ ¬ (0 ≤ mdl ∧ mdl < (s.n.toNat : Int)) ∨ ¬ (0 ≤ limit ∧ limit ≤ 7)
  | .intensity mdl level => s.configured = false ∨ ¬ (0 ≤ mdl ∧ mdl < (s.n.toNat : Int)) ∨ ¬ (0 ≤ level ∧ level ≤ 15)
  | .setLedOff mdl row col | .setLedOn mdl row col =>
    s.configured = false ∨ ¬ (0 ≤ mdl ∧ mdl < (s.n.toNat : Int)) ∨ ¬ (0 ≤ row ∧ row ≤ 7) ∨ ¬ (0 ≤ col ∧ col ≤ 7)
  | .setRow mdl row _ => s.configured = false ∨ ¬ (0 ≤ mdl ∧ mdl < (s.n.toNat : Int)) ∨ ¬ (0 ≤ row ∧ row ≤ 7)
  | .setColumn mdl col _ => s.configured = false ∨ ¬ (0 ≤ mdl ∧ mdl < (s.n.toNat : Int)) ∨ ¬ (0 ≤ col ∧ col ≤ 7)
  | .clearAll | .placeGlyph _ _ => s.configured = false
  | .nop => False
  | .wNoop | .wRow0 _ | .wRow1 _ | .wRow2 _ | .wRow3 _ | .wRow4 _ | .wRow5 _ | .wRow6 _ | .wRow7 _
  | .wDecode | .wIntensity _ | .wScanLimit _ | .wShutdown _ | .wDisplayTest => False

/-! ### Invariants between commands -/

/-- A frame the block may send (rules R81, R84): one slot whose opcode and value rule R82 allows, in a chain of length n. -/
def LegalFrame (cfg : Config) (n : BitVec 4) (frame : List Byte) : Prop :=
  ∃ k : Fin 8, k.val < n.toNat ∧
    ((∃ r v, frame = frameOf cfg n k (cfg.opcRow r) v) ∨ frame = frameOf cfg n k cfg.opcDecode cfg.valDecodeOff ∨
      (∃ v : Byte, v.toNat ≤ 15 ∧ frame = frameOf cfg n k cfg.opcIntensity v) ∨
      (∃ v : Byte, v.toNat ≤ 7 ∧ frame = frameOf cfg n k cfg.opcScanLimit v) ∨
      frame = frameOf cfg n k cfg.opcShutdown cfg.valPowerDown ∨ frame = frameOf cfg n k cfg.opcShutdown cfg.valPowerUp ∨
      frame = frameOf cfg n k cfg.opcDisplayTest cfg.valTestOff)

/-- Between commands: no command in progress, no chip with a slot still to take. -/
def State.AtRest (s : State) : Prop := s.seq = none ∧ s.rxPending = false

/-- The pins of an unconfigured block are released and nothing has been sent (rules R29, R38, R282). -/
def State.Released (s : State) : Prop :=
  s.pinsDriven = false ∧ s.dataPin = none ∧ s.clkPin = none ∧ s.latchPin = none ∧ s.frameLog = [] ∧ s.pinLog = []

/-- Every row register of the chips in the chain equals the framebuffer's (rules R22, R227). -/
def State.Agrees (s : State) : Prop := ∀ m r : Fin 8, m.val < s.n.toNat → s.chips[m].row[r] = s.fbRow m r

/-- The rows of the modules past the end of the chain are zero (rule R20). -/
def State.SpareRowsZero (s : State) : Prop := ∀ m r : Fin 8, s.n.toNat ≤ m.val → s.fbRow m r = 0

/-- Decode and display test are off in every chip of the chain (rules R187, R188). -/
def State.RawBitmap (cfg : Config) (s : State) : Prop :=
  ∀ k : Fin 8, k.val < s.n.toNat → s.chips[k].decode = cfg.valDecodeOff ∧
    s.chips[k].displayTest = cfg.valTestOff.setWidth 1

/-- What is true of a configured block between commands. -/
structure State.Configured (cfg : Config) (s : State) : Prop where
  /-- The chain length is legal: 1..8 (rule R23). -/
  length_legal : 1 ≤ s.n.toNat ∧ s.n.toNat ≤ 8
  /-- The pins are idle (rules R29, R164). -/
  busIdle : s.BusIdle
  /-- DATA is driven (rule R29). -/
  dataDriven : s.dataPin.isSome = true
  /-- Framebuffer and chain agree (rule R227). -/
  agrees : s.Agrees
  /-- The rows past the end are zero (rule R20). -/
  spareZero : s.SpareRowsZero
  /-- Decode and display test are off (rules R187, R188). -/
  rawBitmap : s.RawBitmap cfg
  /-- Every frame sent is one the block may send (rule R84). -/
  framesLegal : ∀ f ∈ s.frameLog, LegalFrame cfg s.n f
  /-- The scratch buffer holds the last frame sent (rule R28). -/
  bufferIsLast : s.frameLog.head? = some s.frame

/-- The invariant of the machine between steps: at rest, and either not configured with the pins released, or configured
with everything `Configured` says. -/
def State.Inv (s : State) : Prop :=
  s.AtRest ∧ (s.configured = false → s.Released) ∧ (s.configured = true → s.Configured params)

/-- The value byte of the last slot for row r sent to chip m, in the frames `log`, newest first (rule R22). -/
def lastRowSent (n : BitVec 4) (m r : Fin 8) : (log : List (List Byte)) → Option Byte
  | [] => none
  | f :: log =>
    if f[2 * (n.toNat - 1 - m.val) + 1]? = some (params.opcRow r) then f[2 * (n.toNat - 1 - m.val)]?
    else lastRowSent n m r log

/-- For every module of the chain and every row, the framebuffer holds the value last sent (rule R22). -/
def State.HoldsLastSent (s : State) : Prop :=
  s.configured = true → ∀ m r : Fin 8, m.val < s.n.toNat → lastRowSent s.n m r s.frameLog = some (s.fbRow m r)

end Sys2Proof.Machine
end

