-- ==== Sys2Proof/Certificates/Slice0/Obligations.lean ====
section
/-! DEFINITION. The statements about this machine that are to be proved.

`params` is the parameter table of rule R6 with its OPEN entries left open.  `Ready s` is a configured block with its bus at
rest and a chain length of at most 8 (rule R23: the register N has 4 bits and legal values 1..8), which holds between
commands (`ConfiguredStateStaysSound` keeps it).  Indices of type `Fin 8` are the valid row,
column and module indices; where an operand is an integer, every integer is covered. -/

open Sys2Proof Sys2Proof.Machine

/-! ### Reset and the step -/

/-- After power-on reset the block is not configured and not busy, its three pins are not driven, and both traces are
empty: every entry of the reset table that has a value. The power-on reset is the spec's own (decision D4). -/
def Obligations.ResetReleasesPinsAndIsUnconfigured : Prop :=
  State.reset.configured = false ∧ State.reset.busy = false ∧ State.reset.pinsDriven = false ∧
    State.reset.dataPin = none ∧ State.reset.clkPin = none ∧ State.reset.latchPin = none ∧
    State.reset.frameTrace = [] ∧ State.reset.pinTrace = []

/-- A command word presented to a block that is ready, with no chip still to commit, is taken: the step is the meaning
of the command the word decodes to, on the state with the word gone from the host's list (rules R31, R33, R97). That a
whole command is one step is what rule R34 allows (log entry 1). -/
def Obligations.StepRunsThePresentedCommand : Prop :=
  ∀ (s : State) (w : CommandWord) (rest : List HostItem) (i : Instr),
    s.rxPending = false → s.busy = false → s.host = .command w :: rest → decodeCommand w = .ok i →
      step s = exec i { s with host := rest }

/-- While chips have still to commit, the step is the meaning of the wire slot in the shift register of the chip whose
turn it is, and then it is the next chip's turn. Rule R224 says what the chip does; that the chips take their turns one
step each is the model's choice (log entry 12). -/
def Obligations.StepRunsTheSlotOfTheChip : Prop :=
  ∀ (s : State) (i : Instr), s.rxPending = true → decodeSlot s.sr[s.rx] = .ok i →
    ∃ t, exec i s = .next t ∧ step s = .next t.nextChip

/-- NOP leaves every state as it is, configured or not; a presented word whose command code is none of the thirteen
listed ones is taken and completes with no other change. Both are the spec's own decision D17 (rules R94, R189). -/
def Obligations.NopAndReservedCodesDoNothing : Prop :=
  (∀ s : State, exec .nop s = .next s) ∧
    ∀ (s : State) (w : CommandWord) (rest : List HostItem),
      s.rxPending = false → s.busy = false → s.host = .command w :: rest →
        (fieldOp w).toNat ∉ [0x00, 0x01, 0x10, 0x11, 0x12, 0x13, 0x20, 0x21, 0x22, 0x23, 0x24, 0x25, 0x30] →
          step s = .next { s with host := rest }

/-- While a command is in progress, whatever is presented short of `rst`, a step is one move of the sequencer: the first
move left is made, the rest stays. The host's list is unchanged and the sequencer still holds the accepted word and its
moves less the one made, so a presented word is not taken and not queued elsewhere (rules R31, R34, R97; the handshake
is the spec's decision D1, the list of moves log entry 20). -/
def Obligations.BusyBlockTakesNoCommand : Prop :=
  ∀ s : State, s.rxPending = false → s.busy = true → (∀ rest, s.host ≠ .powerOnReset :: rest) →
    step s = .next (s.tick params) ∧ (s.tick params).host = s.host ∧
      (∀ q : Sequencer, (s.tick params).seq = some q →
        ∃ a : Act, s.seq = some { word := q.word, rest := a :: q.rest }) ∧
      ∀ (w : CommandWord) (a : Act) (acts : List Act), s.seq = some { word := w, rest := a :: acts } →
        s.tick params = { s.perform params a with seq := sequencerOf w acts }

/-- When `rst` is asserted, busy or not, the step leaves the block unconfigured, not busy, its pins released and both
traces empty; the rest of the host's list and the strap stay. Rules R280 and R281; that the registers the spec calls
unspecified are then free values is the model's choice (log entry 10). -/
def Obligations.PowerOnResetReleasesTheBlock : Prop :=
  ∀ (s : State) (rest : List HostItem), s.rxPending = false → s.host = .powerOnReset :: rest →
    ∃ t, step s = .next t ∧ t.configured = false ∧ t.busy = false ∧ t.Released ∧ t.host = rest ∧
      t.orientStrap = s.orientStrap

/-- With nothing presented a step of an idle block changes nothing (it waits for a command, rule R280), and a pause of
the host changes nothing but the host's list (rules R9, R207). -/
def Obligations.PauseAndWaitingChangeNothing : Prop :=
  ∀ s : State, s.rxPending = false → s.busy = false →
    (s.host = [] → step s = .next s) ∧
      ∀ (ms : Nat) (rest : List HostItem), s.host = .pause ms :: rest → step s = .next { s with host := rest }

/-! ### The framebuffer commands -/

/-- Rule R141, both commands, for every integer operand: where the block is not configured or the module, row or column
is out of range, nothing changes at all; otherwise, on a ready block, the next state is exactly the state with the bit
cleared or set and the whole row sent in one transaction. Words of format FMRC with codes 0x20 and 0x21 decode to the
two commands. -/
def Obligations.SetLedChangesOneBitAndPushesTheRow : Prop :=
  ∀ s : State,
    (∀ mdl row col : Int, s.configured = false ∨ ¬ (0 ≤ mdl ∧ mdl < (s.n.toNat : Int)) ∨ ¬ (0 ≤ row ∧ row ≤ 7) ∨
        ¬ (0 ≤ col ∧ col ≤ 7) →
      exec (.setLedOff mdl row col) s = .next s ∧ exec (.setLedOn mdl row col) s = .next s) ∧
    (∀ m r c : Fin 8, s.Ready → m.val < s.n.toNat →
      exec (.setLedOff m.val r.val c.val) s = .next (s.setLed params m r c false) ∧
        exec (.setLedOn m.val r.val c.val) s = .next (s.setLed params m r c true)) ∧
    ∀ w : CommandWord,
      (fieldOp w = 0x20 → decodeCommand w = .ok (.setLedOff (fieldA w).toInt (fieldB w).toInt (fieldC w).toInt)) ∧
      (fieldOp w = 0x21 → decodeCommand w = .ok (.setLedOn (fieldA w).toInt (fieldB w).toInt (fieldC w).toInt))

/-- Rule R142, for every integer module and row and every value: where a check fails nothing changes; otherwise, on a
ready block, the next state is exactly the state with the row replaced and its value sent in one transaction. Words of
format FMRV with code 0x22 decode to it. -/
def Obligations.SetRowReplacesARowAndPushesIt : Prop :=
  ∀ (s : State) (v : Byte),
    (∀ mdl row : Int, s.configured = false ∨ ¬ (0 ≤ mdl ∧ mdl < (s.n.toNat : Int)) ∨ ¬ (0 ≤ row ∧ row ≤ 7) →
      exec (.setRow mdl row v) s = .next s) ∧
    (∀ m r : Fin 8, s.Ready → m.val < s.n.toNat →
      exec (.setRow m.val r.val v) s = .next (s.setRow params m r v)) ∧
    ∀ w : CommandWord, fieldOp w = 0x22 → decodeCommand w = .ok (.setRow (fieldA w).toInt (fieldB w).toInt (fieldC w))

/-- Rule R143, for every integer operand: where a check fails nothing changes; otherwise, on a ready block, the next
state is exactly that of eight SETLEDs of the column, rows 0 to 7 in order, bit r of `bits` to row r. The order of the
rows and the bit-to-row mapping are the spec's own decision D8. -/
def Obligations.SetColumnIsEightSetLeds : Prop :=
  ∀ (s : State) (bits : Byte),
    (∀ mdl col : Int, s.configured = false ∨ ¬ (0 ≤ mdl ∧ mdl < (s.n.toNat : Int)) ∨ ¬ (0 ≤ col ∧ col ≤ 7) →
      exec (.setColumn mdl col bits) s = .next s) ∧
    ∀ m c : Fin 8, s.Ready → m.val < s.n.toNat →
      exec (.setColumn m.val c.val bits) s =
        .next (upTo7.foldl (fun t r => t.setLed params m r c (bits.getLsbD r.val)) s)

/-- Rules R144 and R145, for every integer operand: nothing changes before CONFIGURE or for a bad module; otherwise, on
a ready block, the next state is exactly that of writing and pushing zero in rows 0 to 7 of the module, and for CLEARALL
of doing so for the modules of the chain in ascending order. The orders are the spec's own decision D9. -/
def Obligations.ClearZeroesAndPushesEveryRow : Prop :=
  ∀ s : State,
    (s.configured = false → exec .clearAll s = .next s) ∧
    (s.Ready → exec .clearAll s = .next ((modulesBelow s.n).foldl (fun t m => t.clear params m) s)) ∧
    (∀ mdl : Int, s.configured = false ∨ ¬ (0 ≤ mdl ∧ mdl < (s.n.toNat : Int)) → exec (.clear mdl) s = .next s) ∧
    ∀ m : Fin 8, s.Ready → m.val < s.n.toNat →
      exec (.clear m.val) s = .next (upTo7.foldl (fun t r => t.setRow params m r 0) s)

/-- The laws the spec derives in rule R148, clauses (a) to (d) and (f), for every valid address of a ready block: SETLED
changes its one bit, SETROW its row, SETCOLUMN its column, CLEAR its module, every other bit of the framebuffer is
unchanged, and the frame trace grows by exactly the frames of the rows pushed. -/
def Obligations.FramebufferCommandsChangeOnlyTheirCells : Prop :=
  ∀ (s : State) (m : Fin 8), s.Ready → m.val < s.n.toNat →
    (∀ (r c : Fin 8) (on : Bool),
      ∃ t, exec (if on then .setLedOn m.val r.val c.val else .setLedOff m.val r.val c.val) s = .next t ∧
        (∀ m' r' c' : Fin 8, bitAt (t.fbRow m' r') c' =
          if m' = m ∧ r' = r ∧ c' = c then on else bitAt (s.fbRow m' r') c') ∧
        t.frameTrace = s.frameTrace ++ [frameOf params s.n m (params.opcRow r) (t.fbRow m r)]) ∧
    (∀ (r : Fin 8) (v : Byte), ∃ t, exec (.setRow m.val r.val v) s = .next t ∧
        (∀ m' r' : Fin 8, t.fbRow m' r' = if m' = m ∧ r' = r then v else s.fbRow m' r') ∧
        t.frameTrace = s.frameTrace ++ [frameOf params s.n m (params.opcRow r) v]) ∧
    (∀ (c : Fin 8) (bits : Byte), ∃ t, exec (.setColumn m.val c.val bits) s = .next t ∧
        (∀ m' r' c' : Fin 8, bitAt (t.fbRow m' r') c' =
          if m' = m ∧ c' = c then bitAt bits r' else bitAt (s.fbRow m' r') c') ∧
        t.frameTrace = s.frameTrace ++ upTo7.map fun r => frameOf params s.n m (params.opcRow r) (t.fbRow m r)) ∧
    ∃ t, exec (.clear m.val) s = .next t ∧
        (∀ m' r' : Fin 8, t.fbRow m' r' = if m' = m then 0 else s.fbRow m' r') ∧
        t.frameTrace = s.frameTrace ++ upTo7.map fun r => frameOf params s.n m (params.opcRow r) 0

/-- SETLED_OFF, SETLED_ON, SETROW, SETCOLUMN and CLEAR with a valid address on a ready block: no control register, port
or host item changes, the bus returns to rest, the chips of other modules keep every register, and the addressed chip
keeps every register but its rows, each of which is unchanged or holds the framebuffer's row. -/
def Obligations.FramebufferCommandsLeaveControlStateAlone : Prop :=
  ∀ (s : State) (m r c : Fin 8) (v : Byte), s.Ready → m.val < s.n.toNat →
    ∀ i : Instr, i = .setLedOff m.val r.val c.val ∨ i = .setLedOn m.val r.val c.val ∨ i = .setRow m.val r.val v ∨
        i = .setColumn m.val c.val v ∨ i = .clear m.val →
      ∃ t, exec i s = .next t ∧ s.SameControl t ∧ t.BusIdle ∧ (∀ k : Fin 8, k ≠ m → t.chips[k] = s.chips[k]) ∧
        t.chips[m] = { s.chips[m] with row := t.chips[m].row } ∧
        (∀ r' : Fin 8, t.chips[m].row[r'] = s.chips[m].row[r'] ∨ t.chips[m].row[r'] = t.fbRow m r')

/-! ### Device control -/

/-- Rules R183 and R184, for every integer module: nothing changes before CONFIGURE or for a bad module; otherwise, on a
ready block, the next state is exactly that of one transaction to the module with `OPC_SHUTDOWN` and `VAL_POWER_DOWN` or
`VAL_POWER_UP`. The numbers behind the three names are general knowledge (log entry 7); the statement does not use them.
Words of format FM with codes 0x10 and 0x11 decode to the two commands. -/
def Obligations.PowerCommandsSendOneShutdownWrite : Prop :=
  ∀ s : State,
    (∀ mdl : Int, s.configured = false ∨ ¬ (0 ≤ mdl ∧ mdl < (s.n.toNat : Int)) →
      exec (.powerDown mdl) s = .next s ∧ exec (.powerUp mdl) s = .next s) ∧
    (∀ m : Fin 8, s.Ready → m.val < s.n.toNat →
      exec (.powerDown m.val) s = .next (s.transact params m params.opcShutdown params.valPowerDown) ∧
        exec (.powerUp m.val) s = .next (s.transact params m params.opcShutdown params.valPowerUp)) ∧
    ∀ w : CommandWord, (fieldOp w = 0x10 → decodeCommand w = .ok (.powerDown (fieldA w).toInt)) ∧
      (fieldOp w = 0x11 → decodeCommand w = .ok (.powerUp (fieldA w).toInt))

/-- Rule R185, for every integer operand: nothing changes before CONFIGURE, for a bad module or for a limit outside
0..7; otherwise, on a ready block, the next state is exactly that of one transaction to the module with `OPC_SCANLIMIT`
and the limit. Words of format FMV with code 0x12 decode to it. -/
def Obligations.ScanLimitSendsALimitUpToSeven : Prop :=
  ∀ s : State,
    (∀ mdl limit : Int, s.configured = false ∨ ¬ (0 ≤ mdl ∧ mdl < (s.n.toNat : Int)) ∨ ¬ (0 ≤ limit ∧ limit ≤ 7) →
      exec (.scanLimit mdl limit) s = .next s) ∧
    (∀ (m : Fin 8) (limit : Nat), s.Ready → m.val < s.n.toNat → limit ≤ 7 →
      exec (.scanLimit m.val limit) s = .next (s.transact params m params.opcScanLimit (BitVec.ofNat 8 limit))) ∧
    ∀ w : CommandWord, fieldOp w = 0x12 → decodeCommand w = .ok (.scanLimit (fieldA w).toInt (fieldC w).toInt)

/-- Rule R186, for every integer operand: nothing changes before CONFIGURE, for a bad module or for a level outside
0..15; otherwise, on a ready block, the next state is exactly that of one transaction to the module with `OPC_INTENSITY`
and the level. Words of format FMV with code 0x13 decode to it. -/
def Obligations.IntensitySendsALevelUpToFifteen : Prop :=
  ∀ s : State,
    (∀ mdl level : Int, s.configured = false ∨ ¬ (0 ≤ mdl ∧ mdl < (s.n.toNat : Int)) ∨ ¬ (0 ≤ level ∧ level ≤ 15) →
      exec (.intensity mdl level) s = .next s) ∧
    (∀ (m : Fin 8) (level : Nat), s.Ready → m.val < s.n.toNat → level ≤ 15 →
      exec (.intensity m.val level) s = .next (s.transact params m params.opcIntensity (BitVec.ofNat 8 level))) ∧
    ∀ w : CommandWord, fieldOp w = 0x13 → decodeCommand w = .ok (.intensity (fieldA w).toInt (fieldC w).toInt)

/-- POWER_DOWN, POWER_UP, SCANLIMIT and INTENSITY with valid operands on a ready block: exactly one register of exactly
the addressed chip takes the value sent (0, 1, the limit, the level); every other register of that chip, every other
chip, the framebuffer and every control register are unchanged and the bus is at rest. The scratch buffer, DATA, the
shift registers and both traces change, as one transaction changes them (their exact next states are statements of their
own). The values 0 and 1 of the shutdown register are general knowledge (log entry 7). -/
def Obligations.SettersReachOneRegisterOfOneChip : Prop :=
  ∀ (s : State) (m : Fin 8) (limit : BitVec 3) (level : BitVec 4), s.Ready → m.val < s.n.toNat →
    ∀ (i : Instr) (chip : ChipRegs),
      (i = .powerDown m.val ∧ chip = { s.chips[m] with shutdown := 0 }) ∨
        (i = .powerUp m.val ∧ chip = { s.chips[m] with shutdown := 1 }) ∨
        (i = .scanLimit m.val limit.toNat ∧ chip = { s.chips[m] with scanLimit := limit }) ∨
        (i = .intensity m.val level.toNat ∧ chip = { s.chips[m] with intensity := level }) →
      ∃ t, exec i s = .next t ∧ t.chips = s.chips.set m chip ∧ t.fb = s.fb ∧ s.SameControl t ∧ t.BusIdle

/-- Rules R180 and R181: a CONFIGURE of a configured block changes nothing; the first one, with the latch pin still
released as the invariant says, takes the count where it is 1..8 and 8 otherwise, loads the mode of the strap, and its
next state is exactly that of the start-up sequence of rule R181, modules ascending. That a second CONFIGURE is a no-op
and the order of the modules are the spec's own decisions D5 and D10. -/
def Obligations.ConfigureClampsTheCountAndRunsTheSequence : Prop :=
  ∀ (s : State) (count : Int),
    (s.configured = true → exec (.configure count) s = .next s) ∧
    ∀ (n : BitVec 4) (o : Orientation), (1 ≤ count ∧ count ≤ 8 → (n.toNat : Int) = count) →
      (¬ (1 ≤ count ∧ count ≤ 8) → n = 8) → s.configured = false → s.latchPin = none →
      orientOfStrap s.orientStrap = some o →
        exec (.configure count) s = .next (s.configure params n o)

/-- The strap decoder gives the three modes for 0, 1 and 2 and none for 3, and a CONFIGURE of an unconfigured block
whose strap is 3 is refused by name (rules R25, R135; log entry 4). -/
def Obligations.ReservedStrapIsRefused : Prop :=
  orientOfStrap 0 = some .clockwiseMount ∧ orientOfStrap 1 = some .counterClockwiseMount ∧
    orientOfStrap 2 = some .mirroredMount ∧ orientOfStrap 3 = none ∧
    ∀ (s : State) (count : Int), s.configured = false → s.orientStrap = 3 →
      exec (.configure count) s = .refused .reservedOrientStrap

/-- From an unconfigured block with released pins and a legal strap, CONFIGURE completes for every count; then the block
is configured with the clamped length and the strap's mode, the sequencer is where it was, the bus is at rest with DATA
low, all 64 rows are zero, every chip of the chain has zero rows, decode off, scan limit 7, display test off, the
default intensity and power up, its shift register holds its slot of the last frame, the scratch buffer holds that
frame, and the traces hold 22N frames and 3 + 22N(48N + 2) pin events. -/
def Obligations.ConfigureLeavesTheStartUpState : Prop :=
  ∀ (s : State) (count : Int) (o : Orientation), s.configured = false → s.Released →
    orientOfStrap s.orientStrap = some o →
      ∃ t, exec (.configure count) s = .next t ∧ t.configured = true ∧ t.n = clampCount count ∧ t.orientQ = o ∧
        t.seq = s.seq ∧ t.BusIdle ∧ t.dataPin = some false ∧
        (∀ m r : Fin 8, t.fbRow m r = 0) ∧
        (∀ k : Fin 8, k.val < t.n.toNat →
          (∀ r : Fin 8, t.chips[k].row[r] = 0) ∧ t.chips[k].decode = params.valDecodeOff ∧
            t.chips[k].scanLimit = 7 ∧ t.chips[k].displayTest = params.valTestOff.setWidth 1 ∧
            t.chips[k].intensity = params.defaultIntensity ∧
            t.chips[k].shutdown = params.valPowerUp.setWidth 1 ∧
            t.sr[k] = if k.val + 1 = t.n.toNat then slotWord 0 (params.opcRow 7) else 0) ∧
        t.frame = frameOf params t.n (Fin.ofNat 8 (t.n.toNat - 1)) (params.opcRow 7) 0 ∧
        t.frameTrace.length = 22 * t.n.toNat ∧ t.pinTrace.length = 3 + 22 * t.n.toNat * (48 * t.n.toNat + 2)

/-- Every command, with whatever operands, completes on a ready block; afterwards the control registers, the ports, the
host's list and the model's own counters are those of before and the bus is at rest (rules R7, R23, R24, R25). -/
def Obligations.NoCommandChangesTheControlRegisters : Prop :=
  ∀ (s : State) (i : Instr), s.Ready → i.isCommand = true →
    ∃ t, exec i s = .next t ∧ s.SameControl t ∧ t.BusIdle

/-! ### Dropped commands, completion -/

/-- A command for which one of the conditions X1 to X5, X11 or X12 of rule R251 holds leaves the whole state, traces
included, as it was. Conditions X11 and X12 are the spec's own (decisions D4, D5). -/
def Obligations.DroppedCommandsLeaveNoTrace : Prop :=
  ∀ (s : State) (i : Instr), s.Drops i → exec i s = .next s

/-- Every command and every wire slot, with whatever operands and in every state, answers a next state, except a
CONFIGURE of an unconfigured block with the reserved strap 3, which is refused by name; nothing faults (rules R135,
R250). -/
def Obligations.EveryCommandCompletes : Prop :=
  ∀ (s : State) (i : Instr),
    (∃ t, exec i s = .next t) ∨
      (∃ count, i = .configure count ∧ s.configured = false ∧ s.orientStrap = 3 ∧
        exec i s = .refused .reservedOrientStrap)

/-! ### The placement datapath -/

/-- Rule R200: nothing before CONFIGURE; on a ready block, for every character and every integer position, the next
state is exactly that of SETCOLUMN of byte j of the transformed pattern at the physical column of `pos + j`, for the
columns on the chain, j ascending. That columns are written by SETCOLUMN is the spec's own decision D13. -/
def Obligations.PlaceGlyphSetsTheColumnsOnTheChain : Prop :=
  ∀ (s : State) (ch : Byte) (pos : Int),
    (s.configured = false → exec (.placeGlyph ch pos) s = .next s) ∧
    (s.Ready → exec (.placeGlyph ch pos) s = .next (upTo7.foldl (fun t j =>
      match colMap params s.orientQ s.n (pos + (j.val : Int)) with
      | some (m, c) => t.setColumn params m c ((transform (lookup params ch) s.orientQ)[j])
      | none => t) s))

/-- The effect the spec derives in rule R201, for every character and every integer position on a ready block: a column
of the glyph that is on the chain holds its byte, every bit of every other column is unchanged, eight frames are added
for each column on the chain, the control registers are unchanged and the bus is at rest. -/
def Obligations.PlaceGlyphEffectInOneFormula : Prop :=
  ∀ (s : State) (ch : Byte) (pos : Int), s.Ready →
    ∃ t, exec (.placeGlyph ch pos) s = .next t ∧
      (∀ (j m c : Fin 8), colMap params s.orientQ s.n (pos + (j.val : Int)) = some (m, c) →
        ∀ r : Fin 8, bitAt (t.fbRow m r) c = bitAt (transform (lookup params ch) s.orientQ)[j] r) ∧
      (∀ m c : Fin 8, (∀ j : Fin 8, colMap params s.orientQ s.n (pos + (j.val : Int)) ≠ some (m, c)) →
        ∀ r : Fin 8, bitAt (t.fbRow m r) c = bitAt (s.fbRow m r) c) ∧
      t.frameTrace.length = s.frameTrace.length +
        8 * (upTo7.filter fun j => decide (0 ≤ pos + (j.val : Int) ∧ pos + (j.val : Int) < 8 * (s.n.toNat : Int))).length ∧
      s.SameControl t ∧ t.BusIdle

/-- Rule R52, for every mode, chain length and integer L: no physical column outside 0 <= L < 8N; inside, for a chain
length of at most 8, module L div 8 and column L mod 8, or 7 - L mod 8 where the mode fills downward; no two logical
columns have the same physical one. Which mode fills which way is the OPEN parameter `FILL_DIR` (log entry 6) and stays
open here. -/
def Obligations.LogicalColumnsMapOneToOne : Prop :=
  ∀ (o : Orientation) (n : BitVec 4) (l : Int),
    (¬ (0 ≤ l ∧ l < 8 * (n.toNat : Int)) → colMap params o n l = none) ∧
    (n.toNat ≤ 8 → 0 ≤ l ∧ l < 8 * (n.toNat : Int) →
      ∃ m c : Fin 8, colMap params o n l = some (m, c) ∧ (m.val : Int) = l / 8 ∧
      (c.val : Int) = match params.fillDir o with
        | .up => l % 8
        | .down => 7 - l % 8) ∧
    ∀ (l' : Int) (x : Fin 8 × Fin 8), colMap params o n l = some x → colMap params o n l' = some x → l = l'

/-- Rules R120 and R124, for every character code and row: codes 65..90, 97..122 and 48..57 read their own table at
`(code - start) * 8 + row`, 32 gives zero, and every other code gives the one fallback pattern. That the codes are ASCII
is the default of rule R121, general knowledge (log entry 7); the contents of the tables stay open (log entry 6). -/
def Obligations.LookupReadsItsTableOrTheFallback : Prop :=
  ∀ (ch : Byte) (r : Fin 8),
    (∀ d : Fin 26, ch.toNat = 65 + d.val →
      (lookup params ch)[r] = params.glyphUpper ⟨d.val * 8 + r.val, by omega⟩) ∧
    (∀ d : Fin 26, ch.toNat = 97 + d.val →
      (lookup params ch)[r] = params.glyphLower ⟨d.val * 8 + r.val, by omega⟩) ∧
    (∀ d : Fin 10, ch.toNat = 48 + d.val →
      (lookup params ch)[r] = params.glyphDigit ⟨d.val * 8 + r.val, by omega⟩) ∧
    (ch.toNat = 32 → (lookup params ch)[r] = 0) ∧
    (¬ (65 ≤ ch.toNat ∧ ch.toNat ≤ 90) → ¬ (97 ≤ ch.toNat ∧ ch.toNat ≤ 122) → ¬ (48 ≤ ch.toNat ∧ ch.toNat ≤ 57) →
      ch.toNat ≠ 32 → (lookup params ch)[r] = params.glyphFallback r)

/-- Rule R130, for every pattern and every row and column: ClockwiseMount takes pixel (7 - c, r), CounterClockwiseMount
(c, 7 - r), MirroredMount (7 - r, c). -/
def Obligations.TransformPermutesThePixels : Prop :=
  ∀ (g : Glyph) (r c : Fin 8),
    pixel (transform g .clockwiseMount) r c = pixel g c.rev r ∧
      pixel (transform g .counterClockwiseMount) r c = pixel g c r.rev ∧
      pixel (transform g .mirroredMount) r c = pixel g r.rev c

/-- The laws of rule R133 (clauses (d) to (g) are derived there): each mode is a bijection of the patterns; four
clockwise or four counter-clockwise turns and two mirrorings return the pattern; the two turns undo each other in both
orders; two clockwise turns are the half turn; the number of set pixels is kept. -/
def Obligations.TransformLaws : Prop :=
  (∀ o : Orientation, Function.Bijective fun g : Glyph => transform g o) ∧
  ∀ g : Glyph,
    (transform (transform (transform (transform g .clockwiseMount) .clockwiseMount) .clockwiseMount) .clockwiseMount = g ∧
      transform (transform (transform (transform g .counterClockwiseMount) .counterClockwiseMount)
        .counterClockwiseMount) .counterClockwiseMount = g ∧
      transform (transform g .mirroredMount) .mirroredMount = g ∧
      transform (transform g .clockwiseMount) .counterClockwiseMount = g ∧
      transform (transform g .counterClockwiseMount) .clockwiseMount = g) ∧
    (∀ r c : Fin 8, pixel (transform (transform g .clockwiseMount) .clockwiseMount) r c = pixel g r.rev c.rev) ∧
    ∀ o : Orientation, (Finset.univ.filter fun p : Fin 8 × Fin 8 => pixel (transform g o) p.1 p.2 = true).card =
      (Finset.univ.filter fun p : Fin 8 × Fin 8 => pixel g p.1 p.2 = true).card

/-! ### The wire -/

/-- Rule R81, for every chip of every chain, every wire opcode and every value: the frame has 2N bytes, the value stands
at position 2(N-1-k), the wire opcode after it, every other byte is zero. The order of the pair is the spec's decision
D27. -/
def Obligations.FrameCarriesOnePairAndZeros : Prop :=
  ∀ (n : BitVec 4) (k : Fin 8) (opc val : Byte), k.val < n.toNat →
    (frameOf params n k opc val).length = 2 * n.toNat ∧
    ∀ p : Nat, p < 2 * n.toNat → (frameOf params n k opc val)[p]? =
      some (if p = 2 * (n.toNat - 1 - k.val) then val else if p = 2 * (n.toNat - 1 - k.val) + 1 then opc else 0)

/-- For every frame: its pin events begin with the latch falling and end with it rising, there are 24 per byte between,
and bit time t is DATA at bit 7 - t mod 8 of byte t div 8, CLK up, CLK down (rules R55, R56, R86). The bit cell is the
spec's own decision D3. -/
def Obligations.FramePinsAreBitCellsBetweenLatchEdges : Prop :=
  ∀ frame : List Byte,
    (frameEvents frame).length = 24 * frame.length + 2 ∧ (frameEvents frame)[0]? = some ⟨.latchN, false⟩ ∧
    (frameEvents frame)[24 * frame.length + 1]? = some ⟨.latchN, true⟩ ∧
    ∀ (t : Nat) (b : Byte), frame[t / 8]? = some b →
      (frameEvents frame)[1 + 3 * t]? = some ⟨.data, b.getLsbD (7 - t % 8)⟩ ∧
        (frameEvents frame)[2 + 3 * t]? = some ⟨.clk, true⟩ ∧ (frameEvents frame)[3 + 3 * t]? = some ⟨.clk, false⟩

/-- For every valid module and row and every value on a ready block, SETROW adds exactly the frame of the new row to the
frame trace and that frame's events to the pin trace, leaves that frame in the scratch buffer, and the bus at rest with
DATA at the last bit shifted: bit 0 of the wire opcode where the module is chip 0, and low otherwise. -/
def Obligations.SetRowPutsItsFrameOnTheWire : Prop :=
  ∀ (s : State) (m r : Fin 8) (v : Byte), s.Ready → m.val < s.n.toNat →
    ∃ t, exec (.setRow m.val r.val v) s = .next t ∧
      t.frameTrace = s.frameTrace ++ [frameOf params s.n m (params.opcRow r) v] ∧
      t.pinTrace = s.pinTrace ++ frameEvents (frameOf params s.n m (params.opcRow r) v) ∧
      t.frame = frameOf params s.n m (params.opcRow r) v ∧ t.BusIdle ∧
      t.dataPin = some (m.val = 0 ∧ (params.opcRow r).getLsbD 0 = true : Bool)

/-- In every state and for every move of the sequencer, the chips' register files are unchanged unless the move raises
LATCH_N from low, and the shift registers are unchanged unless the move raises CLK from low (rules R11, R62, R221). The
sampling edge is general knowledge in the spec (decision D3). -/
def Obligations.ChipsChangeOnlyAtRisingEdges : Prop :=
  ∀ (s : State) (a : Act),
    ((s.perform params a).chips = s.chips ∨ (a = .pin .latchN true ∧ s.latchPin = some false)) ∧
      ((s.perform params a).sr = s.sr ∨ (a = .pin .clk true ∧ s.clkPin = some false))

/-- On a ready block, after a transaction with any wire opcode and any value to any chip of the chain, the shift
register of that chip holds the value and the wire opcode, those of the other chips of the chain hold sixteen zero bits,
whatever they held before, and those beyond the chain are unchanged (rule R221 and the place derived in rule R222). The
same is said of INTENSITY as an instruction, with any level 0..15. -/
def Obligations.FrameLandsInTheRightChip : Prop :=
  ∀ (s : State) (k j : Fin 8), s.Ready → k.val < s.n.toNat →
    (∀ opc val : Byte, (s.run params (busWrite s.n k opc val)).sr[j] = if j.val < s.n.toNat then
      (if j = k then slotWord val opc else 0) else s.sr[j]) ∧
    ∀ level : BitVec 4, ∃ t, exec (.intensity k.val level.toNat) s = .next t ∧
      t.sr[j] = if j.val < s.n.toNat then
        (if j = k then slotWord (level.setWidth 8) params.opcIntensity else 0) else s.sr[j]

/-- For every state and value, each wire slot completes and changes exactly the register rule R224 gives it, of the chip
whose turn it is, or nothing (W.NOOP, rule R225); W.DECODE writes `VAL_DECODE_OFF` and W.DISPLAYTEST `VAL_TEST_OFF`.
Rule R224 commits all chips at one instant; that a slot as an instruction acts on one chip, the one whose turn it is, is
the model's choice (log entry 12). Which opcode number stands for which register is general knowledge (log entry 7). -/
def Obligations.WireSlotsWriteOneChipRegister : Prop :=
  ∀ (s : State) (v : Byte) (v4 : BitVec 4) (v3 : BitVec 3) (v1 : BitVec 1),
    let put := fun chip : ChipRegs => ({ s with chips := s.chips.set s.rx chip } : State)
    let old := s.chips[s.rx]
    exec .wNoop s = .next s ∧
    exec (.wRow0 v) s = .next (put { old with row := old.row.set 0 v }) ∧
    exec (.wRow1 v) s = .next (put { old with row := old.row.set 1 v }) ∧
    exec (.wRow2 v) s = .next (put { old with row := old.row.set 2 v }) ∧
    exec (.wRow3 v) s = .next (put { old with row := old.row.set 3 v }) ∧
    exec (.wRow4 v) s = .next (put { old with row := old.row.set 4 v }) ∧
    exec (.wRow5 v) s = .next (put { old with row := old.row.set 5 v }) ∧
    exec (.wRow6 v) s = .next (put { old with row := old.row.set 6 v }) ∧
    exec (.wRow7 v) s = .next (put { old with row := old.row.set 7 v }) ∧
    exec .wDecode s = .next (put { old with decode := params.valDecodeOff }) ∧
    exec (.wIntensity v4) s = .next (put { old with intensity := v4 }) ∧
    exec (.wScanLimit v3) s = .next (put { old with scanLimit := v3 }) ∧
    exec (.wShutdown v1) s = .next (put { old with shutdown := v1 }) ∧
    exec .wDisplayTest s = .next (put { old with displayTest := params.valTestOff.setWidth 1 })

/-- For every state and every slot the decoder reads, executing the instruction is the commit step of rule R224 for the
chip whose turn it is: the low four bits of the opcode byte select the register, the value is cut to its width. That one
chip commits by itself is the model's choice (log entry 12), rule R224 commits all at one instant; the four bits and the
cut are what rule R224 marks general knowledge (decision D28, log entry 13). -/
def Obligations.CommitExecutesTheDecodedSlot : Prop :=
  ∀ (s : State) (i : Instr), decodeSlot s.sr[s.rx] = .ok i → exec i s = .next (s.commitOne params)

/-- Rules R168 and R233: two machines whose blocks are the same, whatever their shift registers and chip registers hold,
do the same with every command and every operand: both complete with the same block, pins, traces and host, or both are
refused for the same reason. -/
def Obligations.BlockNeverDependsOnTheChain : Prop :=
  ∀ (s t : State) (i : Instr), i.isCommand = true → s.SameBlock t →
    (∃ s' t', exec i s = .next s' ∧ exec i t = .next t' ∧ s'.SameBlock t') ∨
      (∃ r, exec i s = .refused r ∧ exec i t = .refused r)

/-- For every command of a ready block or of an unconfigured one with released pins: the frame trace only grows, and
every frame added is the frame of one slot of a chip of the chain with a wire opcode and a value that rule R82 allows.
-/
def Obligations.CommandsSendOnlyLegalFrames : Prop :=
  ∀ (s t : State) (i : Instr), i.isCommand = true → s.Ready ∨ (s.configured = false ∧ s.Released) →
    exec i s = .next t →
      ∃ fs : List (List Byte), t.frameTrace = s.frameTrace ++ fs ∧ ∀ f ∈ fs, LegalFrame params t.n f

/-! ### Whole-machine rules -/

/-- The reset state meets the invariant of the machine between commands: at rest, not configured, pins released, nothing
sent. The values the model chose for unspecified registers (log entries 2 and 3) play no part in it. -/
def Obligations.ResetStateIsSound : Prop := State.reset.Inv

/-- From every state that meets the invariant, whatever is presented (any command, any reserved word, a pause, `rst`,
nothing), a step that completes gives a state that meets it: at rest; unconfigured with released pins and empty traces,
or configured with a length 1..8, the bus idle, DATA driven, every row register of every chip of the chain equal to the
framebuffer's row, the rows beyond the chain zero, decode and display test off, every frame ever sent a legal one, and
the scratch buffer holding the last frame sent. -/
def Obligations.ConfiguredStateStaysSound : Prop :=
  ∀ s t : State, s.Inv → step s = .next t → t.Inv

/-- Rule R22 between commands: in a configured machine, for every module of the chain and every row, the framebuffer's
row equals the value byte of the last slot for that row sent to that chip in the frame trace; every step from a state
that meets the invariant keeps this, and the step that configures establishes it. -/
def Obligations.FramebufferEqualsLastSentValue : Prop :=
  ∀ s t : State, s.Inv → s.HoldsLastSent → step s = .next t → t.HoldsLastSent

/-- Rules R7, R23, R24 and R25: from every configured state that meets the invariant, a step that completes leaves the
machine configured with the same chain length and the same orientation mode, unless `rst` is asserted. -/
def Obligations.ChainLengthAndOrientationAreFixedOnce : Prop :=
  ∀ s t : State, s.Inv → s.configured = true → (∀ rest, s.host ≠ .powerOnReset :: rest) → step s = .next t →
    t.configured = true ∧ t.n = s.n ∧ t.orientQ = s.orientQ

/-- Rules R10 and R66: in every state, reachable or not, busy or not, a step that completes extends both traces at their
end and takes nothing back, unless `rst` is asserted. -/
def Obligations.TracesOnlyGrow : Prop :=
  ∀ s t : State, (∀ rest, s.host ≠ .powerOnReset :: rest) → step s = .next t →
    (∃ fs, t.frameTrace = s.frameTrace ++ fs) ∧ ∃ ps, t.pinTrace = s.pinTrace ++ ps

/-- Rules R31, R34 and R165: for every command that completes from an idle sequencer, accepting its word and then making
move after move ends, after finitely many moves, in the very state the one-step meaning gives, not busy; before the last
move the block is busy, and each move adds at most one pin event. That a model may take a whole command as one step is
rule R34's own permission (log entry 1). -/
def Obligations.AtomicCommandIsTheSequencersRun : Prop :=
  ∀ (s t : State) (w : CommandWord) (i : Instr), s.seq = none → decodeCommand w = .ok i → exec i s = .next t →
    ∃ (u : State) (k : Nat), s.beginCommand params w i = .next u ∧ u.ticks params k = t ∧ t.busy = false ∧
      ∀ j : Nat, j < k → (u.ticks params j).busy = true ∧
        (u.ticks params (j + 1)).pinTrace.length ≤ (u.ticks params j).pinTrace.length + 1

/-- In every configured state that meets the invariant between commands, for every LED of the chain: where the chip is
powered up and the row is within its scan limit, the LED is lit exactly where the framebuffer has a 1; where the chip is
powered down, or the row is past the scan limit, it is dark. From an unconfigured block with released pins and a legal
strap, CONFIGURE completes, and then every LED of the chain is lit exactly where the framebuffer has a 1, so all are
dark. The display function of rule R230 is general knowledge, given by the spec for orientation only (log entry 19). -/
def Obligations.ConfiguredDisplayShowsTheFramebuffer : Prop :=
  (∀ s : State, s.Inv → s.configured = true → ∀ k r c : Fin 8, k.val < s.n.toNat →
    (s.chips[k].shutdown = params.valPowerUp.setWidth 1 → r.val ≤ s.chips[k].scanLimit.toNat →
      s.lit params k r c = bitAt (s.fbRow k r) c) ∧
    (s.chips[k].shutdown = params.valPowerDown.setWidth 1 → s.lit params k r c = false) ∧
    (s.chips[k].scanLimit.toNat < r.val → s.lit params k r c = false)) ∧
  ∀ (s : State) (count : Int) (o : Orientation), s.configured = false → s.Released →
    orientOfStrap s.orientStrap = some o →
      ∃ t, exec (.configure count) s = .next t ∧
        ∀ k r c : Fin 8, k.val < t.n.toNat → t.lit params k r c = bitAt (t.fbRow k r) c ∧ t.lit params k r c = false

/-! ### Encodings -/

/-- For every instruction of both encodings: where every operand fits its field, the encoder gives a word and the
decoder reads exactly that instruction back from it; where an operand fits no field, the encoder refuses (rules R80,
R82, R90 to R93, R203). The command encoding is the spec's own decision D2, the wire opcode numbers are defaults (log
entry 7). -/
def Obligations.DecodeEncodeRoundTrip : Prop :=
  ∀ i : Instr, (i.wellFormed = true → ∃ w, encode i = some w ∧ decode w = .ok i) ∧
    (i.wellFormed = false → encode i = none)

/-- A command word decodes to a command exactly where its top byte is one of the thirteen codes of rule R92; every other
code is reserved (rule R94), whatever the other fields hold. -/
def Obligations.ReservedCodesAreExactlyTheUnlisted : Prop :=
  ∀ w : CommandWord, (∃ i, decodeCommand w = .ok i) ↔
    (fieldOp w).toNat ∈ [0x00, 0x01, 0x10, 0x11, 0x12, 0x13, 0x20, 0x21, 0x22, 0x23, 0x24, 0x25, 0x30]

/-- Two command words with the same command code and the same fields that rule R91 uses for its format decode alike,
whatever their ignored fields hold, format by format. And whatever word decodes to an instruction, the instruction is a
well-formed command, and the word the encoder writes for it, with the same command code and every field zero that its
format ignores, decodes to the same instruction (rules R95, R96). The formats and ignored fields are the spec's own
decisions D2 and D17. -/
def Obligations.IgnoredFieldsDoNotMatter : Prop :=
  (∀ w w' : CommandWord, fieldOp w = fieldOp w' →
    ((fieldOp w).toNat ∈ [0x00, 0x25] → decodeCommand w = decodeCommand w') ∧
    ((fieldOp w).toNat ∈ [0x01] → fieldBC w = fieldBC w' → decodeCommand w = decodeCommand w') ∧
    ((fieldOp w).toNat ∈ [0x10, 0x11, 0x24] → fieldA w = fieldA w' → decodeCommand w = decodeCommand w') ∧
    ((fieldOp w).toNat ∈ [0x12, 0x13] → fieldA w = fieldA w' → fieldC w = fieldC w' →
      decodeCommand w = decodeCommand w') ∧
    ((fieldOp w).toNat ∈ [0x20, 0x21, 0x22, 0x23] → fieldA w = fieldA w' → fieldB w = fieldB w' →
      fieldC w = fieldC w' → decodeCommand w = decodeCommand w') ∧
    ((fieldOp w).toNat ∈ [0x30] → fieldA w = fieldA w' → fieldBC w = fieldBC w' →
      decodeCommand w = decodeCommand w')) ∧
  ∀ (w : CommandWord) (i : Instr), decodeCommand w = .ok i → i.wellFormed = true ∧ i.isCommand = true ∧
    ∃ w' : CommandWord, encode i = some (.command w') ∧ decodeCommand w' = .ok i ∧ fieldOp w' = fieldOp w ∧
      ((fieldOp w).toNat ∈ [0x00, 0x25] → fieldA w' = 0 ∧ fieldB w' = 0 ∧ fieldC w' = 0) ∧
      ((fieldOp w).toNat ∈ [0x01] → fieldA w' = 0) ∧
      ((fieldOp w).toNat ∈ [0x10, 0x11, 0x24] → fieldB w' = 0 ∧ fieldC w' = 0) ∧
      ((fieldOp w).toNat ∈ [0x12, 0x13] → fieldB w' = 0)

/-- For every sixteen-bit slot and every instruction: the slot decodes to the instruction exactly where the encoder
writes that slot for it (rules R80, R82). The opcode numbers are defaults (log entry 7). -/
def Obligations.WireSlotsHaveOneMeaning : Prop :=
  ∀ (w : SlotWord) (i : Instr), decodeSlot w = .ok i ↔ encode i = some (.slot w)

/-- Six command words and three wire slots, written out bit by bit from the tables of rules R80, R82, R91 and R92,
decode to the instructions the tables give, negative and boundary operands among them. The command encoding is the
spec's own decision D2; the wire opcodes 1 and 12 of two of the slots are defaults (log entry 7). -/
def Obligations.WordsOfTheTablesDecode : Prop :=
  decodeCommand 0x00000000 = .ok .nop ∧ decodeCommand 0x0100FFFF = .ok (.configure (-1)) ∧
    decodeCommand 0x1301000F = .ok (.intensity 1 15) ∧ decodeCommand 0x21FF0300 = .ok (.setLedOn (-1) 3 0) ∧
    decodeCommand 0x220207FF = .ok (.setRow 2 7 0xFF) ∧ decodeCommand 0x3058FFFD = .ok (.placeGlyph 0x58 (-3)) ∧
    decodeSlot 0x060A = .ok (.wIntensity 6) ∧ decodeSlot 0xA501 = .ok (.wRow0 0xA5) ∧
    decodeSlot 0x010C = .ok (.wShutdown 1)

/-! ### The host's pseudo-commands -/

/-- Rules R205 and R206, for every text and every integer start: the expansion has one PLACEGLYPH per character in
order; character i stands at `start + 8i`, and in a compact string the first at `start - 1` and character i at `start +
6i`. The order is the spec's decision D18. -/
def Obligations.StringsExpandToPlacedGlyphs : Prop :=
  ∀ (text : List Byte) (start : Int),
    (placeString text start).length = text.length ∧ (placeStringCompact text start).length = text.length ∧
    ∀ (i : Nat) (ch : Byte), text[i]? = some ch →
      (placeString text start)[i]? = some (.command (.placeGlyph ch (start + 8 * (i : Int)))) ∧
        (placeStringCompact text start)[i]? =
          some (.command (.placeGlyph ch (if i = 0 then start - 1 else start + 6 * (i : Int))))

/-- Rules R207 and R208, for every chain length and text: the positions are exactly the integers from 8N down to -(8
len) + 1, step k at 8N - k, 8N + 8 len of them; at each the whole text is placed, compactly in scrollCompact, and a
pause follows every step. The bounds are the spec's decision D19 (conflict C3). -/
def Obligations.ScrollVisitsEveryPosition : Prop :=
  ∀ (n : Nat) (text : List Byte) (delay : Nat),
    (scrollPositions n text.length).length = 8 * n + 8 * text.length ∧
    (∀ p : Int, p ∈ scrollPositions n text.length ↔ -(8 * (text.length : Int)) + 1 ≤ p ∧ p ≤ 8 * (n : Int)) ∧
    (∀ k : Nat, k < 8 * n + 8 * text.length → (scrollPositions n text.length)[k]? = some (8 * (n : Int) - (k : Int))) ∧
    scroll n text delay = (scrollPositions n text.length).flatMap (fun p => placeString text p ++ [.pause delay]) ∧
    scrollCompact n text delay =
      (scrollPositions n text.length).flatMap (fun p => placeStringCompact text p ++ [.pause delay])

/-- Rules R203 and R209: where every position of a string or compact string lies in -32768..32767, its expansion is
presented, one word per character in order, each decoding to the glyph at its position; where one position lies outside,
the whole is refused, not wrapped. A scroll or compact scroll is refused exactly where the string of one of its steps
is. A number at a position is the string of the collaborator's text of width N with zero decimals, whatever that text is
(log entry 6). -/
def Obligations.StringsAreEncodedOrRefused : Prop :=
  (∀ (text : List Byte) (start : Int) (steps : List HostStep) (pos : Nat → Int),
    (steps = placeString text start ∧ pos = fun i : Nat => start + 8 * (i : Int)) ∨
        (steps = placeStringCompact text start ∧ pos = fun i : Nat => if i = 0 then start - 1 else start + 6 * (i : Int)) →
      ((∀ i : Nat, i < text.length → -32768 ≤ pos i ∧ pos i ≤ 32767) →
        ∃ items, hostItems steps = some items ∧ items.length = text.length ∧
          ∀ (i : Nat) (ch : Byte), text[i]? = some ch →
            ∃ w, items[i]? = some (.command w) ∧ decodeCommand w = .ok (.placeGlyph ch (pos i))) ∧
      ∀ i : Nat, i < text.length → ¬ (-32768 ≤ pos i ∧ pos i ≤ 32767) → hostItems steps = none) ∧
  (∀ (n : Nat) (text : List Byte) (delay : Nat),
    (hostItems (scroll n text delay) = none ↔
      ∃ p ∈ scrollPositions n text.length, hostItems (placeString text p) = none) ∧
    (hostItems (scrollCompact n text delay) = none ↔
      ∃ p ∈ scrollPositions n text.length, hostItems (placeStringCompact text p) = none)) ∧
  ∀ (n : Nat) (value position : Int), formatNumber params n value position =
    placeString (params.intToText value n 0) position

/-- Four text forms of rule R100, with decimal, hexadecimal, negative, Boolean and character operands, assemble to their
commands. The syntax is the spec's own decision D2; what it leaves open is log entry 18. -/
def Obligations.TextFormsAssemble : Prop :=
  assembleLine params 1 ['n', 'o', 'p', '(', ')'] = some [.command .nop] ∧
    assembleLine params 1 ['s', 'e', 't', 'L', 'e', 'd', '(', '1', ',', ' ', '3', ',', ' ', '0', ',', ' ', 't', 'r', 'u', 'e', ')'] =
      some [.command (.setLedOn 1 3 0)] ∧
    assembleLine params 1 ['s', 'e', 't', 'R', 'o', 'w', '(', '0', ',', '0', ',', '0', 'x', 'A', '5', ')'] =
      some [.command (.setRow 0 0 0xA5)] ∧
    assembleLine params 1 ['p', 'l', 'a', 'c', 'e', 'G', 'l', 'y', 'p', 'h', '(', '\'', 'A', '\'', ',', '-', '1', ')'] =
      some [.command (.placeGlyph 65 (-1))]
end

