-- ==== Sys2Proof/Laws/Encoding.lean ====
section
/-! SUPPORT. The fields of the words the encoder writes, and the integers of two's-complement fields (rules R90, R93). -/

namespace Sys2Proof

theorem commandWord_bit (op a b c : Byte) (i : Nat) : (commandWord op a b c).getLsbD i =
    if i < 8 then c.getLsbD i else if i < 16 then b.getLsbD (i - 8) else if i < 24 then a.getLsbD (i - 16)
    else op.getLsbD (i - 24) := by
  have h1 := BitVec.getLsbD_append (x := op ++ a ++ b) (y := c) (i := i)
  have h2 := BitVec.getLsbD_append (x := op ++ a) (y := b) (i := i - 8)
  have h3 := BitVec.getLsbD_append (x := op) (y := a) (i := i - 8 - 8)
  rw [h3] at h2
  rw [h2] at h1
  refine h1.trans ?_
  by_cases c1 : i < 8
  · simp [c1]
  · by_cases c2 : i < 16
    · have : i - 8 < 8 := by omega
      simp [c1, c2, this]
    · by_cases c3 : i < 24
      · have : i - 16 < 8 := by omega
        simp [c1, c2, c3, show ¬ i - 8 < 8 by omega, this, show i - 8 - 8 = i - 16 by omega]
      · simp [c1, c2, c3, show ¬ i - 8 < 8 by omega, show ¬ i - 8 - 8 < 8 by omega,
          show i - 8 - 8 - 8 = i - 24 by omega]

theorem commandWord16_bit (op a : Byte) (bc : BitVec 16) (i : Nat) : (commandWord16 op a bc).getLsbD i =
    if i < 16 then bc.getLsbD i else if i < 24 then a.getLsbD (i - 16) else op.getLsbD (i - 24) := by
  have h1 := BitVec.getLsbD_append (x := op ++ a) (y := bc) (i := i)
  have h2 := BitVec.getLsbD_append (x := op) (y := a) (i := i - 16)
  rw [h2] at h1
  refine h1.trans ?_
  by_cases c1 : i < 16
  · simp [c1]
  · by_cases c2 : i < 24
    · have : i - 16 < 8 := by omega
      simp [c1, c2, this]
    · simp [c1, c2, show ¬ i - 16 < 8 by omega, show i - 16 - 8 = i - 24 by omega]

section
variable (op a b c : Byte) (bc : BitVec 16)

@[simp] theorem fieldOp_commandWord : fieldOp (commandWord op a b c) = op := by
  apply BitVec.eq_of_getLsbD_eq; intro i hi
  simp [fieldOp, commandWord_bit, hi, show ¬ 24 + i < 8 by omega, show ¬ 24 + i < 16 by omega]

@[simp] theorem fieldA_commandWord : fieldA (commandWord op a b c) = a := by
  apply BitVec.eq_of_getLsbD_eq; intro i hi
  simp [fieldA, commandWord_bit, hi, show ¬ 16 + i < 8 by omega, show 16 + i < 24 by omega]

@[simp] theorem fieldB_commandWord : fieldB (commandWord op a b c) = b := by
  apply BitVec.eq_of_getLsbD_eq; intro i hi
  simp [fieldB, commandWord_bit, hi, show 8 + i < 16 by omega]

@[simp] theorem fieldC_commandWord : fieldC (commandWord op a b c) = c := by
  apply BitVec.eq_of_getLsbD_eq; intro i hi
  simp [fieldC, commandWord_bit, hi]

@[simp] theorem fieldOp_commandWord16 : fieldOp (commandWord16 op a bc) = op := by
  apply BitVec.eq_of_getLsbD_eq; intro i hi
  simp [fieldOp, commandWord16_bit, hi, show ¬ 24 + i < 16 by omega]

@[simp] theorem fieldA_commandWord16 : fieldA (commandWord16 op a bc) = a := by
  apply BitVec.eq_of_getLsbD_eq; intro i hi
  simp [fieldA, commandWord16_bit, hi, show 16 + i < 24 by omega]

@[simp] theorem fieldBC_commandWord16 : fieldBC (commandWord16 op a bc) = bc := by
  apply BitVec.eq_of_getLsbD_eq; intro i hi
  simp [fieldBC, commandWord16_bit, hi]

end

/-- The bits of a slot: the opcode byte below, the value byte above (rule R80). -/
theorem slotWord_getLsbD (a b : Byte) (i : Nat) :
    (slotWord a b).getLsbD i = if i < 8 then b.getLsbD i else a.getLsbD (i - 8) :=
  (BitVec.getLsbD_append (x := a) (y := b) (i := i)).trans (by cases decide (i < 8) <;> rfl)

@[simp] theorem slotValueField_slotWord (v o : Byte) : slotValueField (slotWord v o) = v := by
  apply BitVec.eq_of_getLsbD_eq; intro i hi
  simp [slotValueField, slotWord_getLsbD, hi]

@[simp] theorem slotOpcodeField_slotWord (v o : Byte) : slotOpcodeField (slotWord v o) = o := by
  apply BitVec.eq_of_getLsbD_eq; intro i hi
  simp [slotOpcodeField, slotWord_getLsbD, hi]

/-- A slot is its value byte and its opcode byte. -/
theorem slotWord_fields (w : SlotWord) : slotWord (slotValueField w) (slotOpcodeField w) = w := by
  apply BitVec.eq_of_getLsbD_eq; intro i hi
  rw [slotWord_getLsbD]
  by_cases h : i < 8
  · simp [slotOpcodeField, h]
  · simp [slotValueField, h, show i - 8 < 8 by omega, show 8 + (i - 8) = i by omega]

/-- With the parameters of rule R6 the decoder of slots is the table of rule R82, by the number of the wire opcode. -/
theorem decodeSlot_table (w : SlotWord) : decodeSlot w =
    match (slotOpcodeField w).toNat with
    | 0 => fixedValue w 0 .wNoop
    | 1 => .ok (.wRow0 (slotValueField w))
    | 2 => .ok (.wRow1 (slotValueField w))
    | 3 => .ok (.wRow2 (slotValueField w))
    | 4 => .ok (.wRow3 (slotValueField w))
    | 5 => .ok (.wRow4 (slotValueField w))
    | 6 => .ok (.wRow5 (slotValueField w))
    | 7 => .ok (.wRow6 (slotValueField w))
    | 8 => .ok (.wRow7 (slotValueField w))
    | 9 => fixedValue w 0 .wDecode
    | 10 => narrowValue 4 w .wIntensity
    | 11 => narrowValue 3 w .wScanLimit
    | 12 => narrowValue 1 w .wShutdown
    | 15 => fixedValue w 0 .wDisplayTest
    | _ => .error (.unusedWireOpcode (slotOpcodeField w)) := by
  unfold decodeSlot
  generalize slotOpcodeField w = o
  by_cases h : o.toNat < 16
  · obtain ⟨k, rfl⟩ : ∃ k : Fin 16, o = BitVec.ofNat 8 k.val :=
      ⟨⟨o.toNat, h⟩, BitVec.eq_of_toNat_eq (by simp)⟩
    fin_cases k <;> rfl
  · have hne : ∀ k : Fin 16, o ≠ BitVec.ofNat 8 k.val := by
      rintro k rfl
      revert k; decide
    refine (if_neg (hne 0)).trans <| (if_neg (hne 1)).trans <| (if_neg (hne 2)).trans <| (if_neg (hne 3)).trans <|
      (if_neg (hne 4)).trans <| (if_neg (hne 5)).trans <| (if_neg (hne 6)).trans <| (if_neg (hne 7)).trans <|
      (if_neg (hne 8)).trans <| (if_neg (hne 9)).trans <| (if_neg (hne 10)).trans <| (if_neg (hne 11)).trans <|
      (if_neg (hne 12)).trans <| (if_neg (hne 15)).trans ?_
    obtain ⟨m, hm⟩ : ∃ m, o.toNat = m + 16 := ⟨o.toNat - 16, by omega⟩
    rw [hm]
    rfl
/-- An integer that fits an 8-bit field is read back from it (rule R93). -/
theorem toInt_int8 {i : Int} (h : fitsField8 i = true) : (int8 i).toInt = i := by
  simp only [fitsField8, decide_eq_true_eq] at h
  rw [int8, BitVec.toInt_ofInt]
  exact Int.bmod_eq_of_le (by omega) (by omega)

/-- An integer that fits a 16-bit field is read back from it (rule R93). -/
theorem toInt_int16 {i : Int} (h : fitsField16 i = true) : (int16 i).toInt = i := by
  simp only [fitsField16, decide_eq_true_eq] at h
  rw [int16, BitVec.toInt_ofInt]
  exact Int.bmod_eq_of_le (by omega) (by omega)

/-- A field read as a signed integer fits the field. -/
theorem fitsField8_toInt (b : Byte) : fitsField8 b.toInt = true := by
  have h1 := BitVec.toInt_lt (x := b)
  have h2 := BitVec.le_toInt b
  simp only [fitsField8, decide_eq_true_eq]
  omega

theorem fitsField16_toInt (b : BitVec 16) : fitsField16 b.toInt = true := by
  have h1 := BitVec.toInt_lt (x := b)
  have h2 := BitVec.le_toInt b
  simp only [fitsField16, decide_eq_true_eq]
  omega

end Sys2Proof
end

