-- ==== Sys2Proof/Laws/State.lean ====
section
/-! SUPPORT. What each update of the state does to each field: one lemma per field per update, all true by rfl. -/

namespace Sys2Proof.Machine

section
variable (s : State) (m r : Fin 8) (v : Byte)
@[simp] theorem State.setFbRow_configured : (s.setFbRow m r v).configured = s.configured := rfl
@[simp] theorem State.setFbRow_n : (s.setFbRow m r v).n = s.n := rfl
@[simp] theorem State.setFbRow_orientQ : (s.setFbRow m r v).orientQ = s.orientQ := rfl
@[simp] theorem State.setFbRow_fb : (s.setFbRow m r v).fb = s.fb.set m (s.fb[m].set r v) := rfl
@[simp] theorem State.setFbRow_txbuf : (s.setFbRow m r v).txbuf = s.txbuf := rfl
@[simp] theorem State.setFbRow_pinsDriven : (s.setFbRow m r v).pinsDriven = s.pinsDriven := rfl
@[simp] theorem State.setFbRow_dataPin : (s.setFbRow m r v).dataPin = s.dataPin := rfl
@[simp] theorem State.setFbRow_clkPin : (s.setFbRow m r v).clkPin = s.clkPin := rfl
@[simp] theorem State.setFbRow_latchPin : (s.setFbRow m r v).latchPin = s.latchPin := rfl
@[simp] theorem State.setFbRow_seq : (s.setFbRow m r v).seq = s.seq := rfl
@[simp] theorem State.setFbRow_orientStrap : (s.setFbRow m r v).orientStrap = s.orientStrap := rfl
@[simp] theorem State.setFbRow_host : (s.setFbRow m r v).host = s.host := rfl
@[simp] theorem State.setFbRow_sr : (s.setFbRow m r v).sr = s.sr := rfl
@[simp] theorem State.setFbRow_chips : (s.setFbRow m r v).chips = s.chips := rfl
@[simp] theorem State.setFbRow_rx : (s.setFbRow m r v).rx = s.rx := rfl
@[simp] theorem State.setFbRow_rxPending : (s.setFbRow m r v).rxPending = s.rxPending := rfl
@[simp] theorem State.setFbRow_frameLog : (s.setFbRow m r v).frameLog = s.frameLog := rfl
@[simp] theorem State.setFbRow_pinLog : (s.setFbRow m r v).pinLog = s.pinLog := rfl
@[simp] theorem State.setFbRow_freeCount : (s.setFbRow m r v).freeCount = s.freeCount := rfl
end

section
variable (s : State) (cfg : Config) (k : Fin 8) (opc val : Byte)
@[simp] theorem State.assemble_configured : (s.assemble cfg k opc val).configured = s.configured := rfl
@[simp] theorem State.assemble_n : (s.assemble cfg k opc val).n = s.n := rfl
@[simp] theorem State.assemble_orientQ : (s.assemble cfg k opc val).orientQ = s.orientQ := rfl
@[simp] theorem State.assemble_fb : (s.assemble cfg k opc val).fb = s.fb := rfl
@[simp] theorem State.assemble_pinsDriven : (s.assemble cfg k opc val).pinsDriven = s.pinsDriven := rfl
@[simp] theorem State.assemble_dataPin : (s.assemble cfg k opc val).dataPin = s.dataPin := rfl
@[simp] theorem State.assemble_clkPin : (s.assemble cfg k opc val).clkPin = s.clkPin := rfl
@[simp] theorem State.assemble_latchPin : (s.assemble cfg k opc val).latchPin = s.latchPin := rfl
@[simp] theorem State.assemble_seq : (s.assemble cfg k opc val).seq = s.seq := rfl
@[simp] theorem State.assemble_orientStrap : (s.assemble cfg k opc val).orientStrap = s.orientStrap := rfl
@[simp] theorem State.assemble_host : (s.assemble cfg k opc val).host = s.host := rfl
@[simp] theorem State.assemble_sr : (s.assemble cfg k opc val).sr = s.sr := rfl
@[simp] theorem State.assemble_chips : (s.assemble cfg k opc val).chips = s.chips := rfl
@[simp] theorem State.assemble_rx : (s.assemble cfg k opc val).rx = s.rx := rfl
@[simp] theorem State.assemble_rxPending : (s.assemble cfg k opc val).rxPending = s.rxPending := rfl
@[simp] theorem State.assemble_frameLog : (s.assemble cfg k opc val).frameLog = s.frameLog := rfl
@[simp] theorem State.assemble_pinLog : (s.assemble cfg k opc val).pinLog = s.pinLog := rfl
@[simp] theorem State.assemble_freeCount : (s.assemble cfg k opc val).freeCount = s.freeCount := rfl
end

section
variable (s : State) 
@[simp] theorem State.shiftChain_configured : (s.shiftChain).configured = s.configured := rfl
@[simp] theorem State.shiftChain_n : (s.shiftChain).n = s.n := rfl
@[simp] theorem State.shiftChain_orientQ : (s.shiftChain).orientQ = s.orientQ := rfl
@[simp] theorem State.shiftChain_fb : (s.shiftChain).fb = s.fb := rfl
@[simp] theorem State.shiftChain_txbuf : (s.shiftChain).txbuf = s.txbuf := rfl
@[simp] theorem State.shiftChain_pinsDriven : (s.shiftChain).pinsDriven = s.pinsDriven := rfl
@[simp] theorem State.shiftChain_dataPin : (s.shiftChain).dataPin = s.dataPin := rfl
@[simp] theorem State.shiftChain_clkPin : (s.shiftChain).clkPin = s.clkPin := rfl
@[simp] theorem State.shiftChain_latchPin : (s.shiftChain).latchPin = s.latchPin := rfl
@[simp] theorem State.shiftChain_seq : (s.shiftChain).seq = s.seq := rfl
@[simp] theorem State.shiftChain_orientStrap : (s.shiftChain).orientStrap = s.orientStrap := rfl
@[simp] theorem State.shiftChain_host : (s.shiftChain).host = s.host := rfl
@[simp] theorem State.shiftChain_chips : (s.shiftChain).chips = s.chips := rfl
@[simp] theorem State.shiftChain_rx : (s.shiftChain).rx = s.rx := rfl
@[simp] theorem State.shiftChain_rxPending : (s.shiftChain).rxPending = s.rxPending := rfl
@[simp] theorem State.shiftChain_frameLog : (s.shiftChain).frameLog = s.frameLog := rfl
@[simp] theorem State.shiftChain_pinLog : (s.shiftChain).pinLog = s.pinLog := rfl
@[simp] theorem State.shiftChain_freeCount :
    (s.shiftChain).freeCount = if s.dataPin.isNone then s.freeCount + 1 else s.freeCount := rfl
end

section
variable (s : State) (cfg : Config)
@[simp] theorem State.commitChain_configured : (s.commitChain cfg).configured = s.configured := rfl
@[simp] theorem State.commitChain_n : (s.commitChain cfg).n = s.n := rfl
@[simp] theorem State.commitChain_orientQ : (s.commitChain cfg).orientQ = s.orientQ := rfl
@[simp] theorem State.commitChain_fb : (s.commitChain cfg).fb = s.fb := rfl
@[simp] theorem State.commitChain_txbuf : (s.commitChain cfg).txbuf = s.txbuf := rfl
@[simp] theorem State.commitChain_pinsDriven : (s.commitChain cfg).pinsDriven = s.pinsDriven := rfl
@[simp] theorem State.commitChain_dataPin : (s.commitChain cfg).dataPin = s.dataPin := rfl
@[simp] theorem State.commitChain_clkPin : (s.commitChain cfg).clkPin = s.clkPin := rfl
@[simp] theorem State.commitChain_latchPin : (s.commitChain cfg).latchPin = s.latchPin := rfl
@[simp] theorem State.commitChain_seq : (s.commitChain cfg).seq = s.seq := rfl
@[simp] theorem State.commitChain_orientStrap : (s.commitChain cfg).orientStrap = s.orientStrap := rfl
@[simp] theorem State.commitChain_host : (s.commitChain cfg).host = s.host := rfl
@[simp] theorem State.commitChain_sr : (s.commitChain cfg).sr = s.sr := rfl
@[simp] theorem State.commitChain_rx : (s.commitChain cfg).rx = s.rx := rfl
@[simp] theorem State.commitChain_rxPending : (s.commitChain cfg).rxPending = s.rxPending := rfl
@[simp] theorem State.commitChain_frameLog : (s.commitChain cfg).frameLog = s.frameLog := rfl
@[simp] theorem State.commitChain_pinLog : (s.commitChain cfg).pinLog = s.pinLog := rfl
end

section
variable (s : State) (cfg : Config)
@[simp] theorem State.commitOne_configured : (s.commitOne cfg).configured = s.configured := rfl
@[simp] theorem State.commitOne_n : (s.commitOne cfg).n = s.n := rfl
@[simp] theorem State.commitOne_orientQ : (s.commitOne cfg).orientQ = s.orientQ := rfl
@[simp] theorem State.commitOne_fb : (s.commitOne cfg).fb = s.fb := rfl
@[simp] theorem State.commitOne_txbuf : (s.commitOne cfg).txbuf = s.txbuf := rfl
@[simp] theorem State.commitOne_pinsDriven : (s.commitOne cfg).pinsDriven = s.pinsDriven := rfl
@[simp] theorem State.commitOne_dataPin : (s.commitOne cfg).dataPin = s.dataPin := rfl
@[simp] theorem State.commitOne_clkPin : (s.commitOne cfg).clkPin = s.clkPin := rfl
@[simp] theorem State.commitOne_latchPin : (s.commitOne cfg).latchPin = s.latchPin := rfl
@[simp] theorem State.commitOne_seq : (s.commitOne cfg).seq = s.seq := rfl
@[simp] theorem State.commitOne_orientStrap : (s.commitOne cfg).orientStrap = s.orientStrap := rfl
@[simp] theorem State.commitOne_host : (s.commitOne cfg).host = s.host := rfl
@[simp] theorem State.commitOne_sr : (s.commitOne cfg).sr = s.sr := rfl
@[simp] theorem State.commitOne_rx : (s.commitOne cfg).rx = s.rx := rfl
@[simp] theorem State.commitOne_rxPending : (s.commitOne cfg).rxPending = s.rxPending := rfl
@[simp] theorem State.commitOne_frameLog : (s.commitOne cfg).frameLog = s.frameLog := rfl
@[simp] theorem State.commitOne_pinLog : (s.commitOne cfg).pinLog = s.pinLog := rfl
end

section
variable (s : State) (f : ChipRegs → ChipRegs)
@[simp] theorem State.writeChip_configured : (s.writeChip f).configured = s.configured := rfl
@[simp] theorem State.writeChip_n : (s.writeChip f).n = s.n := rfl
@[simp] theorem State.writeChip_orientQ : (s.writeChip f).orientQ = s.orientQ := rfl
@[simp] theorem State.writeChip_fb : (s.writeChip f).fb = s.fb := rfl
@[simp] theorem State.writeChip_txbuf : (s.writeChip f).txbuf = s.txbuf := rfl
@[simp] theorem State.writeChip_pinsDriven : (s.writeChip f).pinsDriven = s.pinsDriven := rfl
@[simp] theorem State.writeChip_dataPin : (s.writeChip f).dataPin = s.dataPin := rfl
@[simp] theorem State.writeChip_clkPin : (s.writeChip f).clkPin = s.clkPin := rfl
@[simp] theorem State.writeChip_latchPin : (s.writeChip f).latchPin = s.latchPin := rfl
@[simp] theorem State.writeChip_seq : (s.writeChip f).seq = s.seq := rfl
@[simp] theorem State.writeChip_orientStrap : (s.writeChip f).orientStrap = s.orientStrap := rfl
@[simp] theorem State.writeChip_host : (s.writeChip f).host = s.host := rfl
@[simp] theorem State.writeChip_sr : (s.writeChip f).sr = s.sr := rfl
@[simp] theorem State.writeChip_chips : (s.writeChip f).chips = s.chips.set s.rx (f s.chips[s.rx]) := rfl
@[simp] theorem State.writeChip_rx : (s.writeChip f).rx = s.rx := rfl
@[simp] theorem State.writeChip_rxPending : (s.writeChip f).rxPending = s.rxPending := rfl
@[simp] theorem State.writeChip_frameLog : (s.writeChip f).frameLog = s.frameLog := rfl
@[simp] theorem State.writeChip_pinLog : (s.writeChip f).pinLog = s.pinLog := rfl
@[simp] theorem State.writeChip_freeCount : (s.writeChip f).freeCount = s.freeCount := rfl
end

section
variable (s : State) (cfg : Config) (k : Fin 8) (opc val : Byte)
@[simp] theorem State.transact_configured : (s.transact cfg k opc val).configured = s.configured := rfl
@[simp] theorem State.transact_n : (s.transact cfg k opc val).n = s.n := rfl
@[simp] theorem State.transact_orientQ : (s.transact cfg k opc val).orientQ = s.orientQ := rfl
@[simp] theorem State.transact_fb : (s.transact cfg k opc val).fb = s.fb := rfl
@[simp] theorem State.transact_txbuf : (s.transact cfg k opc val).txbuf = (s.assemble cfg k opc val).txbuf := rfl
@[simp] theorem State.transact_pinsDriven : (s.transact cfg k opc val).pinsDriven = s.pinsDriven := rfl
@[simp] theorem State.transact_dataPin : (s.transact cfg k opc val).dataPin = some (lastBit (frameOf cfg s.n k opc val)) := rfl
@[simp] theorem State.transact_clkPin : (s.transact cfg k opc val).clkPin = s.clkPin := rfl
@[simp] theorem State.transact_latchPin : (s.transact cfg k opc val).latchPin = s.latchPin := rfl
@[simp] theorem State.transact_seq : (s.transact cfg k opc val).seq = s.seq := rfl
@[simp] theorem State.transact_orientStrap : (s.transact cfg k opc val).orientStrap = s.orientStrap := rfl
@[simp] theorem State.transact_host : (s.transact cfg k opc val).host = s.host := rfl
@[simp] theorem State.transact_sr : (s.transact cfg k opc val).sr = vec8 fun j => if j.val < s.n.toNat then slotFor cfg k opc val j else s.sr[j] := rfl
@[simp] theorem State.transact_chips : (s.transact cfg k opc val).chips = s.chips.set k (s.chips[k].write cfg (freeChip s.freeCount k) opc val) := rfl
@[simp] theorem State.transact_rx : (s.transact cfg k opc val).rx = s.rx := rfl
@[simp] theorem State.transact_rxPending : (s.transact cfg k opc val).rxPending = s.rxPending := rfl
@[simp] theorem State.transact_frameLog : (s.transact cfg k opc val).frameLog = frameOf cfg s.n k opc val :: s.frameLog := rfl
@[simp] theorem State.transact_pinLog : (s.transact cfg k opc val).pinLog = (frameEvents (frameOf cfg s.n k opc val)).reverse ++ s.pinLog := rfl
@[simp] theorem State.transact_freeCount : (s.transact cfg k opc val).freeCount = s.freeCount := rfl
end

end Sys2Proof.Machine
end

