-- ==== Sys2Proof/Laws/Words.lean ====
section
/-! SUPPORT. The small lemmas of the fixed-size collections and of the bit operations. -/

namespace Sys2Proof

theorem vec8_get {α : Type} (f : Fin 8 → α) (i : Nat) (h : i < 8) : (vec8 f)[i] = f ⟨i, h⟩ := by
  obtain rfl | rfl | rfl | rfl | rfl | rfl | rfl | rfl :
    i = 0 ∨ i = 1 ∨ i = 2 ∨ i = 3 ∨ i = 4 ∨ i = 5 ∨ i = 6 ∨ i = 7 := by omega
  all_goals rfl

theorem vec8_getElem {α : Type} (f : Fin 8 → α) (i : Fin 8) : (vec8 f)[i] = f i := vec8_get f i.val i.isLt

@[simp] theorem vec8_getElem_val {α : Type} (f : Fin 8 → α) (i : Fin 8) : (vec8 f)[i.val] = f i :=
  vec8_get f i.val i.isLt

theorem vec16_get {α : Type} (f : Fin 16 → α) (i : Nat) (h : i < 16) : (vec16 f)[i] = f ⟨i, h⟩ := by
  have : i = 0 ∨ i = 1 ∨ i = 2 ∨ i = 3 ∨ i = 4 ∨ i = 5 ∨ i = 6 ∨ i = 7 ∨ i = 8 ∨ i = 9 ∨ i = 10 ∨ i = 11 ∨ i = 12 ∨
      i = 13 ∨ i = 14 ∨ i = 15 := by omega
  rcases this with rfl | rfl | rfl | rfl | rfl | rfl | rfl | rfl | rfl | rfl | rfl | rfl | rfl | rfl | rfl | rfl
  all_goals rfl

theorem vec16_getElem {α : Type} (f : Fin 16 → α) (i : Fin 16) : (vec16 f)[i] = f i :=
  vec16_get f i.val i.isLt

@[simp] theorem vec16_getElem_val {α : Type} (f : Fin 16 → α) (i : Fin 16) : (vec16 f)[i.val] = f i :=
  vec16_get f i.val i.isLt

/-- Two vectors of eight with the same entries are equal. -/
theorem vec8_ext {α : Type} {a b : Vector α 8} (h : ∀ i : Fin 8, a[i] = b[i]) : a = b :=
  Vector.ext fun i hi => h ⟨i, hi⟩

/-- A vector of eight is the `vec8` of its entries. -/
theorem vec8_eta {α : Type} (a : Vector α 8) : (vec8 fun i => a[i]) = a := vec8_ext fun i => by simp

/-- Reading after a write of a vector of eight. -/
theorem set_getElem_fin {α : Type} (a : Vector α 8) (i j : Fin 8) (v : α) :
    (a.set i v)[j] = if i = j then v else a[j] := by
  rw [Fin.getElem_fin, Vector.getElem_set]
  simp only [Fin.ext_iff, Fin.getElem_fin]

theorem set_getElem_ne {α : Type} (a : Vector α 8) {i j : Fin 8} (v : α) (h : i ≠ j) : (a.set i v)[j] = a[j] := by
  rw [set_getElem_fin, if_neg h]

@[simp] theorem mem_upTo7 (i : Fin 8) : i ∈ upTo7 := by revert i; decide

theorem nodup_upTo7 : upTo7.Nodup := by decide

namespace Machine

/-- `set(b, i, v)[j]` is v at i and `b[j]` elsewhere (rule R9). -/
@[simp] theorem bitAt_setBit (b : Byte) (i j : Fin 8) (v : Bool) :
    bitAt (setBit b i v) j = if i = j then v else bitAt b j := by
  have hj := j.isLt
  have hi := i.isLt
  have key : (1#8 <<< i.val).getLsbD j.val = decide (i = j) := by
    revert i j; decide
  unfold setBit bitAt
  cases v <;> simp only [Bool.false_eq_true, if_false, if_true, BitVec.getLsbD_or, BitVec.getLsbD_and,
    BitVec.getLsbD_not, key] <;> by_cases h : i = j <;> simp [h, hj]

/-- Two bytes with the same bits are equal. -/
theorem byte_ext {a b : Byte} (h : ∀ i : Fin 8, bitAt a i = bitAt b i) : a = b :=
  BitVec.eq_of_getLsbD_eq fun i hi => h ⟨i, hi⟩

@[simp] theorem bitAt_zero (i : Fin 8) : bitAt 0 i = false := by simp [bitAt]

/-- `byteOfBits f` has the bits `f`. -/
@[simp] theorem bitAt_byteOfBits (f : Fin 8 → Bool) (i : Fin 8) : bitAt (byteOfBits f) i = f i := by
  unfold byteOfBits
  fin_cases i <;> simp

@[simp] theorem pixel_glyphOfPixels (f : Fin 8 → Fin 8 → Bool) (r c : Fin 8) : pixel (glyphOfPixels f) r c = f r c := by
  simp [pixel, glyphOfPixels]

/-- Two glyphs with the same pixels are equal. -/
theorem glyph_ext {g h : Glyph} (e : ∀ r c : Fin 8, pixel g r c = pixel h r c) : g = h :=
  vec8_ext fun r => byte_ext fun c => e r c

theorem mem_modulesBelow (n : BitVec 4) (m : Fin 8) : m ∈ modulesBelow n ↔ m.val < n.toNat := by
  simp [modulesBelow]

theorem index8_of_lt {i : Int} (h0 : 0 ≤ i) (h8 : i < 8) : index8 i = some ⟨i.toNat, by omega⟩ := by
  simp [index8, h0, h8]

theorem index8_none {i : Int} (h : ¬ (0 ≤ i ∧ i < 8)) : index8 i = none := by simp only [index8, h, dif_neg, not_false_eq_true]

@[simp] theorem index8_fin (r : Fin 8) : index8 (r.val : Int) = some r := by
  have := r.isLt
  simp [index8]

theorem moduleIndex_fin (s : State) (m : Fin 8) (h : m.val < s.n.toNat) : s.moduleIndex (m.val : Int) = some m := by
  simp [State.moduleIndex, h]

theorem moduleIndex_none (s : State) {m : Int} (h : ¬ (0 ≤ m ∧ m < (s.n.toNat : Int))) : s.moduleIndex m = none := by
  simp only [State.moduleIndex, h, if_false]

end Machine
end Sys2Proof
end

