-- ==== Sys2Proof/Laws/Bus.lean ====
section
/-! SUPPORT. The bus: a transaction made pin by pin equals the transaction seen from the outside (rules R160, R221, R222,
R224, R226). -/

namespace Sys2Proof.Machine

/-! ### Lists of moves -/

@[simp] theorem run_nil (cfg : Config) (s : State) : s.run cfg [] = s := rfl

@[simp] theorem run_cons (cfg : Config) (s : State) (a : Act) (l : List Act) :
    s.run cfg (a :: l) = (s.perform cfg a).run cfg l := rfl

theorem run_append (cfg : Config) (s : State) (l k : List Act) : s.run cfg (l ++ k) = (s.run cfg l).run cfg k := by
  simp [State.run, List.foldl_append]

/-- Moves of a list of parts are made part by part. -/
theorem run_flatMap {α : Type} (cfg : Config) (f : α → List Act) (l : List α) (s : State) :
    s.run cfg (l.flatMap f) = l.foldl (fun t x => t.run cfg (f x)) s := by
  induction l generalizing s with
  | nil => rfl
  | cons x l ih => rw [List.flatMap_cons, run_append, ih]; rfl

/-! ### The shift register of the whole chain -/

/-- The chain's shift registers after a rising edge of CLK with DATA = d (rule R221). -/
def shifted (n : BitVec 4) (d : Bool) (sr : Vector SlotWord 8) : Vector SlotWord 8 :=
  vec8 fun k => if k.val < n.toNat then (sr[k].extractLsb' 0 15) ++ BitVec.ofBool (carryInto d sr k) else sr[k]

/-- Bit `p` of the chain's shift registers taken as one register: bit p mod 16 of `SR[p div 16]`. -/
def chainBit (sr : Vector SlotWord 8) (p : Nat) : Bool :=
  if h : p / 16 < 8 then (sr[p / 16]).getLsbD (p % 16) else false

theorem shifted_bit {n : BitVec 4} (hn : n.toNat ≤ 8) (d : Bool) (sr : Vector SlotWord 8) (p : Nat) (hp : p < 16 * n.toNat) :
    chainBit (shifted n d sr) p = if p = 0 then d else chainBit sr (p - 1) := by
  have h8 : p / 16 < 8 := by omega
  have hk : p / 16 < n.toNat := by omega
  unfold chainBit
  rw [dif_pos h8]
  unfold shifted
  rw [vec8_get _ _ h8]
  simp only [hk, if_true, Fin.getElem_fin, BitVec.getLsbD_append, BitVec.getLsbD_ofBool, BitVec.getLsbD_extractLsb']
  by_cases hj : p % 16 < 1
  · have h0 : p % 16 = 0 := by omega
    by_cases hp0 : p = 0
    · subst hp0; simp [carryInto]
    · have hne : p / 16 ≠ 0 := by omega
      have hq : (p - 1) / 16 = p / 16 - 1 := by omega
      have hr : (p - 1) % 16 = 15 := by omega
      have hlt : p / 16 - 1 < 8 := by omega
      simp [h0, hp0, carryInto, hne, hr, hlt, hq]
  · have hp0 : p ≠ 0 := by intro h; subst h; simp at hj
    have hq : (p - 1) / 16 = p / 16 := by omega
    have hr : (p - 1) % 16 = p % 16 - 1 := by omega
    have hlt : p % 16 - 1 < 15 := by omega
    simp [hj, hp0, hq, hr, hlt, h8]

theorem shifted_spare (n : BitVec 4) (d : Bool) (sr : Vector SlotWord 8) (k : Fin 8) (hk : n.toNat ≤ k.val) :
    (shifted n d sr)[k] = sr[k] := by
  unfold shifted
  rw [vec8_getElem, if_neg (by omega)]

/-- After a run of clock edges the chain holds the last bits shifted in, the newest at bit 0 (rule R221). -/
theorem shifted_bits {n : BitVec 4} (hn : n.toNat ≤ 8) (bits : List Bool) (sr : Vector SlotWord 8) (p : Nat) (hp : p < 16 * n.toNat) :
    chainBit (bits.foldl (fun v d => shifted n d v) sr) p =
      if p < bits.length then bits.reverse[p]?.getD false else chainBit sr (p - bits.length) := by
  induction bits using List.reverseRecOn generalizing p with
  | nil => simp
  | append_singleton bits d ih =>
    rw [List.foldl_append, List.foldl_cons, List.foldl_nil, shifted_bit hn d _ p hp]
    cases p with
    | zero => simp
    | succ q =>
      have hq : q < 16 * n.toNat := by omega
      simp only [Nat.succ_ne_zero, if_false, Nat.add_sub_cancel, ih q hq, List.length_append, List.length_singleton,
        List.reverse_append, List.reverse_singleton, List.singleton_append, List.getElem?_cons_succ,
        Nat.add_lt_add_iff_right, Nat.add_sub_add_right]

theorem shifted_bits_spare (n : BitVec 4) (bits : List Bool) (sr : Vector SlotWord 8) (k : Fin 8) (hk : n.toNat ≤ k.val) :
    (bits.foldl (fun v d => shifted n d v) sr)[k] = sr[k] := by
  induction bits generalizing sr with
  | nil => rfl
  | cons d bits ih => rw [List.foldl_cons, ih, shifted_spare n d sr k hk]

/-! ### The bits of a frame -/

/-- The bits of one byte as they are sent, bit 7 first (rule R56). -/
def byteBits (b : Byte) : List Bool := downFrom7.map (bitAt b)

@[simp] theorem byteBits_length (b : Byte) : (byteBits b).length = 8 := rfl

/-- Bit time t of a frame carries `T[t div 8][7 - (t mod 8)]` (rule R55). -/
theorem frameBits_get (l : List Byte) (t : Nat) :
    (l.flatMap byteBits)[t]? = (l[t / 8]?).map fun b => b.getLsbD (7 - t % 8) := by
  induction l generalizing t with
  | nil => simp
  | cons b l ih =>
    rw [List.flatMap_cons]
    by_cases h : t < 8
    · rw [List.getElem?_append_left (by simpa using h), Nat.div_eq_of_lt h, Nat.mod_eq_of_lt h]
      have : t = 0 ∨ t = 1 ∨ t = 2 ∨ t = 3 ∨ t = 4 ∨ t = 5 ∨ t = 6 ∨ t = 7 := by omega
      rcases this with rfl | rfl | rfl | rfl | rfl | rfl | rfl | rfl <;> rfl
    · rw [List.getElem?_append_right (by simpa using h), byteBits_length, ih]
      have h1 : t / 8 = (t - 8) / 8 + 1 := by omega
      have h2 : (t - 8) % 8 = t % 8 := by omega
      rw [h1, List.getElem?_cons_succ, h2]

theorem frameBits_length (l : List Byte) : (l.flatMap byteBits).length = 8 * l.length := by
  induction l with
  | nil => rfl
  | cons b l ih => rw [List.flatMap_cons, List.length_append, ih, byteBits_length, List.length_cons]; omega

/-! ### The bit cells -/

/-- What one bit cell does to a bus with CLK low: DATA is set and the chain shifts once (rules R86, R221). -/
def State.cell (s : State) (d : Bool) : State :=
  { s with
    dataPin := some d
    sr := shifted s.n d s.sr
    pinLog := ⟨.clk, false⟩ :: ⟨.clk, true⟩ :: ⟨.data, d⟩ :: s.pinLog }

theorem run_bitCell (cfg : Config) (s : State) (p : Fin 16) (i : Fin 8) (h : s.clkPin = some false) :
    s.run cfg (bitCell p i) = s.cell (bitAt s.txbuf[p] i) := by
  obtain ⟨⟩ := s
  simp only at h
  subst h
  simp [bitCell, State.perform, State.drive, risingEdge, State.shiftChain, State.cell, shifted, State.dataLevel]

/-- The cells of a list of bits. -/
theorem cells_fields (bits : List Bool) (s : State) :
    bits.foldl State.cell s =
      { s with
        dataPin := (bits.getLast?.map some).getD s.dataPin
        sr := bits.foldl (fun v d => shifted s.n d v) s.sr
        pinLog := (bits.flatMap fun d => [⟨.data, d⟩, ⟨.clk, true⟩, ⟨.clk, false⟩]).reverse ++ s.pinLog } := by
  induction bits generalizing s with
  | nil => rfl
  | cons d bits ih =>
    rw [List.foldl_cons, ih]
    cases bits with
    | nil => simp [State.cell]
    | cons e bits => simp [State.cell, List.getLast?_cons]

theorem run_cells (cfg : Config) (ps : List (Fin 16 × Fin 8)) (s : State) (h : s.clkPin = some false) :
    s.run cfg (ps.flatMap fun x => bitCell x.1 x.2) =
      (ps.map fun x => bitAt s.txbuf[x.1] x.2).foldl State.cell s := by
  induction ps generalizing s with
  | nil => rfl
  | cons x ps ih =>
    rw [List.flatMap_cons, run_append, run_bitCell cfg s _ _ h, ih (s.cell _) h]
    rfl

theorem frameBytes_map {α : Type} {n : BitVec 4} (hn : n.toNat ≤ 8) (f : Nat → α) :
    (frameBytes n).map (fun p => f p.val) = (List.range (2 * n.toNat)).map f := by
  have h : (frameBytes n).map (fun p => p.val) = List.range (2 * n.toNat) := by revert hn; revert n; decide
  rw [← h, List.map_map]
  rfl

theorem mem_frameBytes (n : BitVec 4) (p : Fin 16) : p ∈ frameBytes n ↔ p.val < 2 * n.toNat := by
  have h : p ∈ upTo15 := by revert p; decide
  simp [frameBytes, h]

/-- The frame in the scratch buffer after step 1 (rules R81, R161). -/
theorem assemble_frame (cfg : Config) (s : State) (hn : s.n.toNat ≤ 8) (k : Fin 8) (opc val : Byte) :
    (s.assemble cfg k opc val).frame = frameOf cfg s.n k opc val := by
  unfold State.frame frameOf
  rw [← frameBytes_map hn]
  apply List.map_congr_left
  intro p hp
  have hp' : p.val < 2 * s.n.toNat := (mem_frameBytes _ p).mp hp
  simp only [State.assemble, Fin.getElem_fin, vec16_getElem_val, hp', if_true]

theorem frameOf_length (cfg : Config) (n : BitVec 4) (k : Fin 8) (opc val : Byte) :
    (frameOf cfg n k opc val).length = 2 * n.toNat := by simp [frameOf]

/-- Steps 2 to 4 of `BusWrite` on an idle bus, with the frame left as a value: the traces, the pins, and the chain, which
shifts in the frame's bits and commits (rules R160, R165). -/
theorem run_shiftOut (cfg : Config) (s : State) (h : s.BusIdle) :
    s.run cfg (shiftOut s.n) =
      { (({ s with sr := (s.frame.flatMap byteBits).foldl (fun v d => shifted s.n d v) s.sr } : State).commitChain cfg) with
        dataPin := ((s.frame.flatMap byteBits).getLast?.map some).getD s.dataPin
        frameLog := s.frame :: s.frameLog
        pinLog := (frameEvents s.frame).reverse ++ s.pinLog } := by
  obtain ⟨h1, h2, h3⟩ := h
  have hcells : (frameBytes s.n).flatMap byteCells =
      ((frameBytes s.n).flatMap fun p => downFrom7.map fun i => (p, i)).flatMap fun x => bitCell x.1 x.2 := by
    simp only [List.flatMap_assoc, List.flatMap_map]
    rfl
  have hbits : ∀ t : State, t.n = s.n → t.txbuf = s.txbuf →
      (((frameBytes s.n).flatMap fun p => downFrom7.map fun i => (p, i)).map fun x => bitAt t.txbuf[x.1] x.2) =
        s.frame.flatMap byteBits := by
    intro t _ ht
    simp only [State.frame, List.map_flatMap, List.flatMap_map, List.map_map, byteBits, ht]
    rfl
  unfold shiftOut
  rw [List.append_assoc, List.singleton_append, run_cons, run_append, hcells, run_cells]
  · rw [hbits _ (by simp [State.perform, State.drive, risingEdge]) (by simp [State.perform, State.drive, risingEdge]),
      cells_fields]
    obtain ⟨⟩ := s
    simp only at h1 h2 h3
    subst h1 h2 h3
    simp [State.perform, State.drive, risingEdge, State.commitChain, State.committed, State.slotUnspecified,
      State.frame, frameEvents, byteEvents, byteBits, List.flatMap_assoc, List.flatMap_map]
  · simpa [State.perform, State.drive, risingEdge] using h2

/-! ### Where a frame ends up -/

theorem frameOf_get (cfg : Config) (n : BitVec 4) (k : Fin 8) (opc val : Byte) (p : Nat) (hp : p < 2 * n.toNat) :
    (frameOf cfg n k opc val)[p]? = some (frameByte cfg n k opc val p) := by
  simp [frameOf, hp]

/-- Rule R222: after the `16N` edges every chip of the chain holds its slot, whatever it held before. -/
theorem frame_shifted (cfg : Config) {n : BitVec 4} (hn : n.toNat ≤ 8) (k : Fin 8) (opc val : Byte) (sr : Vector SlotWord 8) :
    ((frameOf cfg n k opc val).flatMap byteBits).foldl (fun v d => shifted n d v) sr =
      vec8 fun j => if j.val < n.toNat then slotFor cfg k opc val j else sr[j] := by
  apply vec8_ext
  intro j
  rw [vec8_getElem]
  by_cases hj : j.val < n.toNat
  · rw [if_pos hj]
    apply BitVec.eq_of_getLsbD_eq
    intro i hi
    have hlen : ((frameOf cfg n k opc val).flatMap byteBits).length = 16 * n.toNat := by
      rw [frameBits_length, frameOf_length]; omega
    have hp : 16 * j.val + i < 16 * n.toNat := by omega
    have hb := shifted_bits hn ((frameOf cfg n k opc val).flatMap byteBits) sr (16 * j.val + i) hp
    have hq : (16 * j.val + i) / 16 = j.val := by omega
    have hr : (16 * j.val + i) % 16 = i := by omega
    have hj8 : j.val < 8 := j.isLt
    rw [hlen, if_pos hp, List.getElem?_reverse (by omega), hlen, frameBits_get] at hb
    rw [show chainBit (((frameOf cfg n k opc val).flatMap byteBits).foldl (fun v d => shifted n d v) sr) (16 * j.val + i)
        = (((frameOf cfg n k opc val).flatMap byteBits).foldl (fun v d => shifted n d v) sr)[j].getLsbD i by
      simp [chainBit, hq, hr, hj8]] at hb
    rw [hb]
    by_cases h8 : i < 8
    · have e1 : (16 * n.toNat - 1 - (16 * j.val + i)) / 8 = 2 * n.toNat - 2 * j.val - 1 := by omega
      have e2 : 7 - (16 * n.toNat - 1 - (16 * j.val + i)) % 8 = i := by omega
      rw [e1, e2, frameOf_get _ _ _ _ _ _ (by omega)]
      by_cases hk : j = k
      · subst hk
        have c1 : ¬ (2 * n.toNat - 2 * j.val - 1 + 2 * j.val + 2 = 2 * n.toNat) := by omega
        have c2 : 2 * n.toNat - 2 * j.val - 1 + 2 * j.val + 1 = 2 * n.toNat := by omega
        simp [slotFor, frameByte, c1, c2, slotWord_getLsbD, h8]
      · have hkv : j.val ≠ k.val := fun e => hk (Fin.ext e)
        have c1 : ¬ (2 * n.toNat - 2 * j.val - 1 + 2 * k.val + 2 = 2 * n.toNat) := by omega
        have c2 : ¬ (2 * n.toNat - 2 * j.val - 1 + 2 * k.val + 1 = 2 * n.toNat) := by omega
        simp [slotFor, frameByte, c1, c2, hk]
    · have e1 : (16 * n.toNat - 1 - (16 * j.val + i)) / 8 = 2 * n.toNat - 2 * j.val - 2 := by omega
      have e2 : 7 - (16 * n.toNat - 1 - (16 * j.val + i)) % 8 = i - 8 := by omega
      rw [e1, e2, frameOf_get _ _ _ _ _ _ (by omega)]
      by_cases hk : j = k
      · subst hk
        have c1 : 2 * n.toNat - 2 * j.val - 2 + 2 * j.val + 2 = 2 * n.toNat := by omega
        simp [slotFor, frameByte, c1, slotWord_getLsbD, h8]
      · have hkv : j.val ≠ k.val := fun e => hk (Fin.ext e)
        have c1 : ¬ (2 * n.toNat - 2 * j.val - 2 + 2 * k.val + 2 = 2 * n.toNat) := by omega
        have c2 : ¬ (2 * n.toNat - 2 * j.val - 2 + 2 * k.val + 1 = 2 * n.toNat) := by omega
        simp [slotFor, frameByte, c1, c2, hk]
  · rw [if_neg hj]
    exact shifted_bits_spare n _ sr j (by omega)

/-- The value a chip reads from its own slot (rules R80, R224). -/
theorem slotValue_pair (cfg : Config) (opc val : Byte) :
    slotValue cfg (slotWord (pairFirst cfg opc val) (pairSecond cfg opc val)) = val := by
  apply BitVec.eq_of_getLsbD_eq
  intro i hi
  unfold slotValue pairFirst pairSecond
  cases cfg.pairOrder <;> simp [slotWord_getLsbD, hi]

/-- The wire opcode a chip reads from its own slot, where the opcode byte is one of 0..15 (rules R80, R224). -/
theorem slotOpcode_pair (cfg : Config) (opc val : Byte) (h : opc.toNat < 16) :
    slotOpcode cfg (slotWord (pairFirst cfg opc val) (pairSecond cfg opc val)) = opc := by
  have hhi : ∀ i, 4 ≤ i → opc.getLsbD i = false := fun i hi =>
    Nat.testBit_lt_two_pow (Nat.lt_of_lt_of_le h (Nat.pow_le_pow_right (n := 2) (by omega) hi))
  apply BitVec.eq_of_getLsbD_eq
  intro i hi
  unfold slotOpcode pairFirst pairSecond
  by_cases h4 : i < 4
  · cases cfg.pairOrder <;>
      simp [slotWord_getLsbD, h4, hi]
  · cases cfg.pairOrder <;> simp [h4, hhi i (by omega)]

theorem slotOpcode_zero (cfg : Config) : slotOpcode cfg 0#16 = 0#8 := by
  unfold slotOpcode; cases cfg.pairOrder <;> rfl

/-- A wire opcode of rule R82: one of 0..15 to which rule R224 gives an effect. -/
def Mapped (cfg : Config) (opc : Byte) : Prop := opc.toNat < 16 ∧ opcodeUnspecified cfg opc = false

/-- One transaction: made pin by pin it is the transaction seen from the outside (rules R160, R165, R222, R224, R226). -/
theorem run_busWrite (cfg : Config) (s : State) (k : Fin 8) (opc val : Byte) (hidle : s.BusIdle)
    (hn : s.n.toNat ≤ 8) (hnoop : cfg.opcNoop = 0) (hmap : Mapped cfg opc) (hk : k.val < s.n.toNat) :
    s.run cfg (busWrite s.n k opc val) = s.transact cfg k opc val := by
  obtain ⟨h16, hspec⟩ := hmap
  have hlast : ((frameOf cfg s.n k opc val).flatMap byteBits).getLast? = some (lastBit (frameOf cfg s.n k opc val)) := by
    have hlen := frameOf_length cfg s.n k opc val
    generalize frameOf cfg s.n k opc val = l at hlen ⊢
    rcases List.eq_nil_or_concat l with rfl | ⟨l', b, rfl⟩
    · simp at hlen; omega
    · simp [lastBit, byteBits, downFrom7]
  have hcommit : ∀ j : Fin 8, j.val < s.n.toNat →
      (s.chips[j].write cfg (freeChip s.freeCount j) (slotOpcode cfg (slotFor cfg k opc val j))
        (slotValue cfg (slotFor cfg k opc val j))) =
      if k = j then s.chips[k].write cfg (freeChip s.freeCount k) opc val else s.chips[j] := by
    intro j hj
    by_cases e : k = j
    · subst e
      simp only [slotFor, if_true, slotValue_pair, slotOpcode_pair cfg opc val h16]
    · rw [if_neg e]
      have hz : slotFor cfg k opc val j = 0#16 := if_neg (Ne.symm e)
      rw [hz, slotOpcode_zero, ChipRegs.write, hnoop]
      rfl
  have hfree : (modulesBelow s.n).any (fun j => opcodeUnspecified cfg (slotOpcode cfg (slotFor cfg k opc val j))) = false := by
    rw [List.any_eq_false]
    intro j _
    by_cases e : j = k
    · subst e
      simp [slotFor, slotOpcode_pair cfg opc val h16, hspec]
    · have hz : slotFor cfg k opc val j = 0#16 := if_neg e
      simp only [hz, slotOpcode_zero, opcodeUnspecified, hnoop]
      simp
  show (s.assemble cfg k opc val).run cfg (shiftOut s.n) = _
  have hrun := run_shiftOut cfg (s.assemble cfg k opc val) hidle
  rw [State.assemble_n] at hrun
  have hchips : (vec8 fun j => if j.val < s.n.toNat then
        s.chips[j].write cfg (freeChip s.freeCount j)
          (slotOpcode cfg ((vec8 fun i => if i.val < s.n.toNat then slotFor cfg k opc val i else s.sr[i])[j]))
          (slotValue cfg ((vec8 fun i => if i.val < s.n.toNat then slotFor cfg k opc val i else s.sr[i])[j]))
        else s.chips[j]) =
      s.chips.set k (s.chips[k].write cfg (freeChip s.freeCount k) opc val) := by
    apply vec8_ext
    intro j
    rw [vec8_getElem, set_getElem_fin, vec8_getElem]
    by_cases hj : j.val < s.n.toNat
    · simp only [hj, if_true]; exact hcommit j hj
    · have : k ≠ j := by rintro rfl; exact hj hk
      simp only [hj, if_false, this]
  have hcount : (modulesBelow s.n).any (fun j => opcodeUnspecified cfg (slotOpcode cfg
      ((vec8 fun i => if i.val < s.n.toNat then slotFor cfg k opc val i else s.sr[i])[j]))) = false := by
    rw [List.any_eq_false] at hfree ⊢
    intro j hj
    rw [vec8_getElem, if_pos ((mem_modulesBelow _ _).mp hj)]
    exact hfree j hj
  rw [hrun]
  unfold State.transact State.commitChain State.committed State.slotUnspecified
  simp only [assemble_frame cfg s hn, State.assemble_n, State.assemble_sr, State.assemble_chips,
    State.assemble_freeCount, State.assemble_frameLog, State.assemble_pinLog, frame_shifted cfg hn, hlast]
  rw [hchips, hcount]
  rfl

end Sys2Proof.Machine
end

