-- ==== Sys2Proof/Laws/Commands.lean ====
section
/-! SUPPORT. The commands' bodies: each list of moves, on an idle bus and a valid address, is the command seen from the
outside (rules R141 to R145, R181). -/

namespace Sys2Proof.Machine

/-! ### The parameters -/

@[simp] theorem params_opcNoop : params.opcNoop = 0 := rfl

theorem mapped_row (r : Fin 8) : Mapped params (params.opcRow r) := by
  unfold Mapped; revert r; decide

theorem mapped_decode : Mapped params params.opcDecode := by unfold Mapped; decide

theorem mapped_intensity : Mapped params params.opcIntensity := by unfold Mapped; decide

theorem mapped_scanLimit : Mapped params params.opcScanLimit := by unfold Mapped; decide

theorem mapped_shutdown : Mapped params params.opcShutdown := by unfold Mapped; decide

theorem mapped_displayTest : Mapped params params.opcDisplayTest := by unfold Mapped; decide

/-- A write with the wire opcode of row r writes row r (rules R82, R224). -/
theorem write_row (c free : ChipRegs) (r : Fin 8) (v : Byte) : c.write params free (params.opcRow r) v = c.setRow r v := by
  have h0 : params.opcRow r ≠ params.opcNoop := by revert r; decide
  have h1 : rowOfOpcode params (params.opcRow r) = some r := by revert r; decide
  simp only [ChipRegs.write, h0, h1, if_false]

theorem write_decode (c free : ChipRegs) (v : Byte) : c.write params free params.opcDecode v = { c with decode := v } := rfl

theorem write_intensity (c free : ChipRegs) (v : Byte) :
    c.write params free params.opcIntensity v = { c with intensity := v.setWidth 4 } := rfl

theorem write_scanLimit (c free : ChipRegs) (v : Byte) :
    c.write params free params.opcScanLimit v = { c with scanLimit := v.setWidth 3 } := rfl

theorem write_shutdown (c free : ChipRegs) (v : Byte) :
    c.write params free params.opcShutdown v = { c with shutdown := v.setWidth 1 } := rfl

theorem write_displayTest (c free : ChipRegs) (v : Byte) :
    c.write params free params.opcDisplayTest v = { c with displayTest := v.setWidth 1 } := rfl

@[simp] theorem columnBit_params (bits : Byte) (r : Fin 8) : columnBit params bits r = bitAt bits r := rfl

/-! ### The bus stays at rest -/

theorem BusIdle.setFbRow {s : State} (h : s.BusIdle) (m r : Fin 8) (v : Byte) : (s.setFbRow m r v).BusIdle := h

theorem BusIdle.transact {s : State} (h : s.BusIdle) (cfg : Config) (k : Fin 8) (opc val : Byte) :
    (s.transact cfg k opc val).BusIdle := h

theorem BusIdle.push {s : State} (h : s.BusIdle) (cfg : Config) (m r : Fin 8) : (s.push cfg m r).BusIdle := h

theorem BusIdle.setLed {s : State} (h : s.BusIdle) (cfg : Config) (m r c : Fin 8) (on : Bool) :
    (s.setLed cfg m r c on).BusIdle := h

theorem BusIdle.setRow {s : State} (h : s.BusIdle) (cfg : Config) (m r : Fin 8) (v : Byte) :
    (s.setRow cfg m r v).BusIdle := h

@[simp] theorem push_n (cfg : Config) (s : State) (m r : Fin 8) : (s.push cfg m r).n = s.n := rfl

@[simp] theorem setLed_n (cfg : Config) (s : State) (m r c : Fin 8) (on : Bool) : (s.setLed cfg m r c on).n = s.n := rfl

@[simp] theorem setRow_n (cfg : Config) (s : State) (m r : Fin 8) (v : Byte) : (s.setRow cfg m r v).n = s.n := rfl

/-- A property kept by every part of a fold is kept by the fold. -/
theorem foldl_keeps {α β : Type} {P : β → Prop} {f : β → α → β} (hf : ∀ b a, P b → P (f b a)) (l : List α) {b : β}
    (h : P b) : P (l.foldl f b) := by
  induction l generalizing b with
  | nil => exact h
  | cons a l ih => exact ih (hf b a h)

/-- What a body of moves needs of the state it starts from, in a chain of length n. -/
def InChain (n : BitVec 4) (s : State) : Prop := s.BusIdle ∧ s.n = n ∧ n.toNat ≤ 8

theorem InChain.transact {n : BitVec 4} {s : State} (h : InChain n s) (k : Fin 8) (opc val : Byte) :
    InChain n (s.transact params k opc val) := h

theorem InChain.setLed {n : BitVec 4} {s : State} (h : InChain n s) (m r c : Fin 8) (on : Bool) :
    InChain n (s.setLed params m r c on) := h

theorem InChain.setRow {n : BitVec 4} {s : State} (h : InChain n s) (m r : Fin 8) (v : Byte) :
    InChain n (s.setRow params m r v) := h

theorem InChain.setColumn {n : BitVec 4} {s : State} (h : InChain n s) (m c : Fin 8) (bits : Byte) :
    InChain n (s.setColumn params m c bits) :=
  foldl_keeps (P := InChain n) (fun _ r hb => hb.setLed m r c _) upTo7 h

theorem InChain.clear {n : BitVec 4} {s : State} (h : InChain n s) (m : Fin 8) : InChain n (s.clear params m) :=
  foldl_keeps (P := InChain n) (fun _ r hb => hb.setRow m r 0) upTo7 h

theorem InChain.initModule {n : BitVec 4} {s : State} (h : InChain n s) (m : Fin 8) : InChain n (s.initModule params m) :=
  InChain.clear (h.transact _ _ _ |>.transact _ _ _ |>.transact _ _ _) m

/-! ### Bodies of moves -/

/-- A body made of parts, each part proved on its own. -/
theorem run_parts {α : Type} {n : BitVec 4} (f : α → List Act) (g : State → α → State) (l : List α)
    (hkeep : ∀ s a, InChain n s → InChain n (g s a))
    (hrun : ∀ s a, a ∈ l → InChain n s → s.run params (f a) = g s a) {s : State} (h : InChain n s) :
    s.run params (l.flatMap f) = l.foldl g s := by
  rw [run_flatMap]
  induction l generalizing s with
  | nil => rfl
  | cons a l ih =>
    rw [List.foldl_cons, List.foldl_cons, hrun s a (by simp) h]
    exact ih (fun s b hb => hrun s b (by simp [hb])) (hkeep s a h)

theorem run_bus {n : BitVec 4} {s : State} (h : InChain n s) {k : Fin 8} {opc : Byte} (val : Byte) (hmap : Mapped params opc)
    (hk : k.val < n.toNat) : s.run params (busWrite n k opc val) = s.transact params k opc val := by
  obtain ⟨hi, rfl, hn⟩ := h
  exact run_busWrite params s k opc val hi hn rfl hmap hk

/-- A push (rule R146). -/
theorem run_pushRow {n : BitVec 4} {s : State} (h : InChain n s) {m : Fin 8} (r : Fin 8) (hm : m.val < n.toNat) :
    s.run params (pushRow n m r) = s.push params m r :=
  run_bus h (s.fbRow m r) (mapped_row r) hm

/-- SETLED (rule R141). -/
theorem run_setLedBody {n : BitVec 4} {s : State} (h : InChain n s) {m : Fin 8} (r c : Fin 8) (on : Bool)
    (hm : m.val < n.toNat) : s.run params (setLedBody n m r c on) = s.setLed params m r c on :=
  run_pushRow (s := s.setFbRow m r (setBit (s.fbRow m r) c on)) h r hm

/-- SETROW and one row of CLEAR (rules R142, R144). -/
theorem run_writeRow {n : BitVec 4} {s : State} (h : InChain n s) {m : Fin 8} (r : Fin 8) (v : Byte) (hm : m.val < n.toNat) :
    s.run params (.writeRow m r v :: busWrite n m (params.opcRow r) v) = s.setRow params m r v := by
  have hv : (s.setFbRow m r v).fbRow m r = v := by simp [State.fbRow]
  have hb := run_bus (s := s.setFbRow m r v) h v (mapped_row r) hm
  unfold State.setRow State.push
  rw [hv]
  exact hb

/-- SETCOLUMN (rule R143). -/
theorem run_setColumnBody {n : BitVec 4} {s : State} (h : InChain n s) {m : Fin 8} (c : Fin 8) (bits : Byte)
    (hm : m.val < n.toNat) : s.run params (setColumnBody params n m c bits) = s.setColumn params m c bits :=
  run_parts _ (fun t r => t.setLed params m r c (columnBit params bits r)) upTo7 (fun _ r hs => hs.setLed m r c _)
    (fun _ r _ hs => run_setLedBody hs r c _ hm) h

/-- CLEAR (rule R144). -/
theorem run_clearBody {n : BitVec 4} {s : State} (h : InChain n s) {m : Fin 8} (hm : m.val < n.toNat) :
    s.run params (clearBody params n m) = s.clear params m :=
  run_parts _ (fun t r => t.setRow params m r 0) upTo7 (fun _ r hs => hs.setRow m r 0)
    (fun _ r _ hs => run_writeRow hs r 0 hm) h

/-- CLEARALL (rule R145). -/
theorem run_clearAllBody {n : BitVec 4} {s : State} (h : InChain n s) :
    s.run params ((modulesBelow n).flatMap (clearBody params n)) = s.clearAll params := by
  rw [run_parts _ (fun t m => t.clear params m) (modulesBelow n) (fun _ m hs => hs.clear m)
    (fun _ m hm hs => run_clearBody hs ((mem_modulesBelow n m).mp hm)) h]
  unfold State.clearAll
  rw [h.2.1]

/-- One register of every chip (rule R181, step d). -/
theorem run_everyChip {n : BitVec 4} {s : State} (h : InChain n s) {opc : Byte} (val : Byte) (hmap : Mapped params opc) :
    s.run params ((modulesBelow n).flatMap fun m => busWrite n m opc val) = s.everyChip params opc val := by
  rw [run_parts _ (fun t m => t.transact params m opc val) (modulesBelow n) (fun _ m hs => hs.transact m opc val)
    (fun _ m hm hs => run_bus hs val hmap ((mem_modulesBelow n m).mp hm)) h]
  unfold State.everyChip
  rw [h.2.1]

theorem InChain.everyChip {n : BitVec 4} {s : State} (h : InChain n s) (opc val : Byte) :
    InChain n (s.everyChip params opc val) :=
  foldl_keeps (P := InChain n) (fun _ m hb => hb.transact m opc val) _ h

/-- Step c of CONFIGURE for one module (rule R181). -/
theorem run_initModule {n : BitVec 4} {s : State} (h : InChain n s) {m : Fin 8} (hm : m.val < n.toNat) :
    s.run params (initModule params n m) = s.initModule params m := by
  unfold initModule
  rw [run_append, run_append, run_append, run_bus h _ mapped_displayTest hm,
    run_bus (h.transact _ _ _) _ mapped_scanLimit hm, run_bus ((h.transact _ _ _).transact _ _ _) _ mapped_decode hm,
    run_clearBody (((h.transact _ _ _).transact _ _ _).transact _ _ _) hm]
  rfl

/-- Steps a and b of CONFIGURE on released pins or on idle ones: no edge of CLK or LATCH_N reaches the chain (U16). -/
theorem run_claim (s : State) (n : BitVec 4) (o : Orientation) (h : s.latchPin ≠ some false) :
    s.run params ([.setLength n] ++ [.claimPins, .pin .data false, .pin .clk false, .pin .latchN true]
      ++ [.zeroRows, .loadOrient o, .setConfigured]) = s.claimed n o := by
  simp [State.perform, State.drive, risingEdge, h, State.claimed]

/-- CONFIGURE of released pins (rule R181). -/
theorem run_configureBody (s : State) {n : BitVec 4} (hn : n.toNat ≤ 8) (o : Orientation) (h : s.latchPin = none) :
    s.run params (configureBody params n o) = s.configure params n o := by
  have h0 : InChain n (s.claimed n o) := ⟨⟨rfl, rfl, rfl⟩, rfl, hn⟩
  have h1 := foldl_keeps (P := InChain n) (fun (t : State) m ht => InChain.initModule ht m) (modulesBelow n) h0
  unfold configureBody
  rw [run_append, run_append, run_append, run_append, run_append, run_claim s n o (by rw [h]; decide),
    run_parts _ (fun t m => t.initModule params m) (modulesBelow n) (fun _ m hs => hs.initModule m)
      (fun _ m hm hs => run_initModule hs ((mem_modulesBelow n m).mp hm)) h0,
    run_everyChip h1 _ mapped_shutdown, run_everyChip (h1.everyChip _ _) _ mapped_intensity,
    run_everyChip ((h1.everyChip _ _).everyChip _ _) _ mapped_shutdown,
    run_clearAllBody (((h1.everyChip _ _).everyChip _ _).everyChip _ _)]
  rfl

/-- The columns PLACEGLYPH writes are on the chain (rules R52, R200). -/
theorem colMap_module_lt (cfg : Config) (o : Orientation) (n : BitVec 4) (l : Int) (x : Fin 8 × Fin 8)
    (h : colMap cfg o n l = some x) : x.1.val < n.toNat := by
  unfold colMap at h
  split at h
  · rename_i hl
    simp only [Option.some.injEq] at h
    subst h
    show l.toNat / 8 < n.toNat
    omega
  · cases h

/-- Every column the loop of rule R200 yields belongs to a module of the chain. -/
theorem placeColumns_mem (cfg : Config) (o : Orientation) (n : BitVec 4) (t : Glyph) (pos : Int) (js : List (Fin 8))
    (x : (Fin 8 × Fin 8) × Byte) (h : x ∈ placeColumns cfg o n t pos js) : x.1.1.val < n.toNat := by
  induction js with
  | nil => cases h
  | cons j js ih =>
    unfold placeColumns at h
    simp only at h
    split at h
    · cases h
    · split at h
      · exact ih h
      · rename_i mc hmc
        rcases List.mem_cons.mp h with rfl | h
        · exact colMap_module_lt cfg o n _ mc hmc
        · exact ih h

/-- PLACEGLYPH (rule R200). -/
theorem run_placeGlyph {s : State} (h : s.Ready) (ch : Byte) (pos : Int) :
    s.run params (placeGlyphActs params s ch pos) = s.placeGlyph params ch pos := by
  unfold placeGlyphActs State.placeGlyph
  rw [if_pos h.1]
  refine run_parts (n := s.n) (fun x : (Fin 8 × Fin 8) × Byte => setColumnBody params s.n x.1.1 x.1.2 x.2)
    (fun t x => t.setColumn params x.1.1 x.1.2 x.2) _ ?_ ?_ ⟨h.2.1, rfl, h.2.2⟩
  · intro t x ht
    exact ht.setColumn _ _ _
  · intro t x hx ht
    exact run_setColumnBody ht _ _ (placeColumns_mem _ _ _ _ _ _ x hx)

end Sys2Proof.Machine
end

