-- ==== Sys2Proof/Laws/Effects.lean ====
section
/-! SUPPORT. What a row write, a push and a transaction do to the framebuffer, to the chips, to the scratch buffer and to
the frame trace: the lemmas later proofs cite instead of unfolding a command (rules R141, R146, R160, R226). -/

namespace Sys2Proof.Machine

/-- Reading a row after a write of a row (rule R9). -/
theorem fbRow_setFbRow (s : State) (m r m' r' : Fin 8) (v : Byte) :
    (s.setFbRow m r v).fbRow m' r' = if m' = m ∧ r' = r then v else s.fbRow m' r' := by
  unfold State.fbRow
  rw [State.setFbRow_fb, set_getElem_fin]
  by_cases h : m = m'
  · subst h
    rw [if_pos rfl, set_getElem_fin]
    by_cases h2 : r = r'
    · subst h2; simp
    · simp [h2, Ne.symm h2]
  · simp [h, Ne.symm h]

/-- `BusWrite` neither reads nor writes `FB` (rule R167). -/
@[simp] theorem fbRow_transact (cfg : Config) (s : State) (k m r : Fin 8) (opc val : Byte) :
    (s.transact cfg k opc val).fbRow m r = s.fbRow m r := rfl

/-- The rows after SETLED (rule R141). -/
theorem fbRow_setLed (s : State) (m r c m' r' : Fin 8) (on : Bool) : (s.setLed params m r c on).fbRow m' r' =
    if m' = m ∧ r' = r then setBit (s.fbRow m r) c on else s.fbRow m' r' := by
  unfold State.setLed State.push
  rw [fbRow_transact, fbRow_setFbRow]

/-- The rows after SETROW and after one row of CLEAR (rules R142, R144). -/
theorem fbRow_setRow (s : State) (m r m' r' : Fin 8) (v : Byte) : (s.setRow params m r v).fbRow m' r' =
    if m' = m ∧ r' = r then v else s.fbRow m' r' := by
  unfold State.setRow State.push
  rw [fbRow_transact, fbRow_setFbRow]

/-- SETLED adds the frame of the row as it stands after the write (rules R141, R146). -/
theorem frameLog_setLed (s : State) (m r c : Fin 8) (on : Bool) : (s.setLed params m r c on).frameLog =
    frameOf params s.n m (params.opcRow r) ((s.setLed params m r c on).fbRow m r) :: s.frameLog := by
  rw [fbRow_setLed]
  unfold State.setLed State.push
  rw [fbRow_setFbRow]
  rfl

/-- SETROW adds the frame of its value (rule R142). -/
theorem frameLog_setRow (s : State) (m r : Fin 8) (v : Byte) : (s.setRow params m r v).frameLog =
    frameOf params s.n m (params.opcRow r) v :: s.frameLog := by
  unfold State.setRow State.push
  rw [fbRow_setFbRow]
  simp only [and_self, if_true]
  rfl

/-- A transaction leaves its frame in the scratch buffer (rules R28, R161). -/
theorem frame_transact (cfg : Config) (s : State) (hn : s.n.toNat ≤ 8) (k : Fin 8) (opc val : Byte) :
    (s.transact cfg k opc val).frame = frameOf cfg s.n k opc val := by
  rw [← assemble_frame cfg s hn]
  rfl

/-- A push writes the pushed row's register of the addressed chip (rule R226). -/
theorem chips_push (s : State) (m r : Fin 8) :
    (s.push params m r).chips = s.chips.set m (s.chips[m].setRow r (s.fbRow m r)) := by
  show s.chips.set m (s.chips[m].write params _ _ _) = _
  rw [write_row]

/-- A transaction whose wire opcode writes one register acts on chip k by that write and on no other chip (rule R226). -/
theorem chips_transact (s : State) (k j : Fin 8) (opc val : Byte) (g : ChipRegs → ChipRegs)
    (hg : ∀ c free, ChipRegs.write params c free opc val = g c) :
    (s.transact params k opc val).chips[j] = if j = k then g s.chips[j] else s.chips[j] := by
  show (s.chips.set k (s.chips[k].write params _ opc val))[j] = _
  rw [set_getElem_fin, hg]
  by_cases h : k = j
  · subst h; simp
  · simp [h, Ne.symm h]

/-- What the parts of a fold over different chips do, each to its own chip, the whole does to all of them. -/
theorem chips_foldl (g : ChipRegs → ChipRegs) (f : State → Fin 8 → State)
    (hf : ∀ s m (j : Fin 8), (f s m).chips[j] = if j = m then g s.chips[j] else s.chips[j])
    (l : List (Fin 8)) (hl : l.Nodup) (s : State) (j : Fin 8) :
    (l.foldl f s).chips[j] = if j ∈ l then g s.chips[j] else s.chips[j] := by
  induction l generalizing s with
  | nil => simp
  | cons a l ih =>
    have ⟨h1, h2⟩ := List.nodup_cons.mp hl
    rw [List.foldl_cons, ih h2, hf s a j]
    by_cases e : j = a
    · subst e; simp [h1]
    · simp [e]

theorem nodup_modulesBelow (n : BitVec 4) : (modulesBelow n).Nodup := by revert n; decide

theorem length_modulesBelow {n : BitVec 4} (hn : n.toNat ≤ 8) : (modulesBelow n).length = n.toNat := by
  revert hn; revert n; decide

/-- The loop of rule R200 is "for each j on the chain": since the column rises with j, stopping and skipping are the same. -/
theorem placeColumns_eq_filterMap (cfg : Config) (o : Orientation) (n : BitVec 4) (g : Glyph) (pos : Int) (l : List (Fin 8))
    (hl : l.Pairwise (· < ·)) : placeColumns cfg o n g pos l =
      l.filterMap fun j => (colMap cfg o n (pos + (j.val : Int))).map fun mc => (mc, g[j]) := by
  induction l with
  | nil => rfl
  | cons j l ih =>
    have ⟨h1, h2⟩ := List.pairwise_cons.mp hl
    rw [List.filterMap_cons]
    unfold placeColumns
    simp only
    split
    · rename_i hge
      have hn : ∀ j' : Fin 8, j ≤ j' → colMap cfg o n (pos + (j'.val : Int)) = none := by
        intro j' hj
        have : j.val ≤ j'.val := hj
        simp only [colMap, dif_neg (show ¬ (0 ≤ pos + (j'.val : Int) ∧ pos + (j'.val : Int) < 8 * (n.toNat : Int) ∧ pos + (j'.val : Int) < 64) by omega)]
      rw [hn j (le_refl _)]
      symm
      rw [Option.map_none, List.filterMap_eq_nil_iff]
      intro a ha
      rw [hn a (le_of_lt (h1 a ha)), Option.map_none]
    · cases h : colMap cfg o n (pos + (j.val : Int)) with
      | none => exact ih h2
      | some mc => simp only [Option.map_some]; rw [ih h2]

end Sys2Proof.Machine
end

