-- ==== Sys2Proof/Laws/PerInstr.lean ====
section
/-! SUPPORT. A law of every instruction as syntax: the word the encoder writes is of the encoding the opcode table puts the
instruction in, and carries the command code of rule R92 or the wire opcode of rule R82. -/

namespace Sys2Proof.Laws.Opcode

/-- The command code (rule R92) or the wire opcode (rule R82) of the instruction's row of the opcode table. -/
def code : Instr → Byte
  | .nop => 0x00
  | .configure _ => 0x01
  | .powerDown _ => 0x10
  | .powerUp _ => 0x11
  | .scanLimit _ _ => 0x12
  | .intensity _ _ => 0x13
  | .setLedOff _ _ _ => 0x20
  | .setLedOn _ _ _ => 0x21
  | .setRow _ _ _ => 0x22
  | .setColumn _ _ _ => 0x23
  | .clear _ => 0x24
  | .clearAll => 0x25
  | .placeGlyph _ _ => 0x30
  | .wNoop => 0
  | .wRow0 _ => 1
  | .wRow1 _ => 2
  | .wRow2 _ => 3
  | .wRow3 _ => 4
  | .wRow4 _ => 5
  | .wRow5 _ => 6
  | .wRow6 _ => 7
  | .wRow7 _ => 8
  | .wDecode => 9
  | .wIntensity _ => 10
  | .wScanLimit _ => 11
  | .wShutdown _ => 12
  | .wDisplayTest => 15

/-- The encoder's word of the instruction is a command word exactly where the instruction is a command, and its opcode
field holds the code of its row. -/
def Statement (i : Instr) : Prop :=
  match encodeFields i with
  | .command w => i.isCommand = true ∧ fieldOp w = code i
  | .slot w => i.isCommand = false ∧ slotOpcodeField w = code i

theorem nop : Statement .nop := ⟨rfl, fieldOp_commandWord _ _ _ _⟩

theorem configure (count : Int) : Statement (.configure count) := ⟨rfl, fieldOp_commandWord16 _ _ _⟩

theorem powerDown (mdl : Int) : Statement (.powerDown mdl) := ⟨rfl, fieldOp_commandWord _ _ _ _⟩

theorem powerUp (mdl : Int) : Statement (.powerUp mdl) := ⟨rfl, fieldOp_commandWord _ _ _ _⟩

theorem scanLimit (mdl limit : Int) : Statement (.scanLimit mdl limit) := ⟨rfl, fieldOp_commandWord _ _ _ _⟩

theorem intensity (mdl level : Int) : Statement (.intensity mdl level) := ⟨rfl, fieldOp_commandWord _ _ _ _⟩

theorem setLedOff (mdl row col : Int) : Statement (.setLedOff mdl row col) := ⟨rfl, fieldOp_commandWord _ _ _ _⟩

theorem setLedOn (mdl row col : Int) : Statement (.setLedOn mdl row col) := ⟨rfl, fieldOp_commandWord _ _ _ _⟩

theorem setRow (mdl row : Int) (value : Byte) : Statement (.setRow mdl row value) := ⟨rfl, fieldOp_commandWord _ _ _ _⟩

theorem setColumn (mdl col : Int) (bits : Byte) : Statement (.setColumn mdl col bits) := ⟨rfl, fieldOp_commandWord _ _ _ _⟩

theorem clear (mdl : Int) : Statement (.clear mdl) := ⟨rfl, fieldOp_commandWord _ _ _ _⟩

theorem clearAll : Statement .clearAll := ⟨rfl, fieldOp_commandWord _ _ _ _⟩

theorem placeGlyph (ch : Byte) (pos : Int) : Statement (.placeGlyph ch pos) := ⟨rfl, fieldOp_commandWord16 _ _ _⟩

theorem wNoop : Statement .wNoop := ⟨rfl, slotOpcodeField_slotWord _ _⟩

theorem wRow0 (v : Byte) : Statement (.wRow0 v) := ⟨rfl, slotOpcodeField_slotWord _ _⟩

theorem wRow1 (v : Byte) : Statement (.wRow1 v) := ⟨rfl, slotOpcodeField_slotWord _ _⟩

theorem wRow2 (v : Byte) : Statement (.wRow2 v) := ⟨rfl, slotOpcodeField_slotWord _ _⟩

theorem wRow3 (v : Byte) : Statement (.wRow3 v) := ⟨rfl, slotOpcodeField_slotWord _ _⟩

theorem wRow4 (v : Byte) : Statement (.wRow4 v) := ⟨rfl, slotOpcodeField_slotWord _ _⟩

theorem wRow5 (v : Byte) : Statement (.wRow5 v) := ⟨rfl, slotOpcodeField_slotWord _ _⟩

theorem wRow6 (v : Byte) : Statement (.wRow6 v) := ⟨rfl, slotOpcodeField_slotWord _ _⟩

theorem wRow7 (v : Byte) : Statement (.wRow7 v) := ⟨rfl, slotOpcodeField_slotWord _ _⟩

theorem wDecode : Statement .wDecode := ⟨rfl, slotOpcodeField_slotWord _ _⟩

theorem wIntensity (v : BitVec 4) : Statement (.wIntensity v) := ⟨rfl, slotOpcodeField_slotWord _ _⟩

theorem wScanLimit (v : BitVec 3) : Statement (.wScanLimit v) := ⟨rfl, slotOpcodeField_slotWord _ _⟩

theorem wShutdown (v : BitVec 1) : Statement (.wShutdown v) := ⟨rfl, slotOpcodeField_slotWord _ _⟩

theorem wDisplayTest : Statement .wDisplayTest := ⟨rfl, slotOpcodeField_slotWord _ _⟩

end Sys2Proof.Laws.Opcode
end

