-- ==== Sys2Proof/Laws/Pseudo.lean ====
section
/-! SUPPORT. The host's expansions as items: all of them or none (rule R203), and the word of one placed glyph. -/

namespace Sys2Proof.Machine

/-- An expansion is refused exactly where one of its moves is (rule R203). -/
theorem hostItems_eq_none (l : List HostStep) : hostItems l = none ↔ ∃ x ∈ l, x.item = none := by
  induction l with
  | nil => simp [hostItems]
  | cons x l ih =>
    simp only [hostItems, List.mem_cons, exists_eq_or_imp, ← ih]
    cases x.item <;> cases hostItems l <;> simp

/-- Where an expansion is not refused, its items are those of its moves, in order. -/
theorem hostItems_map {l : List HostStep} {items : List HostItem} (h : hostItems l = some items) :
    l.map HostStep.item = items.map some := by
  induction l generalizing items with
  | nil => cases h; rfl
  | cons x l ih =>
    simp only [hostItems] at h
    split at h
    · rename_i y ys hy hys
      cases h
      rw [List.map_cons, List.map_cons, hy, ih hys]
    · cases h

/-- A placed glyph has a word exactly where its position fits the field (rule R203). -/
theorem item_placeGlyph (ch : Byte) (pos : Int) : (HostStep.command (.placeGlyph ch pos)).item =
    if fitsField16 pos then some (.command (commandWord16 0x30 ch (int16 pos))) else none := by
  by_cases h : fitsField16 pos = true <;> simp [HostStep.item, encode, Instr.wellFormed, encodeFields, h]

/-- The word of a placed glyph decodes to it. -/
theorem decodeCommand_placeGlyph (ch : Byte) {pos : Int} (h : fitsField16 pos = true) :
    decodeCommand (commandWord16 0x30 ch (int16 pos)) = .ok (.placeGlyph ch pos) := by
  simp [decodeCommand, toInt_int16 h]

end Sys2Proof.Machine
end

