-- ==== Sys2Proof/Laws/Steps.lean ====
section
/-! SUPPORT. One move of the sequencer and one step of the machine: what each leaves alone, and all that a step from rest
can be (rules R31, R34, R97, R280). -/

namespace Sys2Proof.Machine

/-- No move looks at the sequencer's position. -/
theorem perform_setSeq (cfg : Config) (s : State) (q : Option Sequencer) (a : Act) :
    ({ s with seq := q } : State).perform cfg a = { s.perform cfg a with seq := q } := by
  cases a with
  | pin l v =>
    cases l
    · rfl
    · simp only [State.perform, State.drive]; split <;> rfl
    · simp only [State.perform, State.drive]; split <;> rfl
  | _ => rfl

/-- No move changes the sequencer's position, the host's list or the strap. -/
theorem perform_outside (cfg : Config) (s : State) (a : Act) :
    (s.perform cfg a).seq = s.seq ∧ (s.perform cfg a).host = s.host ∧
      (s.perform cfg a).orientStrap = s.orientStrap ∧ (s.perform cfg a).rxPending = s.rxPending := by
  cases a with
  | pin l v =>
    cases l
    · exact ⟨rfl, rfl, rfl, rfl⟩
    · simp only [State.perform, State.drive]; split <;> exact ⟨rfl, rfl, rfl, rfl⟩
    · simp only [State.perform, State.drive]; split <;> exact ⟨rfl, rfl, rfl, rfl⟩
  | _ => exact ⟨rfl, rfl, rfl, rfl⟩

/-- A move adds at most one frame and at most one pin event to the traces (rules R9, R10). -/
theorem perform_logs (cfg : Config) (s : State) (a : Act) :
    ((s.perform cfg a).frameLog = s.frameLog ∨ (s.perform cfg a).frameLog = s.frame :: s.frameLog) ∧
      ((s.perform cfg a).pinLog = s.pinLog ∨ ∃ e, (s.perform cfg a).pinLog = e :: s.pinLog) := by
  cases a with
  | pin l v =>
    cases l
    · exact ⟨.inl rfl, .inr ⟨_, rfl⟩⟩
    · simp only [State.perform, State.drive]; split <;> exact ⟨.inl rfl, .inr ⟨_, rfl⟩⟩
    · simp only [State.perform, State.drive]; split <;> exact ⟨.inl rfl, .inr ⟨_, rfl⟩⟩
  | dataBit p i => exact ⟨.inl rfl, .inr ⟨_, rfl⟩⟩
  | emitFrame => exact ⟨.inr rfl, .inl rfl⟩
  | _ => exact ⟨.inl rfl, .inl rfl⟩

/-- A command word decodes to a command. -/
theorem isCommand_of_decodeCommand {w : CommandWord} {i : Instr} (h : decodeCommand w = .ok i) : i.isCommand = true := by
  unfold decodeCommand at h
  split at h <;> cases h <;> rfl

/-- A command that completes has made its moves (rule R34). -/
theorem exec_eq_run {s t : State} {i : Instr} (hi : i.isCommand = true) (he : exec i s = .next t) :
    ∃ acts, commandActs params s i = .ok acts ∧ t = s.run params acts := by
  cases i <;> simp only [Instr.isCommand, Bool.false_eq_true] at hi
  case configure count =>
    simp only [exec, execConfigure] at he
    split at he <;> cases he
    exact ⟨_, ‹_›, rfl⟩
  all_goals (cases he; exact ⟨_, rfl, rfl⟩)

/-- Everything a step from rest can be: `rst`, a command, or a step that only takes an item from the host's list. -/
theorem step_atRest {s t : State} (h : s.AtRest) (he : step s = .next t) :
    (∃ rest, s.host = .powerOnReset :: rest ∧ t = ({ s with host := rest } : State).powerOnReset) ∨
    (∃ rest w i, s.host = .command w :: rest ∧ decodeCommand w = .ok i ∧ exec i { s with host := rest } = .next t) ∨
    ∃ rest, t = { s with host := rest } := by
  obtain ⟨h1, h2⟩ := h
  have hr : s.cmdReady = true := by simp [State.cmdReady, State.busy, h1]
  unfold step State.fetch State.fetchHost at he
  rw [if_neg (by rw [h2]; decide)] at he
  simp only [hr, if_true] at he
  cases hh : s.host with
  | nil => rw [hh] at he; cases he; exact .inr (.inr ⟨[], by rw [← hh]⟩)
  | cons x rest =>
    rw [hh] at he
    cases x with
    | powerOnReset => cases he; exact .inl ⟨rest, rfl, rfl⟩
    | pause ms => cases he; exact .inr (.inr ⟨rest, rfl⟩)
    | command w =>
      simp only at he
      cases hd : decodeCommand w with
      | ok i => rw [hd] at he; simp only at he; exact .inr (.inl ⟨rest, w, i, rfl, hd, he⟩)
      | error e => rw [hd] at he; cases he; exact .inr (.inr ⟨rest, rfl⟩)

end Sys2Proof.Machine
end

