-- ==== Sys2Proof/Tests/Slice0.lean ====
section
/-! SUPPORT. Tests of the model against words and vectors written out by hand from the spec (its opcode table and
95_test_vectors.md), and for every statement a concrete state and operands that meet its hypotheses. -/

namespace Sys2Proof.Tests

open Sys2Proof.Machine

set_option Elab.async false

/-! ### Small states -/

/-- A configured block with three modules, all rows zero, the bus at rest. -/
def ready3 : State := { State.reset with
  configured := true
  n := 3
  pinsDriven := true
  dataPin := some false
  clkPin := some false
  latchPin := some true }

/-- The same with one module. -/
def ready1 : State := { ready3 with n := 1 }

/-- A block with one module after its rows were cleared once: the eight frames of CLEAR are its trace.  The chip is powered
up with the scan limit 3. -/
def conf1 : State := { ready1 with
  chips := State.reset.chips.set 0 { ChipRegs.zero with shutdown := 1, scanLimit := 3 }
  txbuf := State.reset.txbuf.set 1 8
  frameLog := [[0, 8], [0, 7], [0, 6], [0, 5], [0, 4], [0, 3], [0, 2], [0, 1]] }

/-- The unconfigured block to which `item` is presented. -/
def presented (item : HostItem) : State := { State.reset with host := [item] }

/-- A block in the middle of a command, to which a word is presented. -/
def busyState : State := { presented (.command 0x00000000) with seq := some { word := 0x25000000, rest := [.claimPins] } }

/-- The same with a move left after the next one. -/
def busyMidway : State := { busyState with seq := some { word := 0x25000000, rest := [.claimPins, .zeroRows] } }

/-- The state an answer carries; the reset state where it carries none. -/
def stateOf (r : Result) : State :=
  match r with
  | .next t => t
  | .fault _ => State.reset
  | .refused _ => State.reset

/-- The frames an answer's state has recorded. -/
def framesOf (r : Result) : List (List Byte) := (stateOf r).frameTrace

/-- Fixture PX (95_test_vectors.md, section 0). -/
def px : Glyph := #v[0x12, 0x34, 0x56, 0x78, 0x9A, 0xBC, 0xDE, 0xF0]

/-- Fixture PA (95_test_vectors.md, section 0). -/
def pa : Glyph := #v[0x18, 0x24, 0x42, 0x42, 0x7E, 0x42, 0x42, 0x00]

/-- The fixtures of 95_test_vectors.md: glyph X alone, intensity 8, every mode filling in direction `d`. -/
def fixture (d : FillDir) : Config := { params with
  fillDir := fun _ => d
  defaultIntensity := 8
  glyphUpper := fun i => if h : 184 ≤ i.val ∧ i.val ≤ 191 then px[i.val - 184]'(by omega) else 0
  glyphFallback := fun r => #v[0x00, 0x08, 0x14, 0x22, 0x14, 0x08, 0x00, 0x00][r] }

/-! ### WellFormed: every check refuses an ill-formed term -/

theorem test_illformed_count_and_position : (Instr.configure 32768).wellFormed = false ∧
    (Instr.configure (-32769)).wellFormed = false ∧ (Instr.placeGlyph 65 32768).wellFormed = false ∧
    (Instr.placeGlyph 65 (-32769)).wellFormed = false := by decide

theorem test_illformed_module : (Instr.powerDown 128).wellFormed = false ∧ (Instr.powerUp (-129)).wellFormed = false ∧
    (Instr.clear 128).wellFormed = false ∧ (Instr.scanLimit 128 0).wellFormed = false ∧
    (Instr.intensity (-129) 0).wellFormed = false ∧ (Instr.setLedOff 128 0 0).wellFormed = false ∧
    (Instr.setLedOn (-129) 0 0).wellFormed = false ∧ (Instr.setRow 128 0 0).wellFormed = false ∧
    (Instr.setColumn 128 0 0).wellFormed = false := by decide

theorem test_illformed_row_column_value : (Instr.scanLimit 0 128).wellFormed = false ∧
    (Instr.intensity 0 (-129)).wellFormed = false ∧ (Instr.setLedOff 0 128 0).wellFormed = false ∧
    (Instr.setLedOff 0 0 128).wellFormed = false ∧ (Instr.setLedOn 0 (-129) 0).wellFormed = false ∧
    (Instr.setLedOn 0 0 (-129)).wellFormed = false ∧ (Instr.setRow 0 128 0).wellFormed = false ∧
    (Instr.setColumn 0 128 0).wellFormed = false := by decide

theorem test_wellformed_at_the_bounds : (Instr.configure (-32768)).wellFormed = true ∧
    (Instr.placeGlyph 255 32767).wellFormed = true ∧ (Instr.setLedOn (-128) 127 (-128)).wellFormed = true := by decide

/-! ### Decode: words written out from the encodings of rules R80, R82, R91 and R92 -/

theorem test_decode_control_words : decodeCommand 0x00000000 = .ok .nop ∧
    decodeCommand 0x01000014 = .ok (.configure 20) ∧ decodeCommand 0x10000000 = .ok (.powerDown 0) ∧
    decodeCommand 0x11FF0000 = .ok (.powerUp (-1)) ∧ decodeCommand 0x12020007 = .ok (.scanLimit 2 7) ∧
    decodeCommand 0x13010006 = .ok (.intensity 1 6) := by decide

theorem test_decode_framebuffer_words : decodeCommand 0x20010300 = .ok (.setLedOff 1 3 0) ∧
    decodeCommand 0x21010307 = .ok (.setLedOn 1 3 7) ∧ decodeCommand 0x2200FF01 = .ok (.setRow 0 (-1) 1) ∧
    decodeCommand 0x230205B1 = .ok (.setColumn 2 5 0xB1) ∧ decodeCommand 0x24010000 = .ok (.clear 1) ∧
    decodeCommand 0x25000000 = .ok .clearAll ∧ decodeCommand 0x3058FFFD = .ok (.placeGlyph 88 (-3)) := by decide

theorem test_decode_row_slots : decodeSlot 0b1010010100000001 = .ok (.wRow0 0xA5) ∧
    decodeSlot 0b0000000100000010 = .ok (.wRow1 0x01) ∧ decodeSlot 0b1000000000000011 = .ok (.wRow2 0x80) ∧
    decodeSlot 0b0000000100000100 = .ok (.wRow3 0x01) ∧ decodeSlot 0b1111000000000101 = .ok (.wRow4 0xF0) ∧
    decodeSlot 0b0000111100000110 = .ok (.wRow5 0x0F) ∧ decodeSlot 0b0000001000000111 = .ok (.wRow6 0x02) ∧
    decodeSlot 0b1111111100001000 = .ok (.wRow7 0xFF) := by decide

theorem test_decode_control_slots : decodeSlot 0b0000000000000000 = .ok .wNoop ∧
    decodeSlot 0b0000000000001001 = .ok .wDecode ∧ decodeSlot 0b0000011000001010 = .ok (.wIntensity 6) ∧
    decodeSlot 0b0000011100001011 = .ok (.wScanLimit 7) ∧ decodeSlot 0b0000000100001100 = .ok (.wShutdown 1) ∧
    decodeSlot 0b0000000000001111 = .ok .wDisplayTest := by decide

theorem test_decode_reserved_words : decodeCommand 0x02000000 = .error (.reservedCommandCode 0x02) ∧
    decodeCommand 0x31000000 = .error (.reservedCommandCode 0x31) ∧
    decodeCommand 0xFF123456 = .error (.reservedCommandCode 0xFF) := by decide

theorem test_decode_slots_never_sent : decodeSlot 0x000D = .error (.unusedWireOpcode 0x0D) ∧
    decodeSlot 0x0110 = .error (.unusedWireOpcode 0x10) ∧ decodeSlot 0x100A = .error (.valueNeverSent 0x0A 0x10) ∧
    decodeSlot 0x010F = .error (.valueNeverSent 0x0F 0x01) := by decide

theorem test_decodeTableWord : decodeTableWord 32 0x25ABCDEF = some .clearAll ∧
    decodeTableWord 16 0xA501 = some (.wRow0 0xA5) ∧ decodeTableWord 32 0x26000000 = none := by decide

/-! ### Framebuffer commands: section 2.3 of 95_test_vectors.md -/

theorem test_setRow : framesOf (exec (.setRow 0 0 0xA5) ready3) = [[0, 0, 0, 0, 0xA5, 1]] ∧
    (stateOf (exec (.setRow 0 0 0xA5) ready3)).fbRow 0 0 = 0xA5 := by decide +kernel

theorem test_setRow_last_module : framesOf (exec (.setRow 2 7 0xFF) ready3) = [[0xFF, 8, 0, 0, 0, 0]] := by
  decide +kernel

theorem test_setLedOn : framesOf (exec (.setLedOn 1 3 7) (ready3.setFbRow 1 3 0x01)) = [[0, 0, 0x81, 4, 0, 0]] := by
  decide +kernel

theorem test_setLedOff : framesOf (exec (.setLedOff 1 3 0) (ready3.setFbRow 1 3 0x81)) = [[0, 0, 0x80, 4, 0, 0]] := by
  decide +kernel

theorem test_setColumn : framesOf (exec (.setColumn 2 5 0xB1) (ready3.setFbRow 2 7 0xFF)) =
    [[0x20, 1, 0, 0, 0, 0], [0, 2, 0, 0, 0, 0], [0, 3, 0, 0, 0, 0], [0, 4, 0, 0, 0, 0], [0x20, 5, 0, 0, 0, 0],
      [0x20, 6, 0, 0, 0, 0], [0, 7, 0, 0, 0, 0], [0xFF, 8, 0, 0, 0, 0]] := by decide +kernel

theorem test_clear : framesOf (exec (.clear 1) (ready3.setFbRow 1 3 0x80)) =
    [[0, 0, 0, 1, 0, 0], [0, 0, 0, 2, 0, 0], [0, 0, 0, 3, 0, 0], [0, 0, 0, 4, 0, 0], [0, 0, 0, 5, 0, 0],
      [0, 0, 0, 6, 0, 0], [0, 0, 0, 7, 0, 0], [0, 0, 0, 8, 0, 0]] := by decide +kernel

theorem test_clearAll : framesOf (exec .clearAll ready1) =
    [[0, 1], [0, 2], [0, 3], [0, 4], [0, 5], [0, 6], [0, 7], [0, 8]] := by decide +kernel

theorem test_dropped_addresses : exec (.setLedOn 3 0 0) ready3 = .next ready3 ∧
    exec (.setLedOn (-1) 0 0) ready3 = .next ready3 ∧ exec (.setLedOff 0 8 0) ready3 = .next ready3 ∧
    exec (.setColumn 0 8 0xFF) ready3 = .next ready3 ∧ exec (.clear 3) ready3 = .next ready3 ∧
    exec (.setRow 0 (-1) 1) ready3 = .next ready3 := ⟨rfl, rfl, rfl, rfl, rfl, rfl⟩

/-! ### Device control: sections 2.5 and 3 (P1) -/

theorem test_intensity : framesOf (exec (.intensity 1 6) ready3) = [[0, 0, 6, 10, 0, 0]] ∧
    (stateOf (exec (.intensity 1 6) ready3)).chips[1].intensity = 6 := by decide +kernel

theorem test_scanLimit : framesOf (exec (.scanLimit 2 7) ready3) = [[7, 11, 0, 0, 0, 0]] := by decide +kernel

theorem test_powerDown : framesOf (exec (.powerDown 0) ready3) = [[0, 0, 0, 0, 0, 12]] := by decide +kernel

theorem test_powerUp : framesOf (exec (.powerUp 2) ready3) = [[1, 12, 0, 0, 0, 0]] ∧
    (stateOf (exec (.powerUp 2) ready3)).chips[2].shutdown = 1 := by decide +kernel

theorem test_dropped_values : exec (.intensity 0 16) ready3 = .next ready3 ∧
    exec (.intensity 0 (-1)) ready3 = .next ready3 ∧ exec (.scanLimit 0 8) ready3 = .next ready3 ∧
    exec (.powerUp (-1)) ready3 = .next ready3 ∧ exec (.configure 2) ready3 = .next ready3 :=
  ⟨rfl, rfl, rfl, rfl, rfl⟩

theorem test_configure_frames : (State.reset.run (fixture .up) (configureBody (fixture .up) 1 .mirroredMount)).frameTrace =
    [[0, 15], [7, 11], [0, 9], [0, 1], [0, 2], [0, 3], [0, 4], [0, 5], [0, 6], [0, 7], [0, 8], [0, 12], [8, 10],
      [1, 12], [0, 1], [0, 2], [0, 3], [0, 4], [0, 5], [0, 6], [0, 7], [0, 8]] := by decide +kernel

theorem test_configure_chip : (State.reset.run (fixture .up) (configureBody (fixture .up) 1 .mirroredMount)).chips[0] =
    { ChipRegs.zero with scanLimit := 7, shutdown := 1, intensity := 8 } := by decide +kernel

theorem test_configure_clamps : clampCount 20 = 8 ∧ clampCount 0 = 8 ∧ clampCount (-1) = 8 ∧ clampCount 9 = 8 ∧
    clampCount 8 = 8 ∧ clampCount 1 = 1 ∧ clampCount 3 = 3 := by decide

theorem test_nop : exec .nop ready3 = .next ready3 := rfl

/-! ### The text path: sections 2.2, 2.6 and 2.7 -/

theorem test_transform : transform px .clockwiseMount = #v[0x00, 0xAA, 0x66, 0x1E, 0xFF, 0x55, 0x33, 0x0F] ∧
    transform px .counterClockwiseMount = #v[0xF0, 0xCC, 0xAA, 0xFF, 0x78, 0x66, 0x55, 0x00] ∧
    transform px .mirroredMount = #v[0xF0, 0xDE, 0xBC, 0x9A, 0x78, 0x56, 0x34, 0x12] := by decide

theorem test_transform_letter : transform pa .clockwiseMount = #v[0x00, 0x3E, 0x48, 0x88, 0x88, 0x48, 0x3E, 0x00] ∧
    transform pa .counterClockwiseMount = #v[0x00, 0x7C, 0x12, 0x11, 0x11, 0x12, 0x7C, 0x00] := by decide

theorem test_lookup : lookup (fixture .up) 88 = px ∧ lookup (fixture .up) 32 = #v[0, 0, 0, 0, 0, 0, 0, 0] ∧
    lookup (fixture .up) 64 = #v[0x00, 0x08, 0x14, 0x22, 0x14, 0x08, 0x00, 0x00] := by decide +kernel

/-- MIR, Up, N = 2, position 15: eight pushes, rows 4 to 7 of module 1 become 80. -/
theorem test_placeGlyph_right_edge :
    let s : State := { ready3 with n := 2, orientQ := .mirroredMount }
    (s.run (fixture .up) (placeGlyphActs (fixture .up) s 88 15)).fb[1] = #v[0, 0, 0, 0, 0x80, 0x80, 0x80, 0x80] := by
  decide +kernel

/-- MIR, Down, N = 2, position -7: rows 1 and 4 of module 0 become 80. -/
theorem test_placeGlyph_left_edge :
    let s : State := { ready3 with n := 2, orientQ := .mirroredMount }
    (s.run (fixture .down) (placeGlyphActs (fixture .down) s 88 (-7))).fb[0] = #v[0, 0x80, 0, 0, 0x80, 0, 0, 0] := by
  decide +kernel

theorem test_compact_positions : placeStringCompact [65, 66, 67] 0 =
    [.command (.placeGlyph 65 (-1)), .command (.placeGlyph 66 6), .command (.placeGlyph 67 12)] := by decide

theorem test_scroll_steps : (scrollPositions 1 2).length = 24 ∧ (scrollPositions 1 2)[23]? = some (-15) ∧
    (scrollPositions 3 4).length = 56 ∧ (scrollPositions 1 0).length = 8 := by decide

theorem test_scroll_words : (hostItems (scroll 1 [72, 73] 10)).map (fun l => l.take 4) =
    some [.command 0x30480008, .command 0x30490010, .pause 10, .command 0x30480007] := by decide

theorem test_position_out_of_field_is_refused : hostItems (placeString [65] 32768) = none := by decide

/-! ### The wire: sections 2.4 and 2.8 -/

theorem test_frames : frameOf params 1 0 10 6 = [6, 10] ∧ frameOf params 2 0 10 6 = [0, 0, 6, 10] ∧
    frameOf params 3 2 10 6 = [6, 10, 0, 0, 0, 0] ∧
    frameOf params 8 7 10 6 = [6, 10, 0, 0, 0, 0, 0, 0, 0, 0, 0, 0, 0, 0, 0, 0] := by decide

/-- The DATA levels of `setRow(0,0,0xA5)`, N = 1: 1010 0101 0000 0001; fifty pin events. -/
theorem test_pin_trace : (stateOf (exec (.setRow 0 0 0xA5) ready1)).pinTrace.length = 50 ∧
    ((stateOf (exec (.setRow 0 0 0xA5) ready1)).pinTrace.filter fun e => e.line == .data).map PinEvent.level =
      [true, false, true, false, false, true, false, true, false, false, false, false, false, false, false, true] := by
  decide +kernel

theorem test_chain_receives : (stateOf (exec (.intensity 1 6)
    { ready3 with sr := #v[0xFFFF, 0x1234, 0xABCD, 0, 0, 0, 0, 0] })).sr = #v[0, 0x060A, 0, 0, 0, 0, 0, 0] := by
  decide +kernel

/-- Eight edges of a byte 06 into DEAD, BEEF (the last row of section 2.8). -/
theorem test_chain_cascades :
    let s : State := { ready3 with n := 2, txbuf := State.reset.txbuf.set 0 0x06,
                                   sr := #v[0xDEAD, 0xBEEF, 0, 0, 0, 0, 0, 0] }
    (s.run params (byteCells 0)).sr = #v[0xAD06, 0xEFDE, 0, 0, 0, 0, 0, 0] := by decide +kernel

theorem test_wire_slot_row : (stateOf (step (ready3.withSlotWord 0xA508))).chips[0].row[7] = 0xA5 ∧
    (stateOf (step (ready3.withSlotWord 0xA508))).rx = 1 := by decide +kernel

theorem test_wire_slot_never_sent : (stateOf (step (ready3.withSlotWord 0x1F0A))).chips[0].intensity = 15 := by
  decide +kernel

/-! ### Steps -/

theorem test_step_command : framesOf (step (ready3.withFetchWord 32 0x13010006)) = [[0, 0, 6, 10, 0, 0]] := by
  decide +kernel

theorem test_step_reserved : step (presented (.command 0x02000000)) = .next State.reset := rfl

theorem test_sequencer_begins_busy : (stateOf (ready1.beginCommand params 0x220000A5 (.setRow 0 0 0xA5))).busy = true ∧
    ((stateOf (ready1.beginCommand params 0x220000A5 (.setRow 0 0 0xA5))).ticks params 53).busy = false := by
  decide +kernel

/-! ### A state and operands that meet the hypotheses of each statement -/

theorem ready3_ready : ready3.Ready := ⟨rfl, ⟨rfl, rfl, rfl⟩, by decide⟩

theorem reset_released : State.reset.Released := ⟨rfl, rfl, rfl, rfl, rfl, rfl⟩

theorem witness_StepRunsThePresentedCommand : (presented (.command 0x220000FF)).rxPending = false ∧
    (presented (.command 0x220000FF)).busy = false ∧
    (presented (.command 0x220000FF)).host = .command 0x220000FF :: [] ∧
    decodeCommand 0x220000FF = .ok (.setRow 0 0 0xFF) := by decide

theorem witness_StepRunsTheSlotOfTheChip : (State.reset.withSlotWord 0x0501).rxPending = true ∧
    decodeSlot (State.reset.withSlotWord 0x0501).sr[(State.reset.withSlotWord 0x0501).rx] = .ok (.wRow0 5) := by decide

theorem witness_NopAndReservedCodesDoNothing : (presented (.command 0x02000000)).rxPending = false ∧
    (presented (.command 0x02000000)).busy = false ∧
    (presented (.command 0x02000000)).host = .command 0x02000000 :: [] ∧
    (fieldOp 0x02000000).toNat ∉ [0x00, 0x01, 0x10, 0x11, 0x12, 0x13, 0x20, 0x21, 0x22, 0x23, 0x24, 0x25, 0x30] ∧
    (fieldOp 0xFF123456).toNat ∉ [0x00, 0x01, 0x10, 0x11, 0x12, 0x13, 0x20, 0x21, 0x22, 0x23, 0x24, 0x25, 0x30] := by
  decide

theorem witness_BusyBlockTakesNoCommand : busyState.rxPending = false ∧ busyState.busy = true ∧
    busyState.host = .command 0x00000000 :: [] ∧ (∀ rest, busyState.host ≠ .powerOnReset :: rest) ∧
    busyState.seq = some { word := 0x25000000, rest := .claimPins :: [] } ∧
    (∃ q, (busyMidway.tick params).seq = some q) ∧ busyMidway.busy = true :=
  ⟨rfl, rfl, rfl, fun _ h => (by cases h), rfl, ⟨_, rfl⟩, rfl⟩

theorem witness_PowerOnResetReleasesTheBlock : (presented .powerOnReset).rxPending = false ∧
    (presented .powerOnReset).host = .powerOnReset :: [] := by decide

theorem witness_PauseAndWaitingChangeNothing : State.reset.rxPending = false ∧ State.reset.busy = false ∧
    State.reset.host = [] ∧ (presented (.pause 10)).rxPending = false ∧ (presented (.pause 10)).busy = false ∧
    (presented (.pause 10)).host = .pause 10 :: [] := by decide

/-- A valid address at the upper bound and each failing check at its bounds: SETLED, SETROW, SETCOLUMN, CLEAR, CLEARALL
and the power commands. -/
theorem witness_valid_and_failing_addresses : ready3.Ready ∧ (2 : Fin 8).val < ready3.n.toNat ∧
    State.reset.configured = false ∧ ¬ (0 ≤ (3 : Int) ∧ (3 : Int) < (ready3.n.toNat : Int)) ∧
    ¬ (0 ≤ (-1 : Int) ∧ (-1 : Int) < (ready3.n.toNat : Int)) ∧ ¬ (0 ≤ (8 : Int) ∧ (8 : Int) ≤ 7) ∧
    ¬ (0 ≤ (-1 : Int) ∧ (-1 : Int) ≤ 7) :=
  ⟨ready3_ready, by decide, rfl, by decide, by decide, by decide, by decide⟩

theorem witness_SetLedChangesOneBitAndPushesTheRow : ready3.Ready ∧ (2 : Fin 8).val < ready3.n.toNat ∧
    (State.reset.configured = false ∨ ¬ (0 ≤ (0 : Int) ∧ (0 : Int) < (State.reset.n.toNat : Int)) ∨
      ¬ (0 ≤ (0 : Int) ∧ (0 : Int) ≤ 7) ∨ ¬ (0 ≤ (0 : Int) ∧ (0 : Int) ≤ 7)) :=
  ⟨ready3_ready, by decide, .inl rfl⟩

theorem witness_SetRowReplacesARowAndPushesIt : ready3.Ready ∧ (2 : Fin 8).val < ready3.n.toNat ∧
    (ready3.configured = false ∨ ¬ (0 ≤ (0 : Int) ∧ (0 : Int) < (ready3.n.toNat : Int)) ∨
      ¬ (0 ≤ (8 : Int) ∧ (8 : Int) ≤ 7)) :=
  ⟨ready3_ready, by decide, .inr (.inr (by decide))⟩

theorem witness_SetColumnIsEightSetLeds : ready3.Ready ∧ (0 : Fin 8).val < ready3.n.toNat ∧
    (ready3.configured = false ∨ ¬ (0 ≤ (3 : Int) ∧ (3 : Int) < (ready3.n.toNat : Int)) ∨
      ¬ (0 ≤ (7 : Int) ∧ (7 : Int) ≤ 7)) :=
  ⟨ready3_ready, by decide, .inr (.inl (by decide))⟩

theorem witness_ClearZeroesAndPushesEveryRow : State.reset.configured = false ∧ ready3.Ready ∧
    (2 : Fin 8).val < ready3.n.toNat ∧ (ready3.configured = false ∨ ¬ (0 ≤ (3 : Int) ∧ (3 : Int) < (ready3.n.toNat : Int))) :=
  ⟨rfl, ready3_ready, by decide, .inr (by decide)⟩

theorem witness_FramebufferCommandsChangeOnlyTheirCells : ready3.Ready ∧ (2 : Fin 8).val < ready3.n.toNat :=
  ⟨ready3_ready, by decide⟩

/-- Words for the decoding clauses of the statements about SETLED, SETROW, the power commands and the setters. -/
theorem witness_words_of_the_commands : fieldOp 0x20010300 = 0x20 ∧ fieldOp 0x21FF0307 = 0x21 ∧
    fieldOp 0x2202FFA5 = 0x22 ∧ fieldOp 0x10FF0000 = 0x10 ∧ fieldOp 0x11020000 = 0x11 ∧ fieldOp 0x120000FF = 0x12 ∧
    fieldOp 0x1301000F = 0x13 := by decide

/-- Each of the five alternatives, at the last module, row and column. -/
theorem witness_FramebufferCommandsLeaveControlStateAlone : ready3.Ready ∧ (2 : Fin 8).val < ready3.n.toNat ∧
    ∀ i ∈ [Instr.setLedOff 2 7 7, .setLedOn 2 7 7, .setRow 2 7 0xFF, .setColumn 2 7 0xFF, .clear 2],
      i = .setLedOff (2 : Fin 8).val (7 : Fin 8).val (7 : Fin 8).val ∨
        i = .setLedOn (2 : Fin 8).val (7 : Fin 8).val (7 : Fin 8).val ∨
        i = .setRow (2 : Fin 8).val (7 : Fin 8).val 0xFF ∨ i = .setColumn (2 : Fin 8).val (7 : Fin 8).val 0xFF ∨
        i = .clear (2 : Fin 8).val :=
  ⟨ready3_ready, by decide, by decide⟩

theorem witness_PowerCommandsSendOneShutdownWrite : ready3.Ready ∧ (2 : Fin 8).val < ready3.n.toNat ∧
    (ready3.configured = false ∨ ¬ (0 ≤ (-1 : Int) ∧ (-1 : Int) < (ready3.n.toNat : Int))) :=
  ⟨ready3_ready, by decide, .inr (by decide)⟩

theorem witness_ScanLimitSendsALimitUpToSeven : ready3.Ready ∧ (2 : Fin 8).val < ready3.n.toNat ∧ (7 : Nat) ≤ 7 ∧
    (ready3.configured = false ∨ ¬ (0 ≤ (0 : Int) ∧ (0 : Int) < (ready3.n.toNat : Int)) ∨
      ¬ (0 ≤ (8 : Int) ∧ (8 : Int) ≤ 7)) :=
  ⟨ready3_ready, by decide, by decide, .inr (.inr (by decide))⟩

theorem witness_IntensitySendsALevelUpToFifteen : ready3.Ready ∧ (2 : Fin 8).val < ready3.n.toNat ∧ (15 : Nat) ≤ 15 ∧
    (ready3.configured = false ∨ ¬ (0 ≤ (0 : Int) ∧ (0 : Int) < (ready3.n.toNat : Int)) ∨
      ¬ (0 ≤ (16 : Int) ∧ (16 : Int) ≤ 15)) :=
  ⟨ready3_ready, by decide, by decide, .inr (.inr (by decide))⟩

/-- Each of the four alternatives, at the last module and the largest values. -/
theorem witness_SettersReachOneRegisterOfOneChip : ready3.Ready ∧ (2 : Fin 8).val < ready3.n.toNat ∧
    ∀ x ∈ [(Instr.powerDown 2, { ChipRegs.zero with shutdown := 0 }), (.powerUp 2, { ChipRegs.zero with shutdown := 1 }),
        (.scanLimit 2 7, { ChipRegs.zero with scanLimit := 7 }), (.intensity 2 15, { ChipRegs.zero with intensity := 15 })],
      (x.1 = .powerDown (2 : Fin 8).val ∧ x.2 = { ready3.chips[(2 : Fin 8)] with shutdown := 0 }) ∨
        (x.1 = .powerUp (2 : Fin 8).val ∧ x.2 = { ready3.chips[(2 : Fin 8)] with shutdown := 1 }) ∨
        (x.1 = .scanLimit (2 : Fin 8).val (7 : BitVec 3).toNat ∧
          x.2 = { ready3.chips[(2 : Fin 8)] with scanLimit := 7 }) ∨
        (x.1 = .intensity (2 : Fin 8).val (15 : BitVec 4).toNat ∧
          x.2 = { ready3.chips[(2 : Fin 8)] with intensity := 15 }) :=
  ⟨ready3_ready, by decide, by decide⟩

/-- The counts 1 and 8, and 0, 9 and -1 outside them. -/
theorem witness_ConfigureClampsTheCountAndRunsTheSequence : ready3.configured = true ∧
    State.reset.configured = false ∧ State.reset.latchPin = none ∧
    orientOfStrap State.reset.orientStrap = some .clockwiseMount ∧
    (1 ≤ (1 : Int) ∧ (1 : Int) ≤ 8 → ((1 : BitVec 4).toNat : Int) = 1) ∧
    (1 ≤ (8 : Int) ∧ (8 : Int) ≤ 8 → ((8 : BitVec 4).toNat : Int) = 8) ∧
    (¬ (1 ≤ (0 : Int) ∧ (0 : Int) ≤ 8) → (8 : BitVec 4) = 8) ∧ ¬ (1 ≤ (9 : Int) ∧ (9 : Int) ≤ 8) ∧
    ¬ (1 ≤ (-1 : Int) ∧ (-1 : Int) ≤ 8) := by decide

theorem witness_ReservedStrapIsRefused : ({ State.reset with orientStrap := 3 } : State).configured = false ∧
    ({ State.reset with orientStrap := 3 } : State).orientStrap = 3 := by decide

theorem witness_ConfigureLeavesTheStartUpState : State.reset.configured = false ∧ State.reset.Released ∧
    orientOfStrap State.reset.orientStrap = some .clockwiseMount := ⟨rfl, reset_released, rfl⟩

theorem witness_NoCommandChangesTheControlRegisters : ready3.Ready ∧ Instr.isCommand .clearAll = true :=
  ⟨ready3_ready, rfl⟩

theorem witness_DroppedCommandsLeaveNoTrace : ready3.Drops (.configure 2) ∧ ready3.Drops (.setLedOn 0 8 0) ∧
    ready3.Drops (.intensity 0 16) ∧ State.reset.Drops (.placeGlyph 65 0) :=
  ⟨rfl, .inr (.inr (.inl (by decide))), .inr (.inr (by decide)), rfl⟩

theorem witness_PlaceGlyphSetsTheColumnsOnTheChain : State.reset.configured = false ∧ ready3.Ready :=
  ⟨rfl, ready3_ready⟩

/-- A glyph at column -1 leaves column 23 of a chain of three modules alone and covers column 0. -/
theorem witness_PlaceGlyphEffectInOneFormula : ready3.Ready ∧
    (∃ x, colMap params ready3.orientQ ready3.n (-1 + ((1 : Fin 8).val : Int)) = some x) ∧
    colMap params ready3.orientQ ready3.n (-1 + ((0 : Fin 8).val : Int)) = none :=
  ⟨ready3_ready, ⟨_, rfl⟩, rfl⟩

theorem witness_LogicalColumnsMapOneToOne : (3 : BitVec 4).toNat ≤ 8 ∧ ¬ (0 ≤ (-1 : Int) ∧ (-1 : Int) < 8 * ((3 : BitVec 4).toNat : Int)) ∧
    ¬ (0 ≤ (24 : Int) ∧ (24 : Int) < 8 * ((3 : BitVec 4).toNat : Int)) ∧
    (0 ≤ (23 : Int) ∧ (23 : Int) < 8 * ((3 : BitVec 4).toNat : Int)) ∧
    (0 ≤ (0 : Int) ∧ (0 : Int) < 8 * ((3 : BitVec 4).toNat : Int)) ∧
    ∃ x, colMap params .mirroredMount 3 23 = some x :=
  ⟨by decide, by decide, by decide, by decide, by decide, _, rfl⟩

theorem witness_LookupReadsItsTableOrTheFallback : (65 : Byte).toNat = 65 + (0 : Fin 26).val ∧
    (90 : Byte).toNat = 65 + (25 : Fin 26).val ∧ (97 : Byte).toNat = 97 + (0 : Fin 26).val ∧
    (122 : Byte).toNat = 97 + (25 : Fin 26).val ∧ (48 : Byte).toNat = 48 + (0 : Fin 10).val ∧
    (57 : Byte).toNat = 48 + (9 : Fin 10).val ∧ (32 : Byte).toNat = 32 ∧
    ∀ ch ∈ [64, 91, 96, 123, 47, 58, 0, 255], ¬ (65 ≤ ch ∧ ch ≤ 90) ∧ ¬ (97 ≤ ch ∧ ch ≤ 122) ∧
      ¬ (48 ≤ ch ∧ ch ≤ 57) ∧ ch ≠ 32 := by decide

theorem witness_FrameCarriesOnePairAndZeros : (7 : Fin 8).val < (8 : BitVec 4).toNat ∧ 15 < 2 * (8 : BitVec 4).toNat ∧
    (0 : Fin 8).val < (1 : BitVec 4).toNat := by decide

theorem witness_FramePinsAreBitCellsBetweenLatchEdges : ([0xA5, 0x01] : List Byte)[15 / 8]? = some 0x01 ∧
    ([0xA5, 0x01] : List Byte)[0 / 8]? = some 0xA5 := by decide

theorem witness_SetRowPutsItsFrameOnTheWire : ready1.Ready ∧ (0 : Fin 8).val < ready1.n.toNat :=
  ⟨⟨rfl, ⟨rfl, rfl, rfl⟩, by decide⟩, by decide⟩

theorem witness_FrameLandsInTheRightChip : ready3.Ready ∧ (2 : Fin 8).val < ready3.n.toNat ∧
    ¬ ((3 : Fin 8).val < ready3.n.toNat) := ⟨ready3_ready, by decide, by decide⟩

theorem witness_CommitExecutesTheDecodedSlot : decodeSlot (State.reset.withSlotWord 0x010C).sr[
    (State.reset.withSlotWord 0x010C).rx] = .ok (.wShutdown 1) := by decide

/-- Two machines that differ in the chain alone. -/
theorem witness_BlockNeverDependsOnTheChain :
    ready3.SameBlock { ready3 with sr := ready3.sr.set 1 0xBEEF, chips := ready3.chips.set 2 { ChipRegs.zero with decode := 255 } } ∧
    ready3.sr ≠ ready3.sr.set 1 0xBEEF ∧ Instr.isCommand (.configure 1) = true :=
  ⟨⟨rfl, rfl, rfl, rfl, rfl, rfl, rfl, rfl, rfl, rfl, rfl, rfl, rfl, rfl⟩, by decide, rfl⟩

theorem witness_CommandsSendOnlyLegalFrames :
    (Instr.isCommand .clearAll = true ∧ ready3.Ready ∧ ∃ t, exec .clearAll ready3 = .next t) ∧
    (State.reset.configured = false ∧ State.reset.Released ∧ ∃ t, exec (.configure 1) State.reset = .next t) :=
  ⟨⟨rfl, ready3_ready, _, rfl⟩, rfl, reset_released, _, rfl⟩

theorem witness_unconfigured_Inv (item : HostItem) : (presented item).Inv :=
  ⟨⟨rfl, rfl⟩, fun _ => reset_released, fun h => absurd h (by decide : ¬ State.reset.configured = true)⟩

theorem conf1_configured : conf1.Configured params where
  length_legal := by decide
  busIdle := ⟨rfl, rfl, rfl⟩
  dataDriven := rfl
  agrees := by unfold State.Agrees; decide
  spareZero := by unfold State.SpareRowsZero; decide
  rawBitmap := by unfold State.RawBitmap; decide
  framesLegal := by
    intro f hf
    have h : ∃ r : Fin 8, f = frameOf params 1 0 (params.opcRow r) 0 := by revert f; decide
    obtain ⟨r, rfl⟩ := h
    exact ⟨0, by decide, .inl ⟨r, 0, rfl⟩⟩
  bufferIsLast := by decide

theorem witness_configured_Inv (items : List HostItem) : ({ conf1 with host := items } : State).Inv :=
  ⟨⟨rfl, rfl⟩, fun h => absurd h (by decide : ¬ conf1.configured = false), fun _ =>
    ⟨conf1_configured.1, conf1_configured.2, conf1_configured.3, conf1_configured.4, conf1_configured.5,
      conf1_configured.6, conf1_configured.7, conf1_configured.8⟩⟩

/-- The same block with its chip powered down. -/
def conf1Down : State := { conf1 with chips := State.reset.chips }

theorem witness_powered_down_Inv : conf1Down.Inv :=
  ⟨⟨rfl, rfl⟩, fun h => absurd h (by decide : ¬ conf1.configured = false), fun _ =>
    ⟨conf1_configured.1, conf1_configured.2, conf1_configured.3, by unfold State.Agrees; decide, conf1_configured.5,
      by unfold State.RawBitmap; decide, conf1_configured.7, conf1_configured.8⟩⟩

/-- A powered-up chip with the rows 3 and 4 on both sides of its scan limit, a powered-down chip, and a block to configure. -/
theorem witness_ConfiguredDisplayShowsTheFramebuffer :
    (conf1.Inv ∧ conf1.configured = true ∧ (0 : Fin 8).val < conf1.n.toNat ∧
      conf1.chips[0].shutdown = params.valPowerUp.setWidth 1 ∧ (3 : Fin 8).val ≤ conf1.chips[0].scanLimit.toNat ∧
      conf1.chips[0].scanLimit.toNat < (4 : Fin 8).val) ∧
    (conf1Down.Inv ∧ conf1Down.chips[0].shutdown = params.valPowerDown.setWidth 1) ∧
    ({ State.reset with orientStrap := 2 } : State).configured = false ∧
    ({ State.reset with orientStrap := 2 } : State).Released ∧
    orientOfStrap ({ State.reset with orientStrap := 2 } : State).orientStrap = some .mirroredMount :=
  ⟨⟨witness_configured_Inv [], rfl, by decide, by decide, by decide, by decide⟩,
    ⟨witness_powered_down_Inv, by decide⟩, rfl, reset_released, rfl⟩

/-- Both sides of the invariant, each with a step that completes: CONFIGURE from reset, and CLEARALL of a configured block. -/
theorem witness_ConfiguredStateStaysSound :
    ((presented (.command 0x01000001)).Inv ∧ ∃ t, step (presented (.command 0x01000001)) = .next t) ∧
    (({ conf1 with host := [.command 0x25000000] } : State).Inv ∧
      ∃ t, step { conf1 with host := [.command 0x25000000] } = .next t) :=
  ⟨⟨witness_unconfigured_Inv _, _, rfl⟩, witness_configured_Inv _, _, rfl⟩

theorem conf1_holdsLastSent : conf1.HoldsLastSent := by
  intro _
  decide

theorem witness_FramebufferEqualsLastSentValue : conf1.Inv ∧ conf1.HoldsLastSent ∧ conf1.configured = true ∧
    ∃ t, step { conf1 with host := [.command 0x2200FF01] } = .next t :=
  ⟨witness_configured_Inv [], conf1_holdsLastSent, rfl, _, rfl⟩

theorem witness_ChainLengthAndOrientationAreFixedOnce :
    ({ conf1 with host := [.command 0x01000002] } : State).Inv ∧ conf1.configured = true ∧
    (∀ rest, ({ conf1 with host := [.command 0x01000002] } : State).host ≠ .powerOnReset :: rest) ∧
    ∃ t, step { conf1 with host := [.command 0x01000002] } = .next t :=
  ⟨witness_configured_Inv _, rfl, fun _ h => (by cases h), _, rfl⟩

theorem witness_TracesOnlyGrow : (∀ rest, (presented (.command 0x01000001)).host ≠ .powerOnReset :: rest) ∧
    ∃ t, step (presented (.command 0x01000001)) = .next t := ⟨fun _ h => (by cases h), _, rfl⟩

theorem witness_AtomicCommandIsTheSequencersRun : ready1.seq = none ∧
    decodeCommand 0x220000A5 = .ok (.setRow 0 0 0xA5) ∧ ∃ t, exec (.setRow 0 0 0xA5) ready1 = .next t :=
  ⟨rfl, by decide, _, rfl⟩

theorem witness_DecodeEncodeRoundTrip : (Instr.setLedOn (-128) 127 0).wellFormed = true ∧
    (Instr.setLedOn (-129) 0 0).wellFormed = false := by decide

/-- For each format two words that differ in the ignored fields alone; where a format ignores none, two equal words. -/
theorem witness_IgnoredFieldsDoNotMatter : decodeCommand 0x25123456 = .ok .clearAll ∧
    (fieldOp 0x25123456 = fieldOp 0x25000000 ∧ (fieldOp 0x25123456).toNat ∈ [0x00, 0x25]) ∧
    (fieldOp 0x01FF8000 = fieldOp 0x01008000 ∧ (fieldOp 0x01FF8000).toNat ∈ [0x01] ∧
      fieldBC 0x01FF8000 = fieldBC 0x01008000) ∧
    (fieldOp 0x10800001 = fieldOp 0x1080FF00 ∧ (fieldOp 0x10800001).toNat ∈ [0x10, 0x11, 0x24] ∧
      fieldA 0x10800001 = fieldA 0x1080FF00) ∧
    (fieldOp 0x137F010F = fieldOp 0x137FFF0F ∧ (fieldOp 0x137F010F).toNat ∈ [0x12, 0x13] ∧
      fieldA 0x137F010F = fieldA 0x137FFF0F ∧ fieldC 0x137F010F = fieldC 0x137FFF0F) ∧
    (fieldOp 0x23020780).toNat ∈ [0x20, 0x21, 0x22, 0x23] ∧ (fieldOp 0x30FFFFFF).toNat ∈ [0x30] := by decide

theorem witness_StringsExpandToPlacedGlyphs : ([72, 73] : List Byte)[0]? = some 72 ∧
    ([72, 73] : List Byte)[1]? = some 73 := by decide

/-- A string and a compact string with every position inside the field, up to its last position, and one with its second
position outside. -/
theorem witness_StringsAreEncodedOrRefused :
    (∀ i : Nat, i < ([72, 73] : List Byte).length → -32768 ≤ (32759 : Int) + 8 * (i : Int) ∧
      (32759 : Int) + 8 * (i : Int) ≤ 32767) ∧
    (∀ i : Nat, i < ([72, 73] : List Byte).length →
      -32768 ≤ (if i = 0 then (-32767 : Int) - 1 else -32767 + 6 * (i : Int)) ∧
        (if i = 0 then (-32767 : Int) - 1 else -32767 + 6 * (i : Int)) ≤ 32767) ∧
    (1 < ([72, 73] : List Byte).length ∧
      ¬ (-32768 ≤ (32760 : Int) + 8 * ((1 : Nat) : Int) ∧ (32760 : Int) + 8 * ((1 : Nat) : Int) ≤ 32767)) := by decide

theorem witness_ScrollVisitsEveryPosition : (23 : Nat) < 8 * 1 + 8 * ([72, 73] : List Byte).length := by decide

end Sys2Proof.Tests
end

-- Proofs of the scope family (00_scope.md): single moves, the step from any state, commands on a ready block.
section
/-! SUPPORT. What one move does to the chips and the traces, what a step that is not at rest can be, and what every
command does on a ready block, each said once (rules R7, R10, R11, R62, R282). -/

namespace Sys2Proof.Machine

/-! ### Edges: when a pin move reaches the chips -/

theorem risingEdge_iff {old : Option Bool} {level : Bool} :
    risingEdge old level = true ↔ level = true ∧ old = some false := by
  simp [risingEdge, and_comm]

/-- A pin move commits the chips at a rising edge of LATCH_N only (rules R62, R224). -/
theorem drive_chips (cfg : Config) (s : State) (line : Line) (level : Bool) :
    (s.drive cfg line level).chips = s.chips ∨ (line = .latchN ∧ level = true ∧ s.latchPin = some false) := by
  cases line with
  | data => exact .inl rfl
  | clk =>
    dsimp only [State.drive]
    split <;> exact .inl rfl
  | latchN =>
    dsimp only [State.drive]
    split
    · rename_i hedge
      exact .inr ⟨rfl, risingEdge_iff.mp hedge⟩
    · exact .inl rfl

/-- A pin move shifts the chips at a rising edge of CLK only (rules R62, R221). -/
theorem drive_sr (cfg : Config) (s : State) (line : Line) (level : Bool) :
    (s.drive cfg line level).sr = s.sr ∨ (line = .clk ∧ level = true ∧ s.clkPin = some false) := by
  cases line with
  | data => exact .inl rfl
  | clk =>
    dsimp only [State.drive]
    split
    · rename_i hedge
      exact .inr ⟨rfl, risingEdge_iff.mp hedge⟩
    · exact .inl rfl
  | latchN =>
    dsimp only [State.drive]
    split <;> exact .inl rfl

/-- Settles O33: of the moves only a pin event can reach the chips, and a pin event does so only at its rising edge. -/
theorem chipsChangeOnlyAtRisingEdges : Obligations.ChipsChangeOnlyAtRisingEdges := by
  intro s a
  cases a with
  | pin line level =>
    constructor
    · refine (drive_chips params s line level).imp_right ?_
      rintro ⟨rfl, rfl, hlow⟩
      exact ⟨rfl, hlow⟩
    · refine (drive_sr params s line level).imp_right ?_
      rintro ⟨rfl, rfl, hlow⟩
      exact ⟨rfl, hlow⟩
  | _ => exact ⟨.inl rfl, .inl rfl⟩

/-! ### The step of a state that is not at rest -/

/-- A wire slot writes registers of the chip whose turn it is and nothing else (rules R224, R225). -/
theorem exec_slot {i : Instr} (hi : i.isCommand = false) (s : State) : ∃ f, exec i s = .next (s.writeChip f) := by
  cases i with
  | wNoop => exact ⟨id, by simp [exec, execWNoop, State.writeChip]⟩
  | wRow0 | wRow1 | wRow2 | wRow3 | wRow4 | wRow5 | wRow6 | wRow7 | wDecode | wIntensity | wScanLimit | wShutdown
  | wDisplayTest => exact ⟨_, rfl⟩
  | _ => cases hi

/-- The decoder of slots gives no command (rules R80, R82). -/
theorem isCommand_of_decodeSlot {w : SlotWord} {i : Instr} (h : decodeSlot w = .ok i) : i.isCommand = false := by
  rw [decodeSlot_table] at h
  unfold fixedValue narrowValue at h
  repeat' split at h
  all_goals cases h <;> rfl

/-- Passing the turn changes the turn alone (log entry 12). -/
theorem nextChip_eq (s : State) : ∃ k pending, s.nextChip = { s with rx := k, rxPending := pending } := by
  unfold State.nextChip
  split
  · exact ⟨_, s.rxPending, rfl⟩
  · exact ⟨0, false, rfl⟩

/-- While chips have still to commit, the step is one chip's: a decoded slot, or one the block never sends
(rule R224). -/
theorem step_pending {s : State} (hp : s.rxPending = true) :
    (∃ f, step s = .next (s.writeChip f).nextChip) ∨ step s = .next (s.commitOne params).nextChip := by
  unfold step State.fetch
  rw [if_pos hp]
  cases hd : decodeSlot s.sr[s.rx] with
  | error e => exact .inr rfl
  | ok i =>
    obtain ⟨f, hf⟩ := exec_slot (isCommand_of_decodeSlot hd) s
    exact .inl ⟨f, by simp only [hf, afterSlot]⟩

/-- A busy block makes one move, whatever is presented short of `rst` (rules R34, R97). -/
theorem step_busy {s : State} (hp : s.rxPending = false) (hb : s.busy = true)
    (hrst : ∀ rest, s.host ≠ .powerOnReset :: rest) : step s = .next (s.tick params) := by
  have hr : s.cmdReady = false := by simp [State.cmdReady, hb]
  unfold step State.fetch State.fetchHost
  rw [if_neg (by rw [hp]; decide)]
  cases hh : s.host with
  | nil => simp only [hr]; rfl
  | cons x rest =>
    cases x with
    | command w => simp only [hr]; rfl
    | pause ms => simp only [hr]; rfl
    | powerOnReset => exact absurd hh (hrst rest)

/-! ### The traces -/

/-- Both traces of `t` are those of `s` with more at their end; the logs are stored newest first (rule R10,
log entry 15). -/
def State.TracesGrow (s t : State) : Prop := s.frameLog <:+ t.frameLog ∧ s.pinLog <:+ t.pinLog

theorem State.TracesGrow.refl (s : State) : s.TracesGrow s := ⟨List.suffix_refl _, List.suffix_refl _⟩

theorem State.TracesGrow.trans {s t u : State} (h : s.TracesGrow t) (h' : t.TracesGrow u) : s.TracesGrow u := by
  obtain ⟨hframes, hpins⟩ := h
  obtain ⟨hframes', hpins'⟩ := h'
  exact ⟨hframes.trans hframes', hpins.trans hpins'⟩

theorem tracesGrow_perform (cfg : Config) (s : State) (a : Act) : s.TracesGrow (s.perform cfg a) := by
  obtain ⟨hframe, hpin⟩ := perform_logs cfg s a
  constructor
  · obtain h | h := hframe
    · rw [h]
    · rw [h]
      exact List.suffix_cons _ _
  · obtain h | ⟨e, h⟩ := hpin
    · rw [h]
    · rw [h]
      exact List.suffix_cons _ _

theorem tracesGrow_run (cfg : Config) (s : State) (acts : List Act) : s.TracesGrow (s.run cfg acts) := by
  induction acts generalizing s with
  | nil => exact State.TracesGrow.refl s
  | cons a acts ih => exact State.TracesGrow.trans (tracesGrow_perform cfg s a) (ih _)

theorem tracesGrow_tick (cfg : Config) (s : State) : s.TracesGrow (s.tick cfg) := by
  unfold State.tick
  split
  · exact State.TracesGrow.refl s
  · split
    · exact State.TracesGrow.refl s
    · rw [perform_setSeq]
      exact tracesGrow_perform cfg s _

theorem tracesGrow_nextChip (s : State) : s.TracesGrow s.nextChip := by
  obtain ⟨k, pending, h⟩ := nextChip_eq s
  rw [h]
  exact State.TracesGrow.refl s

/-- The traces grow in every step short of `rst`: the chips' turns leave them, the others make moves or none. -/
theorem tracesGrow_step {s t : State} (hrst : ∀ rest, s.host ≠ .powerOnReset :: rest) (h : step s = .next t) :
    s.TracesGrow t := by
  cases hp : s.rxPending with
  | true =>
    obtain ⟨f, hf⟩ | hf := step_pending hp <;> cases hf.symm.trans h
    · exact tracesGrow_nextChip (s.writeChip f)
    · exact tracesGrow_nextChip (s.commitOne params)
  | false =>
    cases hb : s.busy with
    | true =>
      cases (step_busy hp hb hrst).symm.trans h
      exact tracesGrow_tick params s
    | false =>
      have hrest : s.AtRest := ⟨by simpa [State.busy] using hb, hp⟩
      obtain ⟨rest, hh, -⟩ | ⟨rest, w, i, -, hd, he⟩ | ⟨rest, rfl⟩ := step_atRest hrest h
      · exact absurd hh (hrst rest)
      · obtain ⟨acts, -, rfl⟩ := exec_eq_run (isCommand_of_decodeCommand hd) he
        exact tracesGrow_run params { s with host := rest } acts
      · exact State.TracesGrow.refl s

/-- Settles O43: the newest-first logs keep the old log as a suffix, so the traces keep it as a prefix. -/
theorem tracesOnlyGrow : Obligations.TracesOnlyGrow := by
  intro s t hrst h
  obtain ⟨⟨fs, hf⟩, ps, hp⟩ := tracesGrow_step hrst h
  exact ⟨⟨fs.reverse, by simp [State.frameTrace, ← hf]⟩, ps.reverse, by simp [State.pinTrace, ← hp]⟩

/-! ### Commands on a ready block, seen from the outside -/

theorem State.Ready.busIdle {s : State} (h : s.Ready) : s.BusIdle := h.2.1

theorem State.Ready.inChain {s : State} (h : s.Ready) : InChain s.n s := ⟨h.busIdle, rfl, h.2.2⟩

theorem moduleIndex_lt {s : State} {mdl : Int} {m : Fin 8} (h : s.moduleIndex mdl = some m) : m.val < s.n.toNat := by
  unfold State.moduleIndex index8 at h
  split at h
  · split at h
    · cases h
      simp only
      omega
    · cases h
  · cases h

section
variable {s : State} (h : s.Ready)
include h

/-- SETLED changes one LED or nothing (rules R140, R141). -/
theorem run_setLedActs (mdl row col : Int) (on : Bool) : s.run params (setLedActs s mdl row col on) = s ∨
    ∃ m r c : Fin 8, m.val < s.n.toNat ∧ s.run params (setLedActs s mdl row col on) = s.setLed params m r c on := by
  unfold setLedActs
  rw [if_pos h.1]
  split
  · rename_i m r c hm _ _
    exact .inr ⟨m, r, c, moduleIndex_lt hm, run_setLedBody h.inChain r c on (moduleIndex_lt hm)⟩
  · exact .inl rfl

/-- SETROW replaces one row or nothing (rules R140, R142). -/
theorem run_setRowActs (mdl row : Int) (v : Byte) : s.run params (setRowActs params s mdl row v) = s ∨
    ∃ m r : Fin 8, m.val < s.n.toNat ∧ s.run params (setRowActs params s mdl row v) = s.setRow params m r v := by
  unfold setRowActs
  rw [if_pos h.1]
  split
  · rename_i m r hm _
    exact .inr ⟨m, r, moduleIndex_lt hm, run_writeRow h.inChain r v (moduleIndex_lt hm)⟩
  · exact .inl rfl

/-- SETCOLUMN replaces one column or nothing (rules R140, R143). -/
theorem run_setColumnActs (mdl col : Int) (bits : Byte) : s.run params (setColumnActs params s mdl col bits) = s ∨
    ∃ m c : Fin 8, m.val < s.n.toNat ∧
      s.run params (setColumnActs params s mdl col bits) = s.setColumn params m c bits := by
  unfold setColumnActs
  rw [if_pos h.1]
  split
  · rename_i m c hm _
    exact .inr ⟨m, c, moduleIndex_lt hm, run_setColumnBody h.inChain c bits (moduleIndex_lt hm)⟩
  · exact .inl rfl

/-- CLEAR clears one module or nothing (rules R140, R144). -/
theorem run_clearActs (mdl : Int) : s.run params (clearActs params s mdl) = s ∨
    ∃ m : Fin 8, m.val < s.n.toNat ∧ s.run params (clearActs params s mdl) = s.clear params m := by
  unfold clearActs
  rw [if_pos h.1]
  split
  · rename_i m hm
    exact .inr ⟨m, moduleIndex_lt hm, run_clearBody h.inChain (moduleIndex_lt hm)⟩
  · exact .inl rfl

theorem run_clearAllActs : s.run params (clearAllActs params s) = s.clearAll params := by
  unfold clearAllActs
  rw [if_pos h.1, run_clearAllBody h.inChain]

/-- A setter makes one transaction, with the value it was given, or does nothing (rules R183 to R186, R190). -/
theorem run_setterActs (mdl : Int) {opc : Byte} (hmap : Mapped params opc) (value : Option Byte) :
    s.run params (setterActs s mdl opc value) = s ∨
    ∃ (m : Fin 8) (v : Byte), m.val < s.n.toNat ∧ value = some v ∧
      s.run params (setterActs s mdl opc value) = s.transact params m opc v := by
  unfold setterActs
  rw [if_pos h.1]
  split
  · rename_i m v hm
    exact .inr ⟨m, v, moduleIndex_lt hm, rfl, run_bus h.inChain v hmap (moduleIndex_lt hm)⟩
  · exact .inl rfl

end

/-- The slots the setters send: SHUTDOWN with either value, a scan limit up to 7, an intensity up to 15 (rules R82,
R183 to R186). -/
inductive SetterSends : (opc val : Byte) → Prop where
  | powerDown : SetterSends params.opcShutdown params.valPowerDown
  | powerUp : SetterSends params.opcShutdown params.valPowerUp
  | scanLimit {v : Byte} (hv : v.toNat ≤ 7) : SetterSends params.opcScanLimit v
  | intensity {v : Byte} (hv : v.toNat ≤ 15) : SetterSends params.opcIntensity v

/-- A value operand that is in range is at most its limit (rules R185, R186). -/
theorem valueUpTo_le {max : Nat} (hmax : max < 256) {v : Int} {b : Byte} (h : valueUpTo max v = some b) :
    b.toNat ≤ max := by
  unfold valueUpTo at h
  split at h
  · cases h
    rw [BitVec.toNat_ofNat]
    omega
  · cases h

/-- A property kept by the units of which the commands of a configured block are made, each on a module of a chain of
length n: SETLED, SETROW, and the setters' transactions (rules R141 to R145, R183 to R186, R200). -/
structure KeptByUnits (n : BitVec 4) (P : State → Prop) : Prop where
  setLed (t : State) (m r c : Fin 8) (on : Bool) : m.val < n.toNat → P t → P (t.setLed params m r c on)
  setRow (t : State) (m r : Fin 8) (v : Byte) : m.val < n.toNat → P t → P (t.setRow params m r v)
  setter (t : State) (m : Fin 8) (opc val : Byte) :
    m.val < n.toNat → SetterSends opc val → P t → P (t.transact params m opc val)

section
variable {n : BitVec 4} {P : State → Prop} {s : State}

theorem KeptByUnits.setColumn (hP : KeptByUnits n P) {t : State} {m : Fin 8} (c : Fin 8) (bits : Byte)
    (hm : m.val < n.toNat) (ht : P t) : P (t.setColumn params m c bits) :=
  foldl_keeps (fun _ r hb => hP.setLed _ m r c _ hm hb) upTo7 ht

theorem KeptByUnits.clear (hP : KeptByUnits n P) {t : State} {m : Fin 8} (hm : m.val < n.toNat) (ht : P t) :
    P (t.clear params m) :=
  foldl_keeps (fun _ r hb => hP.setRow _ m r 0 hm hb) upTo7 ht

theorem KeptByUnits.run_setLedActs (hP : KeptByUnits s.n P) (h : s.Ready) (h0 : P s) (mdl row col : Int) (on : Bool) :
    P (s.run params (setLedActs s mdl row col on)) := by
  obtain e | ⟨m, r, c, hm, e⟩ := Machine.run_setLedActs h mdl row col on <;> rw [e]
  · exact h0
  · exact hP.setLed s m r c on hm h0

theorem KeptByUnits.run_setterActs (hP : KeptByUnits s.n P) (h : s.Ready) (h0 : P s) (mdl : Int) {opc : Byte}
    {value : Option Byte} (hmap : Mapped params opc) (hsends : ∀ v, value = some v → SetterSends opc v) :
    P (s.run params (setterActs s mdl opc value)) := by
  obtain e | ⟨m, v, hm, hv, e⟩ := Machine.run_setterActs h mdl hmap value <;> rw [e]
  · exact h0
  · exact hP.setter s m opc v hm (hsends v hv) h0

/-- On a ready block every command completes, and what its units keep it keeps (rule R282). -/
theorem KeptByUnits.exec_ready (hP : KeptByUnits s.n P) {i : Instr} (h : s.Ready) (hi : i.isCommand = true)
    (h0 : P s) : ∃ t, exec i s = .next t ∧ P t := by
  cases i with
  | nop => exact ⟨s, rfl, h0⟩
  | configure count => exact ⟨s, by simp [exec, execConfigure, configureActs, h.1], h0⟩
  | powerDown mdl =>
    exact ⟨_, rfl, hP.run_setterActs h h0 mdl mapped_shutdown (by rintro _ ⟨⟩; exact .powerDown)⟩
  | powerUp mdl =>
    exact ⟨_, rfl, hP.run_setterActs h h0 mdl mapped_shutdown (by rintro _ ⟨⟩; exact .powerUp)⟩
  | scanLimit mdl limit =>
    exact ⟨_, rfl, hP.run_setterActs h h0 mdl mapped_scanLimit fun _ hv => .scanLimit (valueUpTo_le (by omega) hv)⟩
  | intensity mdl level =>
    exact ⟨_, rfl, hP.run_setterActs h h0 mdl mapped_intensity fun _ hv => .intensity (valueUpTo_le (by omega) hv)⟩
  | setLedOff mdl row col => exact ⟨_, rfl, hP.run_setLedActs h h0 mdl row col false⟩
  | setLedOn mdl row col => exact ⟨_, rfl, hP.run_setLedActs h h0 mdl row col true⟩
  | setRow mdl row v =>
    refine ⟨_, rfl, ?_⟩
    obtain e | ⟨m, r, hm, e⟩ := run_setRowActs h mdl row v <;> rw [e]
    · exact h0
    · exact hP.setRow s m r v hm h0
  | setColumn mdl col bits =>
    refine ⟨_, rfl, ?_⟩
    obtain e | ⟨m, c, hm, e⟩ := run_setColumnActs h mdl col bits <;> rw [e]
    · exact h0
    · exact hP.setColumn c bits hm h0
  | clear mdl =>
    refine ⟨_, rfl, ?_⟩
    obtain e | ⟨m, hm, e⟩ := run_clearActs h mdl <;> rw [e]
    · exact h0
    · exact hP.clear hm h0
  | clearAll =>
    refine ⟨_, rfl, ?_⟩
    rw [run_clearAllActs h]
    exact List.foldlRecOn _ _ h0 fun t ht m hm => hP.clear ((mem_modulesBelow _ m).mp hm) ht
  | placeGlyph ch pos =>
    refine ⟨_, rfl, ?_⟩
    rw [run_placeGlyph h]
    exact List.foldlRecOn _ _ h0 fun t ht x hx => hP.setColumn _ _ (placeColumns_mem _ _ _ _ _ _ x hx) ht
  | _ => cases hi

end

/-! ### The control registers -/

theorem State.SameControl.refl (s : State) : s.SameControl s := ⟨rfl, rfl, rfl, rfl, rfl, rfl, rfl, rfl, rfl, rfl⟩

/-- A row write and a transaction touch no control register and leave the bus at rest (rules R7, R29). -/
theorem sameControl_keptByUnits (s : State) : KeptByUnits s.n fun t => s.SameControl t ∧ t.BusIdle where
  setLed _ m r c on _ h := ⟨h.1, BusIdle.setLed h.2 params m r c on⟩
  setRow _ m r v _ h := ⟨h.1, BusIdle.setRow h.2 params m r v⟩
  setter _ m opc val _ _ h := ⟨h.1, BusIdle.transact h.2 params m opc val⟩

/-- Settles O21: the units of the commands keep the control registers and the idle bus, so every command does. -/
theorem noCommandChangesTheControlRegisters : Obligations.NoCommandChangesTheControlRegisters := by
  intro s i h hi
  exact (sameControl_keptByUnits s).exec_ready h hi ⟨State.SameControl.refl s, h.busIdle⟩

/-- A configured state of the invariant is a ready block. -/
theorem State.Inv.ready {s : State} (h : s.Inv) (hc : s.configured = true) : s.Ready := by
  obtain ⟨-, -, hconf⟩ := h
  have hs := hconf hc
  exact ⟨hc, hs.busIdle, hs.length_legal.2⟩

/-- Settles O42: a configured state of the invariant is a ready block at rest, so a step takes an item from the host's
list or carries out a command, and no command changes the control registers there. -/
theorem chainLengthAndOrientationAreFixedOnce : Obligations.ChainLengthAndOrientationAreFixedOnce := by
  intro s t hinv hc hrst h
  obtain ⟨rest, hh, -⟩ | ⟨rest, w, i, -, hd, he⟩ | ⟨rest, rfl⟩ := step_atRest hinv.1 h
  · exact absurd hh (hrst rest)
  · have hready : ({ s with host := rest } : State).Ready := hinv.ready hc
    obtain ⟨u, hu, ⟨hconf, hn, horient, -⟩, -⟩ :=
      noCommandChangesTheControlRegisters _ i hready (isCommand_of_decodeCommand hd)
    cases hu.symm.trans he
    exact ⟨hconf.trans hc, hn, horient⟩
  · exact ⟨hc, rfl, rfl⟩

end Sys2Proof.Machine
end

-- Proofs of the state family (10_state.md): the moves of a command one at a time.
section
/-! SUPPORT. The sequencer's run of a command: what one tick does, and what all the ticks of a command come to (rules R31,
R34, R165). -/

namespace Sys2Proof.Machine

/-! ### The sequencer's run -/

/-- A move of the command in progress is made, and the moves after it stay (rule R34). -/
theorem tick_of_moves (cfg : Config) {s : State} {w : CommandWord} {a : Act} {acts : List Act}
    (h : s.seq = some { word := w, rest := a :: acts }) :
    s.tick cfg = { s.perform cfg a with seq := sequencerOf w acts } := by
  unfold State.tick
  rw [h]
  exact perform_setSeq cfg s _ a

/-- The sequencer holds moves only where there are some, and then exactly those (rule R31). -/
theorem sequencerOf_eq_some {w : CommandWord} {acts : List Act} {q : Sequencer} (h : sequencerOf w acts = some q) :
    q = { word := w, rest := acts } := by
  cases acts with
  | nil => cases h
  | cons a acts => cases h; rfl

theorem host_tick (cfg : Config) (s : State) : (s.tick cfg).host = s.host := by
  unfold State.tick
  split
  · rfl
  · split
    · rfl
    · rw [perform_setSeq]
      exact (perform_outside cfg s _).2.1

/-- Moves still left after a tick were behind the move that was made (rule R34). -/
theorem seq_of_tick (cfg : Config) {s : State} {q : Sequencer} (hq : (s.tick cfg).seq = some q) :
    ∃ a, s.seq = some { word := q.word, rest := a :: q.rest } := by
  cases hs : s.seq with
  | none => rw [State.tick, hs] at hq; cases hs.symm.trans hq
  | some p =>
    obtain ⟨w, acts⟩ := p
    cases acts with
    | nil => rw [State.tick, hs] at hq; cases hq
    | cons a acts =>
      rw [tick_of_moves cfg hs] at hq
      cases sequencerOf_eq_some hq
      exact ⟨a, rfl⟩

/-- Settles O5: the step of a busy block is the tick, and a tick makes the first move left. -/
theorem busyBlockTakesNoCommand : Obligations.BusyBlockTakesNoCommand := by
  intro s hp hb hrst
  exact ⟨step_busy hp hb hrst, host_tick params s, fun _ hq => seq_of_tick params hq, fun _ _ _ h => tick_of_moves params h⟩

theorem seq_run (cfg : Config) (s : State) (acts : List Act) : (s.run cfg acts).seq = s.seq := by
  induction acts generalizing s with
  | nil => rfl
  | cons a acts ih => exact (ih _).trans (perform_outside cfg s a).1

/-- After `j` ticks of a command the first `j` of its moves are made and the others left (rule R34). -/
theorem ticks_of_moves (cfg : Config) (w : CommandWord) (acts : List Act) (s : State) {j : Nat} (hj : j ≤ acts.length) :
    ({ s with seq := sequencerOf w acts } : State).ticks cfg j =
      { s.run cfg (acts.take j) with seq := sequencerOf w (acts.drop j) } := by
  induction j generalizing acts s with
  | zero => rfl
  | succ j ih =>
    cases acts with
    | nil => cases hj
    | cons a acts =>
      have htick := tick_of_moves cfg (s := { s with seq := sequencerOf w (a :: acts) }) rfl
      rw [perform_setSeq] at htick
      rw [State.ticks, htick, ih acts (s.perform cfg a) (Nat.le_of_succ_le_succ hj)]
      rfl

theorem ticks_succ (cfg : Config) (s : State) (j : Nat) : s.ticks cfg (j + 1) = (s.ticks cfg j).tick cfg := by
  induction j generalizing s with
  | zero => rfl
  | succ j ih => exact ih (s.tick cfg)

theorem busy_sequencerOf (s : State) (w : CommandWord) {acts : List Act} (h : acts ≠ []) :
    ({ s with seq := sequencerOf w acts } : State).busy = true := by
  cases acts with
  | nil => exact absurd rfl h
  | cons a acts => rfl

/-- One move of the sequencer is at most one pin event (rule R165). -/
theorem pinTrace_tick_le (cfg : Config) (s : State) : (s.tick cfg).pinTrace.length ≤ s.pinTrace.length + 1 := by
  simp only [State.pinTrace, List.length_reverse]
  unfold State.tick
  split
  · exact Nat.le_succ _
  · split
    · exact Nat.le_succ _
    · rw [perform_setSeq]
      obtain h | ⟨e, h⟩ := (perform_logs cfg s _).2
      · exact (congrArg List.length h).le.trans (Nat.le_succ _)
      · exact (congrArg List.length h).le

/-- Settles O44: both views make the moves of `commandActs` in order, so the run of all of them is the command's one step. -/
theorem atomicCommandIsTheSequencersRun : Obligations.AtomicCommandIsTheSequencersRun := by
  intro s t w i hs hd he
  obtain ⟨acts, hacts, rfl⟩ := exec_eq_run (isCommand_of_decodeCommand hd) he
  have hseq : (s.run params acts).seq = none := (seq_run params s acts).trans hs
  refine ⟨{ s with seq := sequencerOf w acts }, acts.length, by rw [State.beginCommand, hacts], ?_,
    by rw [State.busy, hseq]; rfl, fun j hj => ⟨?_, ?_⟩⟩
  · rw [ticks_of_moves params w acts s le_rfl, List.take_length, List.drop_length, sequencerOf, ← hseq]
  · rw [ticks_of_moves params w acts s hj.le]
    exact busy_sequencerOf _ w (by simpa using hj)
  · rw [ticks_succ]
    exact pinTrace_tick_le params _

end Sys2Proof.Machine
end

-- Proofs of the state family (10_state.md): the invariant of the machine.
section
/-! SUPPORT. The invariant of the machine: what a transaction does to one row of one chip and to the last value sent for it,
what every transaction of a command keeps, and what CONFIGURE makes true (rules R20, R22, R28, R84, R181, R226, R227). -/

namespace Sys2Proof.Machine

/-! ### The slots a command sends, and what one does to a row -/

theorem opcRow_inj {r r' : Fin 8} : params.opcRow r = params.opcRow r' ↔ r = r' := by revert r r'; decide

theorem opcRow_ne_zero (r : Fin 8) : params.opcRow r ≠ 0 := by revert r; decide

/-- The slots that write no row: the setters', and the two that switch decode and display test off (rules R82, R181 to
R188). -/
inductive ControlSlot : (opc val : Byte) → Prop where
  | setter {opc val : Byte} (h : SetterSends opc val) : ControlSlot opc val
  | decodeOff : ControlSlot params.opcDecode params.valDecodeOff
  | testOff : ControlSlot params.opcDisplayTest params.valTestOff

theorem ControlSlot.ne_opcRow {opc val : Byte} (h : ControlSlot opc val) (r : Fin 8) : opc ≠ params.opcRow r := by
  obtain ⟨⟨⟩⟩ | _ | _ := h <;> revert r <;> decide

/-- The frames of control slots are legal ones (rules R82, R84). -/
theorem ControlSlot.legalFrame {opc val : Byte} (h : ControlSlot opc val) {n : BitVec 4} {k : Fin 8}
    (hk : k.val < n.toNat) : LegalFrame params n (frameOf params n k opc val) := by
  refine ⟨k, hk, .inr ?_⟩
  obtain ⟨_ | _ | hv | hv⟩ | _ | _ := h
  · exact .inr (.inr (.inr (.inl rfl)))
  · exact .inr (.inr (.inr (.inr (.inl rfl))))
  · exact .inr (.inr (.inl ⟨_, hv, rfl⟩))
  · exact .inr (.inl ⟨_, hv, rfl⟩)
  · exact .inl rfl
  · exact .inr (.inr (.inr (.inr (.inr rfl))))

/-- A chip with decode and display test off (rules R187, R188). -/
def ChipRegs.Raw (c : ChipRegs) : Prop :=
  c.decode = params.valDecodeOff ∧ c.displayTest = params.valTestOff.setWidth 1

/-- A control slot leaves the rows alone, and decode and display test off where they are off (rules R187, R188, R224). -/
theorem ControlSlot.write {opc val : Byte} (h : ControlSlot opc val) (c free : ChipRegs) :
    (c.write params free opc val).row = c.row ∧ (c.Raw → (c.write params free opc val).Raw) := by
  obtain ⟨_ | _ | _ | _⟩ | _ | _ := h
  · exact ⟨rfl, id⟩
  · exact ⟨rfl, id⟩
  · exact ⟨rfl, id⟩
  · exact ⟨rfl, id⟩
  · exact ⟨rfl, fun hc => ⟨rfl, hc.2⟩⟩
  · exact ⟨rfl, fun hc => ⟨hc.1, rfl⟩⟩

/-- Chip j after a transaction to chip k (rule R226). -/
theorem chips_transact_getElem (s : State) (k j : Fin 8) (opc val : Byte) : (s.transact params k opc val).chips[j] =
    if k = j then s.chips[j].write params (freeChip s.freeCount j) opc val else s.chips[j] := by
  rw [State.transact_chips, set_getElem_fin]
  split
  · rename_i h; rw [h]
  · rfl

/-- SETLED is SETROW of the row with the bit changed (rules R141, R142). -/
theorem setLed_eq_setRow (s : State) (m r c : Fin 8) (on : Bool) :
    s.setLed params m r c on = s.setRow params m r (setBit (s.fbRow m r) c on) := rfl

/-- SETROW writes the row and sends its value (rule R142). -/
theorem setRow_eq_transact (s : State) (m r : Fin 8) (v : Byte) :
    s.setRow params m r v = (s.setFbRow m r v).transact params m (params.opcRow r) v := by
  rw [State.setRow, State.push, fbRow_setFbRow, if_pos ⟨rfl, rfl⟩]

/-- The chips after SETROW: one row of the addressed one holds the value (rule R226). -/
theorem chips_setRow (s : State) (m r j : Fin 8) (v : Byte) : (s.setRow params m r v).chips[j] =
    if m = j then s.chips[j].setRow r v else s.chips[j] := by
  rw [setRow_eq_transact, chips_transact_getElem, write_row]
  rfl

/-- The row registers after SETROW (rule R226). -/
theorem row_setRow (s : State) (m r m' r' : Fin 8) (v : Byte) : (s.setRow params m r v).chips[m'].row[r'] =
    if m' = m ∧ r' = r then v else s.chips[m'].row[r'] := by
  rw [chips_setRow]
  by_cases hm : m = m'
  · subst hm
    rw [if_pos rfl, ChipRegs.setRow, set_getElem_fin]
    simp [eq_comm]
  · simp [hm, Ne.symm hm]

/-- A control slot leaves the row registers (rule R226). -/
theorem row_control {opc val : Byte} (h : ControlSlot opc val) (s : State) (k m r : Fin 8) :
    (s.transact params k opc val).chips[m].row[r] = s.chips[m].row[r] := by
  rw [chips_transact_getElem]
  split
  · simp only [(h.write _ _).1]
  · rfl

/-- The last value sent for row r of chip m, after one more frame: its value where it is a slot for that row of that chip
(rules R22, R81). -/
theorem lastRowSent_frameOf {n : BitVec 4} {m : Fin 8} (hm : m.val < n.toNat) (r k : Fin 8) (opc val : Byte)
    (log : List (List Byte)) : lastRowSent n m r (frameOf params n k opc val :: log) =
      if m = k ∧ opc = params.opcRow r then some val else lastRowSent n m r log := by
  have hopcode := frameOf_get params n k opc val (2 * (n.toNat - 1 - m.val) + 1) (by omega)
  have hvalue := frameOf_get params n k opc val (2 * (n.toNat - 1 - m.val)) (by omega)
  simp only [lastRowSent, hopcode, hvalue, Option.some_inj]
  by_cases hk : m = k
  · subst hk
    have hopc : 2 * (n.toNat - 1 - m.val) + 1 + 2 * m.val + 1 = 2 * n.toNat := by omega
    have hval : 2 * (n.toNat - 1 - m.val) + 2 * m.val + 2 = 2 * n.toNat := by omega
    have hnot : ¬ 2 * (n.toNat - 1 - m.val) + 1 + 2 * m.val + 2 = 2 * n.toNat := by omega
    simp only [frameByte, hopc, hval, hnot, if_true, if_false, true_and]
    rfl
  · have hkv : m.val ≠ k.val := fun e => hk (Fin.ext e)
    have hfirst : ¬ 2 * (n.toNat - 1 - m.val) + 1 + 2 * k.val + 2 = 2 * n.toNat := by omega
    have hsecond : ¬ 2 * (n.toNat - 1 - m.val) + 1 + 2 * k.val + 1 = 2 * n.toNat := by omega
    simp only [frameByte, hfirst, hsecond, if_false, hk, false_and, (opcRow_ne_zero r).symm]

/-- The last value sent for row r of chip m after SETROW (rules R22, R142). -/
theorem lastRowSent_setRow (s : State) {m : Fin 8} (hm : m.val < s.n.toNat) (r m' r' : Fin 8) (v : Byte) :
    lastRowSent s.n m r (s.setRow params m' r' v).frameLog =
      if m = m' ∧ r = r' then some v else lastRowSent s.n m r s.frameLog := by
  rw [frameLog_setRow, lastRowSent_frameOf hm]
  simp only [opcRow_inj, @eq_comm _ r' r]

/-! ### Row by row: the chip's register and the last value sent -/

/-- Row r of chip m, where the chip is in the chain, holds the framebuffer's row (rule R227). -/
def State.RowAgrees (m r : Fin 8) (s : State) : Prop := m.val < s.n.toNat → s.chips[m].row[r] = s.fbRow m r

/-- The last value sent for row r of chip m, where the chip is in the chain, is the framebuffer's row (rule R22). -/
def State.RowSent (m r : Fin 8) (s : State) : Prop :=
  m.val < s.n.toNat → lastRowSent s.n m r s.frameLog = some (s.fbRow m r)

/-- Chip k, where it is in the chain, has decode and display test off (rules R187, R188). -/
def State.ChipRaw (k : Fin 8) (s : State) : Prop := k.val < s.n.toNat → s.chips[k].Raw

/-- A property kept by everything a command of a configured block and steps c and d of CONFIGURE are made of, each on a
module of a chain of length n: SETROW, and the transaction of a control slot (rules R141 to R145, R181 to R188, R200). -/
structure KeptByTransactions (n : BitVec 4) (P : State → Prop) : Prop where
  setRow {t : State} {m : Fin 8} (r : Fin 8) (v : Byte) : m.val < n.toNat → P t → P (t.setRow params m r v)
  control {t : State} {m : Fin 8} {opc val : Byte} :
    m.val < n.toNat → ControlSlot opc val → P t → P (t.transact params m opc val)

theorem rowAgrees_kept (n : BitVec 4) (m r : Fin 8) : KeptByTransactions n (State.RowAgrees m r) where
  setRow {_ _} _ _ _ ht hm := by
    rw [row_setRow, fbRow_setRow, ht hm]
  control {_ _ _ _} _ hslot ht hm := by
    rw [row_control hslot]
    exact ht hm

theorem rowAgrees_setRow (t : State) (m r : Fin 8) (v : Byte) : State.RowAgrees m r (t.setRow params m r v) := by
  intro _
  rw [row_setRow, fbRow_setRow, if_pos ⟨rfl, rfl⟩, if_pos ⟨rfl, rfl⟩]

/-- A slot for another row or another chip leaves the last value sent; so does a control slot. -/
theorem rowSent_kept (n : BitVec 4) (m r : Fin 8) : KeptByTransactions n (State.RowSent m r) where
  setRow {t m'} r' v _ ht hm := by
    rw [setRow_n, lastRowSent_setRow t hm, fbRow_setRow, ht hm, apply_ite some]
  control {t k opc val} _ hslot ht hm := by
    rw [State.transact_frameLog, fbRow_transact, State.transact_n, lastRowSent_frameOf (n := t.n) hm,
      if_neg fun h => hslot.ne_opcRow r h.2]
    exact ht hm

theorem rowSent_setRow (t : State) (m r : Fin 8) (v : Byte) : State.RowSent m r (t.setRow params m r v) := by
  intro hm
  rw [setRow_n, lastRowSent_setRow t hm, fbRow_setRow, if_pos ⟨rfl, rfl⟩, if_pos ⟨rfl, rfl⟩]

theorem chipRaw_kept (n : BitVec 4) (k : Fin 8) : KeptByTransactions n (State.ChipRaw k) where
  setRow {t m} r v _ ht hk := by
    rw [chips_setRow]
    split <;> exact ht hk
  control {t m opc val} _ hslot ht hk := by
    rw [chips_transact_getElem]
    split
    · exact (hslot.write _ _).2 (ht hk)
    · exact ht hk

/-! ### The whole block -/

/-- What holds of the block from the moment CONFIGURE has claimed the pins, between the transactions of a command too: the
part of the invariant that speaks of no row and no chip (rules R20, R23, R28, R29, R84). -/
structure Claimed (n : BitVec 4) (s : State) : Prop where
  length : s.n = n
  length_legal : 1 ≤ n.toNat ∧ n.toNat ≤ 8
  configured : s.configured = true
  atRest : s.AtRest
  busIdle : s.BusIdle
  dataDriven : s.dataPin.isSome = true
  spareZero : s.SpareRowsZero
  framesLegal : ∀ f ∈ s.frameLog, LegalFrame params n f
  bufferIsLast : s.frameLog = [] ∨ s.frameLog.head? = some s.frame

section
variable {n : BitVec 4} {s : State}

theorem Claimed.setFbRow (h : Claimed n s) {m : Fin 8} (r : Fin 8) (v : Byte) (hm : m.val < n.toNat) :
    Claimed n (s.setFbRow m r v) := by
  obtain ⟨hn, hlegal, hconf, hrest, hidle, hdata, hspare, hframes, hbuf⟩ := h
  refine ⟨hn, hlegal, hconf, hrest, hidle, hdata, fun m' r' hm' => ?_, hframes, hbuf⟩
  rw [State.setFbRow_n, hn] at hm'
  rw [fbRow_setFbRow, if_neg (by rintro ⟨rfl, -⟩; omega)]
  exact hspare m' r' (hn ▸ hm')

/-- A transaction adds a frame and leaves it in the scratch buffer (rules R28, R160, R161). -/
theorem Claimed.transact (h : Claimed n s) {k : Fin 8} {opc val : Byte}
    (hlegalFrame : LegalFrame params n (frameOf params n k opc val)) : Claimed n (s.transact params k opc val) := by
  obtain ⟨rfl, hlegal, hconf, hrest, hidle, hdata, hspare, hframes, hbuf⟩ := h
  refine ⟨rfl, hlegal, hconf, hrest, hidle, rfl, hspare, ?_, .inr ?_⟩
  · rw [State.transact_frameLog]
    exact List.forall_mem_cons.mpr ⟨hlegalFrame, hframes⟩
  · rw [frame_transact params s hlegal.2]
    rfl

end

theorem claimed_kept (n : BitVec 4) : KeptByTransactions n (Claimed n) where
  setRow {t m} r v hm ht := by
    rw [setRow_eq_transact]
    exact (ht.setFbRow r v hm).transact ⟨m, hm, .inl ⟨r, v, rfl⟩⟩
  control hm hslot ht := ht.transact (hslot.legalFrame hm)

/-! ### From the transactions to the commands -/

section
variable {n : BitVec 4} {P : State → Prop}

theorem KeptByTransactions.forall {α : Sort*} {P : α → State → Prop} (hP : ∀ a, KeptByTransactions n (P a)) :
    KeptByTransactions n fun t => ∀ a, P a t where
  setRow r v hm ht a := (hP a).setRow r v hm (ht a)
  control hm hslot ht a := (hP a).control hm hslot (ht a)

theorem KeptByTransactions.and {Q : State → Prop} (hP : KeptByTransactions n P) (hQ : KeptByTransactions n Q) :
    KeptByTransactions n fun t => P t ∧ Q t where
  setRow r v hm ht := ⟨hP.setRow r v hm ht.1, hQ.setRow r v hm ht.2⟩
  control hm hslot ht := ⟨hP.control hm hslot ht.1, hQ.control hm hslot ht.2⟩

/-- What the transactions keep every command of a configured block keeps. -/
theorem KeptByTransactions.keptByUnits (hP : KeptByTransactions n P) : KeptByUnits n P where
  setLed t m r c on hm ht := by
    rw [setLed_eq_setRow]
    exact hP.setRow r _ hm ht
  setRow _ _ r v hm ht := hP.setRow r v hm ht
  setter _ _ _ _ hm hsends ht := hP.control hm (.setter hsends) ht

theorem KeptByTransactions.initModule (hP : KeptByTransactions n P) {t : State} {m : Fin 8} (hm : m.val < n.toNat)
    (ht : P t) : P (t.initModule params m) := by
  have htest := hP.control hm .testOff ht
  have hscan := hP.control hm (.setter (.scanLimit (v := 7) (by decide))) htest
  exact hP.keptByUnits.clear hm (hP.control hm .decodeOff hscan)

theorem KeptByTransactions.everyChip (hP : KeptByTransactions n P) {opc val : Byte} (hslot : ControlSlot opc val)
    {t : State} (hn : t.n = n) (ht : P t) : P (t.everyChip params opc val) := by
  unfold State.everyChip
  rw [hn]
  exact List.foldlRecOn _ _ ht fun _ hb m hm => hP.control ((mem_modulesBelow n m).mp hm) hslot hb

theorem KeptByTransactions.clearAll (hP : KeptByTransactions n P) {t : State} (hn : t.n = n) (ht : P t) :
    P (t.clearAll params) := by
  unfold State.clearAll
  rw [hn]
  exact List.foldlRecOn _ _ ht fun _ hb m hm => hP.keptByUnits.clear ((mem_modulesBelow n m).mp hm) hb

end

/-! ### CONFIGURE -/

/-- What each part of a fold makes true of its own element and no part breaks, the whole makes true of all of them. -/
theorem foldl_makes {α β : Type} {Q : α → β → Prop} {f : β → α → β} (l : List α)
    (hmake : ∀ b, ∀ a ∈ l, Q a (f b a)) (hkeep : ∀ b, ∀ a ∈ l, ∀ c, Q c b → Q c (f b a)) (b : β) :
    ∀ c ∈ l, Q c (l.foldl f b) := by
  induction l generalizing b with
  | nil => simp
  | cons a l ih =>
    have hkeep' : ∀ b, ∀ x ∈ l, ∀ c, Q c b → Q c (f b x) := fun b x hx => hkeep b x (List.mem_cons_of_mem a hx)
    intro c hc
    obtain rfl | hc := List.mem_cons.mp hc
    · exact List.foldlRecOn (motive := Q c) l f (hmake b c List.mem_cons_self) fun b hb x hx => hkeep' b x hx c hb
    · exact ih (fun b x hx => hmake b x (List.mem_cons_of_mem a hx)) hkeep' (f b a) c hc

/-- The block before the last step of CONFIGURE, the clearing of every row (rule R181, steps a to d). -/
def State.started (s : State) (n : BitVec 4) (o : Orientation) : State :=
  ((((modulesBelow n).foldl (fun t m => t.initModule params m) (s.claimed n o)).everyChip params params.opcShutdown
    params.valPowerDown).everyChip params params.opcIntensity (params.defaultIntensity.setWidth 8)).everyChip params
      params.opcShutdown params.valPowerUp

theorem configure_eq_started (s : State) (n : BitVec 4) (o : Orientation) :
    s.configure params n o = (s.started n o).clearAll params := rfl

section
variable {n : BitVec 4}

/-- CLEARALL makes true of every row of the chain what SETROW makes true of its row and no transaction breaks. -/
theorem clearAll_makes {C : Fin 8 → Fin 8 → State → Prop} (hmake : ∀ m r (t : State) v, C m r (t.setRow params m r v))
    (hkeep : ∀ m r, KeptByTransactions n (C m r)) {t : State} (hn : t.n = n) {m : Fin 8} (hm : m.val < n.toNat)
    (r : Fin 8) : C m r (t.clearAll params) := by
  have hclear : ∀ (m : Fin 8), m.val < n.toNat → ∀ t : State, ∀ r, C m r (t.clear params m) := fun m hm t r =>
    foldl_makes upTo7 (fun t r _ => hmake m r t 0) (fun _ r' _ c hc => (hkeep m c).setRow r' 0 hm hc) t r (mem_upTo7 r)
  unfold State.clearAll
  rw [hn]
  exact foldl_makes (Q := fun m t => ∀ r, C m r t) (modulesBelow n)
    (fun t m hm => hclear m ((mem_modulesBelow n m).mp hm) t)
    (fun _ m hm m' h r => (hkeep m' r).keptByUnits.clear ((mem_modulesBelow n m).mp hm) (h r))
    t m ((mem_modulesBelow n m).mpr hm) r

/-- Step c of CONFIGURE switches decode and display test off (rule R181). -/
theorem chipRaw_initModule (t : State) {m : Fin 8} (hm : m.val < n.toNat) :
    State.ChipRaw m (t.initModule params m) := by
  refine (chipRaw_kept n m).keptByUnits.clear hm ?_
  intro _
  simp only [chips_transact_getElem, if_true, write_decode, write_scanLimit, write_displayTest]
  exact ⟨rfl, rfl⟩

/-- Steps a and b of CONFIGURE on a released block: the pins driven, every row zero, nothing sent (rule R181). -/
theorem claimed_of_released {s : State} (hrest : s.AtRest) (hrel : s.Released) (hn : 1 ≤ n.toNat ∧ n.toNat ≤ 8)
    (o : Orientation) : Claimed n (s.claimed n o) := by
  obtain ⟨-, -, -, -, hframes, -⟩ := hrel
  have hlog : (s.claimed n o).frameLog = [] := hframes
  refine ⟨rfl, hn, rfl, hrest, ⟨rfl, rfl, rfl⟩, rfl, fun m r _ => ?_, by simp [hlog], .inl hlog⟩
  simp [State.fbRow, State.claimed]

/-- The steps of CONFIGURE before the last clearing keep what was claimed, and leave every chip with decode and display
test off (rules R181, R187, R188). -/
theorem claimed_started {s : State} {o : Orientation} (h : Claimed n (s.claimed n o)) :
    Claimed n (s.started n o) ∧ ∀ k, State.ChipRaw k (s.started n o) := by
  have hkept := (claimed_kept n).and (KeptByTransactions.forall (chipRaw_kept n))
  have hinit : Claimed n ((modulesBelow n).foldl (fun t m => t.initModule params m) (s.claimed n o)) :=
    List.foldlRecOn _ _ h fun _ ht m hm => (claimed_kept n).initModule ((mem_modulesBelow n m).mp hm) ht
  have hraw := foldl_makes (Q := State.ChipRaw) (f := fun t m => t.initModule params m) (modulesBelow n)
    (fun t m hm => chipRaw_initModule t ((mem_modulesBelow n m).mp hm))
    (fun _ m hm k hk => (chipRaw_kept n k).initModule ((mem_modulesBelow n m).mp hm) hk) (s.claimed n o)
  have hstepC := And.intro hinit fun k hk => hraw k ((mem_modulesBelow n k).mpr (hinit.length ▸ hk)) hk
  have hdown := hkept.everyChip (.setter .powerDown) hinit.length hstepC
  have hlevel : (params.defaultIntensity.setWidth 8).toNat ≤ 15 := by
    have := params.defaultIntensity.isLt
    simp only [BitVec.toNat_setWidth]
    omega
  have hintensity := hkept.everyChip (.setter (.intensity hlevel)) hdown.1.length hdown
  exact hkept.everyChip (.setter .powerUp) hintensity.1.length hintensity

end

/-! ### The invariant -/

theorem sent_kept (n : BitVec 4) : KeptByTransactions n fun t => t.frameLog ≠ [] where
  setRow _ _ _ _ := List.cons_ne_nil _ _
  control _ _ _ := List.cons_ne_nil _ _

/-- The invariant of a configured block, with the chain length, as what every transaction keeps. -/
def Sound (n : BitVec 4) (s : State) : Prop :=
  Claimed n s ∧ (∀ m r, State.RowAgrees m r s) ∧ (∀ k, State.ChipRaw k s) ∧ s.frameLog ≠ []

theorem sound_kept (n : BitVec 4) : KeptByTransactions n (Sound n) :=
  (claimed_kept n).and <| (KeptByTransactions.forall fun m => .forall (rowAgrees_kept n m)).and <|
    (KeptByTransactions.forall (chipRaw_kept n)).and (sent_kept n)

theorem Sound.inv {n : BitVec 4} {s : State} (h : Sound n s) : s.Inv := by
  obtain ⟨⟨rfl, hlegal, hconf, hrest, hidle, hdata, hspare, hframes, hbuf⟩, hagrees, hraw, hsent⟩ := h
  exact ⟨hrest, fun hc => absurd (hconf.symm.trans hc) (by decide), fun _ =>
    ⟨hlegal, hidle, hdata, hagrees, hspare, hraw, hframes, hbuf.resolve_left hsent⟩⟩

theorem State.Inv.sound {s : State} (h : s.Inv) (hc : s.configured = true) : Sound s.n s := by
  obtain ⟨hrest, -, hconf⟩ := h
  obtain ⟨hlegal, hidle, hdata, hagrees, hspare, hraw, hframes, hbuf⟩ := hconf hc
  refine ⟨⟨rfl, hlegal, hc, hrest, hidle, hdata, hspare, hframes, .inr hbuf⟩, hagrees, hraw, ?_⟩
  intro hnil
  rw [hnil] at hbuf
  cases hbuf

/-- After CONFIGURE of a released block everything the invariant says of a configured one holds, and what was last sent for
every row is the framebuffer's (rules R22, R181, R227). -/
theorem sound_configure {s : State} {n : BitVec 4} (hrest : s.AtRest) (hrel : s.Released)
    (hn : 1 ≤ n.toNat ∧ n.toNat ≤ 8) (o : Orientation) :
    Sound n (s.configure params n o) ∧ (s.configure params n o).HoldsLastSent := by
  rw [configure_eq_started]
  obtain ⟨hclaimed, hraw⟩ := claimed_started (claimed_of_released hrest hrel hn o)
  have hlength := hclaimed.length
  have hend := ((claimed_kept n).and (.forall (chipRaw_kept n))).clearAll hlength ⟨hclaimed, hraw⟩
  have hsent := clearAll_makes (C := fun _ _ t => t.frameLog ≠ []) (fun _ _ _ _ => List.cons_ne_nil _ _)
    (fun _ _ => sent_kept n) hlength (m := 0) (by simp; omega) 0
  refine ⟨⟨hend.1, fun m r hm => ?_, hend.2, hsent⟩, fun _ m r hm => ?_⟩
  · exact clearAll_makes (fun m r t v => rowAgrees_setRow t m r v) (rowAgrees_kept n) hlength (hend.1.length ▸ hm) r hm
  · exact clearAll_makes (fun m r t v => rowSent_setRow t m r v) (rowSent_kept n) hlength (hend.1.length ▸ hm) r hm

theorem clampCount_legal (count : Int) : 1 ≤ (clampCount count).toNat ∧ (clampCount count).toNat ≤ 8 := by
  unfold clampCount
  split
  · simp only [BitVec.toNat_ofNat]
    omega
  · decide

/-- Before CONFIGURE every other command is a no-op (rule R282). -/
theorem commandActs_unconfigured {s : State} (hc : s.configured = false) {i : Instr} (hi : ∀ count, i ≠ .configure count) :
    commandActs params s i = .ok [] := by
  cases i with
  | configure count => exact absurd rfl (hi count)
  | powerDown | powerUp | scanLimit | intensity =>
    simp [commandActs, powerDownActs, powerUpActs, scanLimitActs, intensityActs, setterActs, hc]
  | setLedOff | setLedOn | setRow | setColumn | clear | clearAll =>
    simp [commandActs, setLedActs, setRowActs, setColumnActs, clearActs, clearAllActs, hc]
  | placeGlyph => simp [commandActs, placeGlyphActs, hc]
  | _ => rfl

/-- A command that completes on a released block does nothing, or is the first CONFIGURE (rules R181, R282). -/
theorem exec_released {s t : State} {i : Instr} (hc : s.configured = false) (hrel : s.Released)
    (hi : i.isCommand = true) (he : exec i s = .next t) :
    t = s ∨ ∃ count o, t = s.configure params (clampCount count) o := by
  obtain ⟨-, -, -, hlatch, -, -⟩ := hrel
  obtain ⟨acts, hacts, rfl⟩ := exec_eq_run hi he
  by_cases hconf : ∃ count, i = .configure count
  · obtain ⟨count, rfl⟩ := hconf
    rw [commandActs, configureActs, if_neg (by simp [hc])] at hacts
    cases ho : orientOfStrap s.orientStrap with
    | none => rw [ho] at hacts; cases hacts
    | some o =>
      rw [ho] at hacts
      cases hacts
      exact .inr ⟨count, o, run_configureBody s (clampCount_legal count).2 o hlatch⟩
  · cases (commandActs_unconfigured hc fun count e => hconf ⟨count, e⟩).symm.trans hacts
    exact .inl rfl

/-- What the host has still to present is no part of the invariant (rule R33). -/
theorem State.Inv.setHost {s : State} (h : s.Inv) (rest : List HostItem) : ({ s with host := rest } : State).Inv :=
  ⟨h.1, h.2.1, fun hc => { h.2.2 hc with }⟩

theorem inv_powerOnReset (s : State) : s.powerOnReset.Inv :=
  ⟨⟨rfl, rfl⟩, fun _ => ⟨rfl, rfl, rfl, rfl, rfl, rfl⟩, fun hc => by cases hc⟩

/-- A command keeps the invariant: on a configured block transaction by transaction, otherwise by CONFIGURE. -/
theorem exec_keeps_inv {s t : State} {i : Instr} (h : s.Inv) (hi : i.isCommand = true) (he : exec i s = .next t) :
    t.Inv := by
  cases hc : s.configured with
  | true =>
    obtain ⟨u, hu, hsound⟩ := (sound_kept s.n).keptByUnits.exec_ready (h.ready hc) hi (h.sound hc)
    cases hu.symm.trans he
    exact hsound.inv
  | false =>
    have ⟨hrest, hrel, _⟩ := h
    obtain e | ⟨count, o, e⟩ := exec_released hc (hrel hc) hi he <;> rw [e]
    · exact h
    · exact (sound_configure hrest (hrel hc) (clampCount_legal count) o).1.inv

/-- Settles O40: of the steps from rest, `rst` releases the block, a command keeps the invariant, and the others touch the
host's list alone. -/
theorem configuredStateStaysSound : Obligations.ConfiguredStateStaysSound := by
  intro s t h hstep
  obtain ⟨rest, -, rfl⟩ | ⟨rest, w, i, -, hd, he⟩ | ⟨rest, rfl⟩ := step_atRest h.1 hstep
  · exact inv_powerOnReset _
  · exact exec_keeps_inv (h.setHost rest) (isCommand_of_decodeCommand hd) he
  · exact h.setHost rest

/-- A command keeps the framebuffer equal to what was last sent, and CONFIGURE makes it so (rule R22). -/
theorem exec_keeps_holdsLastSent {s t : State} {i : Instr} (h : s.Inv) (hlast : s.HoldsLastSent)
    (hi : i.isCommand = true) (he : exec i s = .next t) : t.HoldsLastSent := by
  cases hc : s.configured with
  | true =>
    have hkept := KeptByTransactions.forall fun m => .forall (rowSent_kept s.n m)
    obtain ⟨u, hu, hsent⟩ := hkept.keptByUnits.exec_ready (h.ready hc) hi (hlast hc)
    cases hu.symm.trans he
    exact fun _ => hsent
  | false =>
    have ⟨hrest, hrel, _⟩ := h
    obtain e | ⟨count, o, e⟩ := exec_released hc (hrel hc) hi he <;> rw [e]
    · exact hlast
    · exact (sound_configure hrest (hrel hc) (clampCount_legal count) o).2

/-- Settles O41: `rst` leaves the block unconfigured, a command keeps the equality, and the other steps from rest touch the
host's list alone. -/
theorem framebufferEqualsLastSentValue : Obligations.FramebufferEqualsLastSentValue := by
  intro s t h hlast hstep
  obtain ⟨rest, -, rfl⟩ | ⟨rest, w, i, -, hd, he⟩ | ⟨rest, rfl⟩ := step_atRest h.1 hstep
  · intro hc
    cases hc
  · exact exec_keeps_holdsLastSent (h.setHost rest) hlast (isCommand_of_decodeCommand hd) he
  · exact hlast

/-! ### What a framebuffer command does to the chips -/

/-- Of the chips, `t` differs from `s` in rows of chip m alone, and each of those that differs holds the framebuffer's row
(rules R147, R226). -/
structure OnlyRowsOf (m : Fin 8) (s t : State) : Prop where
  others : ∀ k : Fin 8, k ≠ m → t.chips[k] = s.chips[k]
  registers : t.chips[m] = { s.chips[m] with row := t.chips[m].row }
  rows : ∀ r : Fin 8, t.chips[m].row[r] = s.chips[m].row[r] ∨ t.chips[m].row[r] = t.fbRow m r

theorem OnlyRowsOf.refl (m : Fin 8) (s : State) : OnlyRowsOf m s s := ⟨fun _ _ => rfl, rfl, fun _ => .inl rfl⟩

section
variable {s t : State} {m : Fin 8}

theorem OnlyRowsOf.setRow (h : OnlyRowsOf m s t) (r : Fin 8) (v : Byte) : OnlyRowsOf m s (t.setRow params m r v) where
  others k hk := by
    rw [chips_setRow, if_neg (Ne.symm hk)]
    exact h.others k hk
  registers := by
    simp only [chips_setRow, if_true]
    rw [h.registers]
    rfl
  rows r' := by
    rw [row_setRow, fbRow_setRow]
    split
    · exact .inr rfl
    · exact h.rows r'

theorem OnlyRowsOf.setColumn (h : OnlyRowsOf m s t) (c : Fin 8) (bits : Byte) :
    OnlyRowsOf m s (t.setColumn params m c bits) :=
  foldl_keeps (P := OnlyRowsOf m s) (fun _ r hb => hb.setRow r _) upTo7 h

theorem OnlyRowsOf.clear (h : OnlyRowsOf m s t) : OnlyRowsOf m s (t.clear params m) :=
  foldl_keeps (P := OnlyRowsOf m s) (fun _ r hb => hb.setRow r 0) upTo7 h

end

section
variable {s : State} (h : s.Ready) {m : Fin 8} (hm : m.val < s.n.toNat)
include h hm

/-- SETLED of a valid address (rule R141). -/
theorem run_setLedActs_valid (r c : Fin 8) (on : Bool) :
    s.run params (setLedActs s m.val r.val c.val on) = s.setLed params m r c on := by
  simp only [setLedActs, h.1, if_true, moduleIndex_fin s m hm, index8_fin, run_setLedBody h.inChain r c on hm]

/-- SETROW of a valid address (rule R142). -/
theorem run_setRowActs_valid (r : Fin 8) (v : Byte) :
    s.run params (setRowActs params s m.val r.val v) = s.setRow params m r v := by
  simp only [setRowActs, h.1, if_true, moduleIndex_fin s m hm, index8_fin, run_writeRow h.inChain r v hm]

/-- SETCOLUMN of a valid address (rule R143). -/
theorem run_setColumnActs_valid (c : Fin 8) (bits : Byte) :
    s.run params (setColumnActs params s m.val c.val bits) = s.setColumn params m c bits := by
  simp only [setColumnActs, h.1, if_true, moduleIndex_fin s m hm, index8_fin, run_setColumnBody h.inChain c bits hm]

/-- CLEAR of a valid module (rule R144). -/
theorem run_clearActs_valid : s.run params (clearActs params s m.val) = s.clear params m := by
  simp only [clearActs, h.1, if_true, moduleIndex_fin s m hm, run_clearBody h.inChain hm]

end

/-- Settles O13: each of the five commands is made of SETROWs of its module, and the control state is O21's. -/
theorem framebufferCommandsLeaveControlStateAlone : Obligations.FramebufferCommandsLeaveControlStateAlone := by
  intro s m r c v h hm i hi
  have hcommand : i.isCommand = true := by obtain rfl | rfl | rfl | rfl | rfl := hi <;> rfl
  obtain ⟨t, he, hcontrol, hidle⟩ := noCommandChangesTheControlRegisters s i h hcommand
  have hrefl := OnlyRowsOf.refl m s
  have hrows : OnlyRowsOf m s t := by
    obtain rfl | rfl | rfl | rfl | rfl := hi <;> cases he
    · rw [run_setLedActs_valid h hm, setLed_eq_setRow]
      exact hrefl.setRow r _
    · rw [run_setLedActs_valid h hm, setLed_eq_setRow]
      exact hrefl.setRow r _
    · rw [run_setRowActs_valid h hm]
      exact hrefl.setRow r v
    · rw [run_setColumnActs_valid h hm]
      exact hrefl.setColumn c v
    · rw [run_clearActs_valid h hm]
      exact hrefl.clear
  exact ⟨t, he, hcontrol, hidle, hrows.others, hrows.registers, hrows.rows⟩

end Sys2Proof.Machine
end

-- Proofs of the memory family (20_memory.md): the pin events of a frame, and what SETROW puts on the wire.
section
/-! SUPPORT. The pin events of a frame as the cells of its bits, so that an event is found by its bit time, and the level of
DATA that a frame leaves (rules R29, R55, R56, R81, R86). -/

namespace Sys2Proof.Machine

/-! ### The events of a frame, bit by bit -/

/-- The pin events of one bit: DATA set, CLK up, CLK down (rule R86, decision D3). -/
def cellEvents (d : Bool) : List PinEvent := [⟨.data, d⟩, ⟨.clk, true⟩, ⟨.clk, false⟩]

@[simp] theorem length_cellEvents (d : Bool) : (cellEvents d).length = 3 := rfl

/-- A frame's events are the cells of its bits, in the order they are sent, between the edges of LATCH_N (rules R56,
R86). -/
theorem frameEvents_eq_cells (frame : List Byte) : frameEvents frame =
    ⟨.latchN, false⟩ :: ((frame.flatMap byteBits).flatMap cellEvents ++ [⟨.latchN, true⟩]) := by
  rw [List.flatMap_assoc]
  rfl

theorem length_cells (bits : List Bool) : (bits.flatMap cellEvents).length = 3 * bits.length := by
  induction bits with
  | nil => rfl
  | cons d bits ih =>
    rw [List.flatMap_cons, List.length_append, ih, length_cellEvents, List.length_cons]
    omega

/-- The cell of bit t takes the places 3t, 3t + 1 and 3t + 2. -/
theorem cells_getElem? {bits : List Bool} {t : Nat} {d : Bool} (h : bits[t]? = some d) {i : Nat} (hi : i < 3) :
    (bits.flatMap cellEvents)[3 * t + i]? = (cellEvents d)[i]? := by
  induction bits generalizing t with
  | nil => cases h
  | cons e bits ih =>
    rw [List.flatMap_cons]
    cases t with
    | zero =>
      cases h
      rw [Nat.mul_zero, Nat.zero_add, List.getElem?_append_left hi]
    | succ t =>
      have hshift : 3 * (t + 1) + i = (cellEvents e).length + (3 * t + i) := by rw [length_cellEvents]; omega
      rw [hshift, List.getElem?_append_right (Nat.le_add_right _ _), Nat.add_sub_cancel_left]
      exact ih h

theorem length_frameCells (frame : List Byte) :
    ((frame.flatMap byteBits).flatMap cellEvents).length = 24 * frame.length := by
  rw [length_cells, frameBits_length]
  omega

/-- The events of bit time t are the cell of bit 7 - t mod 8 of byte t div 8 (rules R55, R86). -/
theorem frameEvents_getElem? {frame : List Byte} {t : Nat} {b : Byte} (h : frame[t / 8]? = some b) {i : Nat} (hi : i < 3) :
    (frameEvents frame)[i + 1 + 3 * t]? = (cellEvents (b.getLsbD (7 - t % 8)))[i]? := by
  have hbit : (frame.flatMap byteBits)[t]? = some (b.getLsbD (7 - t % 8)) := by rw [frameBits_get, h, Option.map_some]
  have hcell : 3 * t + i < ((frame.flatMap byteBits).flatMap cellEvents).length := by
    obtain ⟨ht, -⟩ := List.getElem?_eq_some_iff.mp hbit
    rw [length_cells]
    omega
  rw [show i + 1 + 3 * t = 3 * t + i + 1 by omega, frameEvents_eq_cells, List.getElem?_cons_succ,
    List.getElem?_append_left hcell, cells_getElem? hbit hi]

/-- Settles O31: the events are the cells of the frame's bits, three places each, after the falling edge of LATCH_N. -/
theorem framePinsAreBitCellsBetweenLatchEdges : Obligations.FramePinsAreBitCellsBetweenLatchEdges := by
  intro frame
  refine ⟨?_, rfl, ?_, fun t b h => ?_⟩
  · rw [frameEvents_eq_cells, List.length_cons, List.length_append, length_frameCells, List.length_singleton]
  · rw [frameEvents_eq_cells, List.getElem?_cons_succ, ← length_frameCells, List.getElem?_concat_length]
  · exact ⟨frameEvents_getElem? h (i := 0) (by decide), frameEvents_getElem? h (i := 1) (by decide),
      frameEvents_getElem? h (i := 2) (by decide)⟩

/-! ### SETROW on the wire -/

/-- The last bit of a frame is bit 0 of the second byte of chip 0's slot: of the pair where the frame addresses chip 0,
zero otherwise (rules R29, R81). -/
theorem lastBit_frameOf (cfg : Config) {n : BitVec 4} {k : Fin 8} (opc val : Byte) (hk : k.val < n.toNat) :
    lastBit (frameOf cfg n k opc val) = (decide (k.val = 0) && bitAt (pairSecond cfg opc val) 0) := by
  have hlast : (frameOf cfg n k opc val).getLast? = some (frameByte cfg n k opc val (2 * n.toNat - 1)) := by
    rw [List.getLast?_eq_getElem?, frameOf_length, frameOf_get _ _ _ _ _ _ (by omega)]
  have hfirst : ¬ 2 * n.toNat - 1 + 2 * k.val + 2 = 2 * n.toNat := by omega
  simp only [lastBit, hlast, frameByte, if_neg hfirst]
  by_cases h0 : k.val = 0
  · rw [if_pos (by omega), decide_eq_true h0, Bool.true_and]
  · rw [if_neg (by omega), decide_eq_false h0, Bool.false_and]
    rfl

/-- SETROW of a valid address (rule R142). -/
theorem exec_setRow_valid {s : State} (h : s.Ready) {m : Fin 8} (hm : m.val < s.n.toNat) (r : Fin 8) (v : Byte) :
    exec (.setRow m.val r.val v) s = .next (s.setRow params m r v) :=
  congrArg Host.Outcome.next (run_setRowActs_valid h hm r v)

/-- Settles O32: SETROW is one transaction, and each clause is what a transaction does to one part of the state. -/
theorem setRowPutsItsFrameOnTheWire : Obligations.SetRowPutsItsFrameOnTheWire := by
  intro s m r v h hm
  refine ⟨_, exec_setRow_valid h hm r v, ?_, ?_, ?_, BusIdle.setRow h.busIdle params m r v, ?_⟩
  · rw [State.frameTrace, frameLog_setRow, List.reverse_cons]
    rfl
  · simp only [setRow_eq_transact, State.pinTrace, State.transact_pinLog, List.reverse_append, List.reverse_reverse,
      State.setFbRow_n, State.setFbRow_pinLog]
  · rw [setRow_eq_transact]
    exact frame_transact params (s.setFbRow m r v) h.2.2 m (params.opcRow r) v
  · rw [setRow_eq_transact, State.transact_dataPin, State.setFbRow_n, lastBit_frameOf params _ v hm, Bool.decide_and,
      Bool.decide_eq_true]
    rfl

end Sys2Proof.Machine
end

-- Proofs of the encoding family (30_encoding.md): the two encodings.
section
/-! SUPPORT. The decoder and the encoder, one against the other: what a word that decodes says of its fields, and what the
decoder reads from a word the encoder wrote (rules R80, R82, R90 to R96). -/

namespace Sys2Proof

/-! ### From the instruction to the word and back -/

/-- A narrow value is read back from the low bits of its slot (rule R82). -/
theorem narrowValue_slotWord {width : Nat} (hwidth : width ≤ 8) (v : BitVec width) (opc : Byte)
    (make : BitVec width → Instr) : narrowValue width (slotWord (v.setWidth 8) opc) make = .ok (make v) := by
  rw [narrowValue, slotValueField_slotWord, BitVec.toNat_setWidth_of_le hwidth, if_pos v.isLt,
    BitVec.setWidth_setWidth_of_le v hwidth, BitVec.setWidth_eq]

/-- The decoder reads back what the encoder wrote, in either encoding (rules R80, R82, R91 to R93). -/
theorem decode_encodeFields {i : Instr} (h : i.wellFormed = true) : decode (encodeFields i) = .ok i := by
  cases i with
  | nop | clearAll => simp [encodeFields, decode, decodeCommand]
  | configure | placeGlyph =>
    simp only [Instr.wellFormed] at h
    simp [encodeFields, decode, decodeCommand, toInt_int16 h]
  | powerDown | powerUp | scanLimit | intensity | setLedOff | setLedOn | setRow | setColumn | clear =>
    simp only [Instr.wellFormed, Bool.and_eq_true] at h
    simp [encodeFields, decode, decodeCommand, toInt_int8, h]
  | wRow0 | wRow1 | wRow2 | wRow3 | wRow4 | wRow5 | wRow6 | wRow7 =>
    simp [encodeFields, decode, decodeSlot_table, Machine.params]
  | wNoop | wDecode | wDisplayTest =>
    simp [encodeFields, decode, decodeSlot_table, fixedValue, Machine.params]
  | wIntensity | wScanLimit | wShutdown =>
    simp [encodeFields, decode, decodeSlot_table, narrowValue_slotWord, Machine.params]

/-- Settles O46: the encoder refuses exactly the ill-formed instructions, and the decoder reads back what it writes for the
others. -/
theorem decodeEncodeRoundTrip : Obligations.DecodeEncodeRoundTrip := fun i =>
  ⟨fun h => ⟨encodeFields i, if_pos h, decode_encodeFields h⟩, fun h => if_neg (by simp [h])⟩

/-! ### Wire slots -/

theorem slotWord_eq {w : SlotWord} {v o : Byte} (hv : slotValueField w = v) (ho : slotOpcodeField w = o) :
    slotWord v o = w := by
  rw [← hv, ← ho, slotWord_fields]

/-- A slot sent with one value only has that value where it decodes (rule R82). -/
theorem eq_of_fixedValue {w : SlotWord} {value : Byte} {i j : Instr} (h : fixedValue w value i = .ok j) :
    slotValueField w = value ∧ j = i := by
  unfold fixedValue at h
  split at h
  · cases h
    exact ⟨‹_›, rfl⟩
  · cases h

/-- A slot with a narrow value carries it in its low bits, and zeros above them (rule R82). -/
theorem eq_of_narrowValue {width : Nat} {w : SlotWord} {make : BitVec width → Instr} {j : Instr}
    (h : narrowValue width w make = .ok j) : ∃ v, slotValueField w = v.setWidth 8 ∧ j = make v := by
  unfold narrowValue at h
  split at h
  · rename_i hlt
    cases h
    refine ⟨_, BitVec.eq_of_toNat_eq ?_, rfl⟩
    rw [BitVec.toNat_setWidth, BitVec.toNat_setWidth, Nat.mod_eq_of_lt hlt, Nat.mod_eq_of_lt (slotValueField w).isLt]
  · cases h

/-- A slot that decodes is the one the encoder writes for its instruction (rules R80, R82). -/
theorem encode_of_decodeSlot {w : SlotWord} {i : Instr} (h : decodeSlot w = .ok i) : encode i = some (.slot w) := by
  rw [decodeSlot_table] at h
  have hword : ∀ {v o : Byte}, slotValueField w = v → (slotOpcodeField w).toNat = o.toNat →
      some (CodeWord.slot (slotWord v o)) = some (.slot w) := fun hv ho =>
    congrArg (some ∘ CodeWord.slot) (slotWord_eq hv (BitVec.eq_of_toNat_eq ho))
  split at h
  case h_1 hop | h_10 hop | h_14 hop => -- W.NOOP, W.DECODE, W.DISPLAYTEST
    obtain ⟨hv, rfl⟩ := eq_of_fixedValue h
    exact hword hv hop
  case h_11 hop | h_12 hop | h_13 hop => -- W.INTENSITY, W.SCANLIMIT, W.SHUTDOWN
    obtain ⟨v, hv, rfl⟩ := eq_of_narrowValue h
    exact hword hv hop
  case h_15 => cases h
  all_goals -- the eight rows
    rename_i hop
    cases h
    exact hword rfl hop

/-- Settles O49: the slot that decodes is the encoder's, and the encoder's slot decodes by the round trip. -/
theorem wireSlotsHaveOneMeaning : Obligations.WireSlotsHaveOneMeaning := by
  refine fun w i => ⟨encode_of_decodeSlot, fun h => ?_⟩
  unfold encode at h
  split at h
  · rename_i hwf
    have hdecode := decode_encodeFields hwf
    rwa [Option.some.inj h] at hdecode
  · cases h

/-! ### Command words -/

/-- A command word that decodes carries the command code of its command (rule R92). -/
theorem fieldOp_of_decodeCommand {w : CommandWord} {i : Instr} (h : decodeCommand w = .ok i) :
    fieldOp w = Laws.Opcode.code i := by
  unfold decodeCommand at h
  split at h <;> cases h <;> exact BitVec.eq_of_toNat_eq ‹_›

/-- A command word decodes to operands that its fields can carry (rule R93). -/
theorem wellFormed_of_decodeCommand {w : CommandWord} {i : Instr} (h : decodeCommand w = .ok i) :
    i.wellFormed = true := by
  unfold decodeCommand at h
  split at h <;> cases h <;> simp [Instr.wellFormed, fitsField8_toInt, fitsField16_toInt]

/-- Settles O47: a word that decodes carries the code of its command, and each listed code has its arm in the decoder. -/
theorem reservedCodesAreExactlyTheUnlisted : Obligations.ReservedCodesAreExactlyTheUnlisted := by
  refine fun w => ⟨fun ⟨i, h⟩ => ?_, fun h => ?_⟩
  · have hi := Machine.isCommand_of_decodeCommand h
    rw [fieldOp_of_decodeCommand h]
    cases i with
    | nop | configure | powerDown | powerUp | scanLimit | intensity | setLedOff | setLedOn | setRow | setColumn | clear
    | clearAll | placeGlyph => simp [Laws.Opcode.code]
    | _ => cases hi
  · simp only [List.mem_cons, List.not_mem_nil, or_false] at h
    unfold decodeCommand
    rcases h with h | h | h | h | h | h | h | h | h | h | h | h | h <;> rw [h] <;> exact ⟨_, rfl⟩

/-- The word the encoder writes for a command has zero in every field that the command's format ignores (rules R91,
R95). -/
theorem encodeFields_ignored {i : Instr} (hi : i.isCommand = true) : ∃ w, encodeFields i = .command w ∧
    ((Laws.Opcode.code i).toNat ∈ [0x00, 0x25] → fieldA w = 0 ∧ fieldB w = 0 ∧ fieldC w = 0) ∧
    ((Laws.Opcode.code i).toNat ∈ [0x01] → fieldA w = 0) ∧
    ((Laws.Opcode.code i).toNat ∈ [0x10, 0x11, 0x24] → fieldB w = 0 ∧ fieldC w = 0) ∧
    ((Laws.Opcode.code i).toNat ∈ [0x12, 0x13] → fieldB w = 0) := by
  cases i with
  | nop | configure | powerDown | powerUp | scanLimit | intensity | setLedOff | setLedOn | setRow | setColumn | clear
  | clearAll | placeGlyph => exact ⟨_, rfl, by simp [Laws.Opcode.code]⟩
  | _ => cases hi

/-- Settles O48: the decoder's arm for a code reads the fields of its format alone; and the encoder's word of a decoded
command has its code by the round trip. -/
theorem ignoredFieldsDoNotMatter : Obligations.IgnoredFieldsDoNotMatter := by
  constructor
  · intro w w' hop
    simp only [List.mem_cons, List.not_mem_nil, or_false]
    unfold decodeCommand
    rw [← hop]
    refine ⟨?_, ?_, ?_, ?_, ?_, ?_⟩
    · rintro (h | h) <;> simp only [h]
    · rintro h hBC
      simp only [h, hBC]
    · rintro (h | h | h) hA <;> simp only [h, hA]
    · rintro (h | h) hA hC <;> simp only [h, hA, hC]
    · rintro (h | h | h | h) hA hB hC <;> simp only [h, hA, hB, hC]
    · rintro h hA hBC
      simp only [h, hA, hBC]
  · intro w i h
    have hwf := wellFormed_of_decodeCommand h
    have hi := Machine.isCommand_of_decodeCommand h
    obtain ⟨w', hw', hignored⟩ := encodeFields_ignored hi
    have hdecode : decodeCommand w' = .ok i := by
      have := decode_encodeFields hwf
      rwa [hw'] at this
    have hop := fieldOp_of_decodeCommand h
    rw [← hop] at hignored
    exact ⟨hwf, hi, w', by rw [encode, if_pos hwf, hw'], hdecode, (fieldOp_of_decodeCommand hdecode).trans hop.symm,
      hignored⟩

end Sys2Proof
end

-- Proofs of the encoding family (30_encoding.md): the presented command, its text form, and the frames it sends.
section
/-! SUPPORT. The step of a ready block, the text forms of commands, and the frames a command adds to the trace (rules R31,
R33, R82, R97, R100, R181). -/

namespace Sys2Proof.Machine

/-- A block that is ready takes the command word presented to it (rules R31, R97). -/
theorem fetch_command {s : State} {w : CommandWord} {rest : List HostItem} {i : Instr} (hp : s.rxPending = false)
    (hb : s.busy = false) (hh : s.host = .command w :: rest) (hd : decodeCommand w = .ok i) :
    s.fetch = .command i { s with host := rest } := by
  simp [State.fetch, State.fetchHost, State.cmdReady, hp, hb, hh, hd]

/-- Settles O2: what is fetched is the decoded command, and the step carries it out. -/
theorem stepRunsThePresentedCommand : Obligations.StepRunsThePresentedCommand := by
  intro s w rest i hp hb hh hd
  rw [step, fetch_command hp hb hh hd]

/-- Settles O54: each line is lexed, its operands read, and its call expanded, by evaluation. -/
theorem textFormsAssemble : Obligations.TextFormsAssemble := ⟨rfl, rfl, rfl, rfl⟩

/-! ### The frames a command adds -/

/-- The frames of `t` that `s` does not have are ones the block may send in a chain of length n (rules R82, R84). -/
def AddsLegalFrames (n : BitVec 4) (s t : State) : Prop :=
  t.n = n ∧ ∃ fs, t.frameLog = fs ++ s.frameLog ∧ ∀ f ∈ fs, LegalFrame params n f

theorem addsLegalFrames_of_frameLog_eq {s t : State} (h : t.frameLog = s.frameLog) : AddsLegalFrames t.n s t :=
  ⟨rfl, [], h, by simp⟩

/-- A transaction adds the frame of its slot (rule R160). -/
theorem AddsLegalFrames.transact {n : BitVec 4} {s t : State} (h : AddsLegalFrames n s t) {k : Fin 8} {opc val : Byte}
    (hlegal : LegalFrame params n (frameOf params n k opc val)) : AddsLegalFrames n s (t.transact params k opc val) := by
  obtain ⟨rfl, fs, hlog, hfs⟩ := h
  refine ⟨rfl, frameOf params t.n k opc val :: fs, ?_, List.forall_mem_cons.mpr ⟨hlegal, hfs⟩⟩
  rw [State.transact_frameLog, hlog, List.cons_append]

theorem addsLegalFrames_kept (n : BitVec 4) (s : State) : KeptByTransactions n (AddsLegalFrames n s) where
  setRow {t m} r v hm ht := by
    rw [setRow_eq_transact]
    exact AddsLegalFrames.transact (t := t.setFbRow m r v) ht ⟨m, hm, .inl ⟨r, v, rfl⟩⟩
  control hm hslot ht := ht.transact (hslot.legalFrame hm)

/-- The default intensity is one that INTENSITY may send (rules R6, R82, R181). -/
theorem defaultIntensity_le : (params.defaultIntensity.setWidth 8).toNat ≤ 15 := by
  rw [BitVec.toNat_setWidth_of_le (by omega)]
  exact Nat.le_of_lt_succ params.defaultIntensity.isLt

/-- What the transactions keep CONFIGURE keeps, once it has claimed the block (rule R181, steps c and d). -/
theorem KeptByTransactions.configure {n : BitVec 4} {P : State → Prop} (hP : KeptByTransactions n P)
    (hn : ∀ t, P t → t.n = n) {s : State} {o : Orientation} (h : P (s.claimed n o)) : P (s.configure params n o) := by
  have hinit := List.foldlRecOn (motive := P) (modulesBelow n) (fun t m => t.initModule params m) h
    fun _ ht m hm => hP.initModule ((mem_modulesBelow n m).mp hm) ht
  have hdown := hP.everyChip (.setter .powerDown) (hn _ hinit) hinit
  have hlevel := hP.everyChip (.setter (.intensity defaultIntensity_le)) (hn _ hdown) hdown
  have hup := hP.everyChip (.setter .powerUp) (hn _ hlevel) hlevel
  exact hP.clearAll (hn _ hup) hup

/-- Settles O38: on a ready block every unit of a command adds legal frames alone, and on a released one the only command
that sends anything is CONFIGURE, made of transactions too. -/
theorem commandsSendOnlyLegalFrames : Obligations.CommandsSendOnlyLegalFrames := by
  intro s t i hi hs he
  obtain ⟨n, rfl, fs, hlog, hfs⟩ : ∃ n, AddsLegalFrames n s t := by
    obtain hready | ⟨hc, hrel⟩ := hs
    · obtain ⟨u, hu, hadds⟩ := (addsLegalFrames_kept s.n s).keptByUnits.exec_ready hready hi
        (addsLegalFrames_of_frameLog_eq rfl)
      cases hu.symm.trans he
      exact ⟨s.n, hadds⟩
    · obtain e | ⟨count, o, e⟩ := exec_released hc hrel hi he <;> rw [e]
      · exact ⟨s.n, addsLegalFrames_of_frameLog_eq rfl⟩
      · have hclaimed : AddsLegalFrames (clampCount count) s (s.claimed (clampCount count) o) :=
          addsLegalFrames_of_frameLog_eq rfl
        exact ⟨_, (addsLegalFrames_kept _ s).configure (fun _ ht => ht.1) hclaimed⟩
  refine ⟨fs.reverse, ?_, fun f hf => hfs f (List.mem_reverse.mp hf)⟩
  rw [State.frameTrace, hlog, List.reverse_append, State.frameTrace]

end Sys2Proof.Machine
end

-- Proofs of the orientation family (41_orientation.md): the pixel permutations, their laws, and the reserved strap.
section
/-! SUPPORT. The orientation engine as a permutation of the 64 places of a pattern, and the inverse of each mode (rules
R130, R133); CONFIGURE under a strap that selects no mode (rule R135). -/

namespace Sys2Proof.Machine

/-! ### The three permutations -/

@[simp] theorem pixel_transform_clockwiseMount (g : Glyph) (r c : Fin 8) :
    pixel (transform g .clockwiseMount) r c = pixel g c.rev r :=
  pixel_glyphOfPixels _ r c

@[simp] theorem pixel_transform_counterClockwiseMount (g : Glyph) (r c : Fin 8) :
    pixel (transform g .counterClockwiseMount) r c = pixel g c r.rev :=
  pixel_glyphOfPixels _ r c

@[simp] theorem pixel_transform_mirroredMount (g : Glyph) (r c : Fin 8) :
    pixel (transform g .mirroredMount) r c = pixel g r.rev c :=
  pixel_glyphOfPixels _ r c

/-- Settles O28: the pixels of a transformed pattern are those it was built from, mode by mode. -/
theorem transformPermutesThePixels : Obligations.TransformPermutesThePixels := fun g r c =>
  ⟨pixel_transform_clockwiseMount g r c, pixel_transform_counterClockwiseMount g r c,
    pixel_transform_mirroredMount g r c⟩

/-! ### The laws of the modes -/

/-- The mode that undoes a mode (rule R133, clauses c and e). -/
def inverseMode : Orientation → Orientation
  | .clockwiseMount => .counterClockwiseMount
  | .counterClockwiseMount => .clockwiseMount
  | .mirroredMount => .mirroredMount

@[simp] theorem inverseMode_inverseMode (o : Orientation) : inverseMode (inverseMode o) = o := by cases o <;> rfl

/-- A mode and then its inverse give the pattern back: every pixel is taken from its own place. -/
theorem transform_inverseMode (g : Glyph) (o : Orientation) : transform (transform g o) (inverseMode o) = g :=
  glyph_ext fun r c => by cases o <;> simp [inverseMode]

theorem transform_bijective (o : Orientation) : Function.Bijective fun g : Glyph => transform g o :=
  Function.bijective_iff_has_inverse.mpr ⟨fun g => transform g (inverseMode o), fun g => transform_inverseMode g o,
    fun g => by simpa using transform_inverseMode g (inverseMode o)⟩

/-- The turns undo each other (rule R133, clause e). -/
theorem transform_clockwiseMount_counterClockwiseMount (g : Glyph) :
    transform (transform g .clockwiseMount) .counterClockwiseMount = g :=
  transform_inverseMode g .clockwiseMount

theorem transform_counterClockwiseMount_clockwiseMount (g : Glyph) :
    transform (transform g .counterClockwiseMount) .clockwiseMount = g :=
  transform_inverseMode g .counterClockwiseMount

/-- Two clockwise turns are the half turn (rule R133, clause f). -/
theorem pixel_transform_clockwiseMount_twice (g : Glyph) (r c : Fin 8) :
    pixel (transform (transform g .clockwiseMount) .clockwiseMount) r c = pixel g r.rev c.rev := by simp

/-- The half turn is the same in both directions. -/
theorem transform_clockwiseMount_twice (g : Glyph) :
    transform (transform g .clockwiseMount) .clockwiseMount =
      transform (transform g .counterClockwiseMount) .counterClockwiseMount :=
  glyph_ext fun r c => by simp

/-- Four turns are two there and two back, since the last two may as well go the other way (rule R133, clause b). -/
theorem transform_clockwiseMount_four (g : Glyph) :
    transform (transform (transform (transform g .clockwiseMount) .clockwiseMount) .clockwiseMount) .clockwiseMount =
      g := by
  rw [transform_clockwiseMount_twice (transform (transform g _) _), transform_clockwiseMount_counterClockwiseMount,
    transform_clockwiseMount_counterClockwiseMount]

theorem transform_counterClockwiseMount_four (g : Glyph) :
    transform (transform (transform (transform g .counterClockwiseMount) .counterClockwiseMount)
      .counterClockwiseMount) .counterClockwiseMount = g := by
  rw [← transform_clockwiseMount_twice (transform (transform g _) _), transform_counterClockwiseMount_clockwiseMount,
    transform_counterClockwiseMount_clockwiseMount]

/-- The place of the input that a place of the output shows (rule R130): each turn swaps the coordinates and reverses
one of them, the mirroring reverses the row alone. -/
def sourcePlace : Orientation → Equiv.Perm (Fin 8 × Fin 8)
  | .clockwiseMount => (Equiv.prodComm _ _).trans (Fin.revPerm.prodCongr (Equiv.refl _))
  | .counterClockwiseMount => (Equiv.prodComm _ _).trans ((Equiv.refl _).prodCongr Fin.revPerm)
  | .mirroredMount => Fin.revPerm.prodCongr (Equiv.refl _)

theorem pixel_transform (g : Glyph) (o : Orientation) (p : Fin 8 × Fin 8) :
    pixel (transform g o) p.1 p.2 = pixel g (sourcePlace o p).1 (sourcePlace o p).2 := by
  cases o <;> simp [sourcePlace]

/-- The set places of the output are those of the input, moved (rule R133, clause g). -/
theorem card_pixels_transform (g : Glyph) (o : Orientation) :
    (Finset.univ.filter fun p : Fin 8 × Fin 8 => pixel (transform g o) p.1 p.2 = true).card =
      (Finset.univ.filter fun p : Fin 8 × Fin 8 => pixel g p.1 p.2 = true).card :=
  Finset.card_equiv (sourcePlace o) fun p => by simp [pixel_transform]

/-- Settles O29: each mode has an inverse mode, the half turn is the same in both directions, and each mode permutes the
places of the pixels. -/
theorem transformLaws : Obligations.TransformLaws :=
  ⟨transform_bijective, fun g =>
    ⟨⟨transform_clockwiseMount_four g, transform_counterClockwiseMount_four g, transform_inverseMode g .mirroredMount,
        transform_clockwiseMount_counterClockwiseMount g, transform_counterClockwiseMount_clockwiseMount g⟩,
      pixel_transform_clockwiseMount_twice g, card_pixels_transform g⟩⟩

/-! ### The reserved strap -/

/-- CONFIGURE of an unconfigured block is refused where the strap selects no mode (rule R135). -/
theorem exec_configure_refused {s : State} (hc : s.configured = false) (ho : orientOfStrap s.orientStrap = none)
    (count : Int) : exec (.configure count) s = .refused .reservedOrientStrap := by
  simp [exec, execConfigure, configureActs, hc, ho]

/-- Settles O19: the decoder has an arm for each of 0, 1 and 2, and under 3 it gives CONFIGURE no mode. -/
theorem reservedStrapIsRefused : Obligations.ReservedStrapIsRefused := by
  have hnone : orientOfStrap 3 = none := rfl
  exact ⟨rfl, rfl, rfl, hnone, fun s count hc hs => exec_configure_refused hc (hs ▸ hnone) count⟩

end Sys2Proof.Machine
end

-- Proofs of the framebuffer family (42_framebuffer.md): checks that fail, rows sent one after another, and the setters.
section
/-! SUPPORT. The commands whose checks fail, the commands with a valid address, and what sending several rows of a module
does to the rows and to the frame trace (rules R140 to R148, R183 to R186, R251). -/

namespace Sys2Proof.Machine

/-! ### A check that fails -/

theorem index8_none_of_not_le {i : Int} (h : ¬ (0 ≤ i ∧ i ≤ 7)) : index8 i = none := index8_none (by omega)

theorem valueUpTo_none {max : Nat} {v : Int} (h : ¬ (0 ≤ v ∧ v ≤ (max : Int))) : valueUpTo max v = none := if_neg h

/-- A setter without a valid module or without a value to send makes no move (rules R183 to R186). -/
theorem setterActs_eq_nil {s : State} {mdl : Int} {value : Option Byte} (opc : Byte)
    (h : s.configured = false ∨ ¬ (0 ≤ mdl ∧ mdl < (s.n.toNat : Int)) ∨ value = none) :
    setterActs s mdl opc value = [] := by
  obtain hc | hm | rfl := h
  · simp [setterActs, hc]
  · simp [setterActs, moduleIndex_none s hm]
  · simp [setterActs]

/-- SETLED makes no move where a check fails (rules R140, R141). -/
theorem setLedActs_eq_nil {s : State} {mdl row col : Int} (on : Bool) (h : s.Drops (.setLedOn mdl row col)) :
    setLedActs s mdl row col on = [] := by
  obtain hc | hm | hr | hcol := h
  · simp [setLedActs, hc]
  · simp [setLedActs, moduleIndex_none s hm]
  · simp [setLedActs, index8_none_of_not_le hr]
  · simp [setLedActs, index8_none_of_not_le hcol]

/-- A dropped command makes no move (rule R251, conditions X1 to X5, X11 and X12). -/
theorem commandActs_of_drops {s : State} {i : Instr} (h : s.Drops i) : commandActs params s i = .ok [] := by
  cases i with
  | configure => simp [commandActs, configureActs, show s.configured = true from h]
  | powerDown | powerUp => exact congrArg Except.ok (setterActs_eq_nil _ (h.imp_right .inl))
  | scanLimit | intensity =>
    exact congrArg Except.ok (setterActs_eq_nil _ (h.imp_right (Or.imp_right valueUpTo_none)))
  | setLedOff | setLedOn => exact congrArg Except.ok (setLedActs_eq_nil _ h)
  | setRow =>
    obtain hc | hm | hr := h
    · exact commandActs_unconfigured hc (by simp)
    · simp [commandActs, setRowActs, moduleIndex_none s hm]
    · simp [commandActs, setRowActs, index8_none_of_not_le hr]
  | setColumn =>
    obtain hc | hm | hcol := h
    · exact commandActs_unconfigured hc (by simp)
    · simp [commandActs, setColumnActs, moduleIndex_none s hm]
    · simp [commandActs, setColumnActs, index8_none_of_not_le hcol]
  | clear =>
    obtain hc | hm := h
    · exact commandActs_unconfigured hc (by simp)
    · simp [commandActs, clearActs, moduleIndex_none s hm]
  | clearAll | placeGlyph => exact commandActs_unconfigured h (by simp)
  | _ => cases h

/-- A command carries out its moves (rule R34). -/
theorem exec_of_commandActs {s : State} {i : Instr} {acts : List Act} (hi : i.isCommand = true)
    (h : commandActs params s i = .ok acts) : exec i s = .next (s.run params acts) := by
  cases i with
  | configure count =>
    simp only [commandActs] at h
    simp only [exec, execConfigure, h]
  | nop | powerDown | powerUp | scanLimit | intensity | setLedOff | setLedOn | setRow | setColumn | clear | clearAll
  | placeGlyph => cases h; rfl
  | _ => cases hi

/-- Only commands are dropped: a wire slot has no check (rules R225, R251). -/
theorem State.Drops.isCommand {s : State} {i : Instr} (h : s.Drops i) : i.isCommand = true := by
  cases i with
  | wNoop | wRow0 | wRow1 | wRow2 | wRow3 | wRow4 | wRow5 | wRow6 | wRow7 | wDecode | wIntensity | wScanLimit | wShutdown
  | wDisplayTest => cases h
  | _ => rfl

/-- A dropped command changes nothing at all, traces included (rules R140, R251). -/
theorem exec_of_drops {s : State} {i : Instr} (h : s.Drops i) : exec i s = .next s :=
  exec_of_commandActs h.isCommand (commandActs_of_drops h)

/-! ### A valid address -/

section
variable {s : State} (h : s.Ready) {m : Fin 8} (hm : m.val < s.n.toNat)
include h hm

theorem exec_setLedOff_valid (r c : Fin 8) :
    exec (.setLedOff m.val r.val c.val) s = .next (s.setLed params m r c false) :=
  congrArg Host.Outcome.next (run_setLedActs_valid h hm r c false)

theorem exec_setLedOn_valid (r c : Fin 8) :
    exec (.setLedOn m.val r.val c.val) s = .next (s.setLed params m r c true) :=
  congrArg Host.Outcome.next (run_setLedActs_valid h hm r c true)

theorem exec_setColumn_valid (c : Fin 8) (bits : Byte) :
    exec (.setColumn m.val c.val bits) s = .next (s.setColumn params m c bits) :=
  congrArg Host.Outcome.next (run_setColumnActs_valid h hm c bits)

theorem exec_clear_valid : exec (.clear m.val) s = .next (s.clear params m) :=
  congrArg Host.Outcome.next (run_clearActs_valid h hm)

/-- A setter of a valid module with a value to send is one transaction (rules R183 to R186, R190). -/
theorem run_setterActs_valid {opc : Byte} (hmap : Mapped params opc) (v : Byte) :
    s.run params (setterActs s m.val opc (some v)) = s.transact params m opc v := by
  simp only [setterActs, h.1, if_true, moduleIndex_fin s m hm, run_bus h.inChain v hmap hm]

theorem exec_powerDown_valid :
    exec (.powerDown m.val) s = .next (s.transact params m params.opcShutdown params.valPowerDown) :=
  congrArg Host.Outcome.next (run_setterActs_valid h hm mapped_shutdown _)

theorem exec_powerUp_valid :
    exec (.powerUp m.val) s = .next (s.transact params m params.opcShutdown params.valPowerUp) :=
  congrArg Host.Outcome.next (run_setterActs_valid h hm mapped_shutdown _)

theorem exec_scanLimit_valid {limit : Nat} (hv : limit ≤ 7) :
    exec (.scanLimit m.val limit) s = .next (s.transact params m params.opcScanLimit (BitVec.ofNat 8 limit)) := by
  have hvalue : valueUpTo 7 (limit : Int) = some (BitVec.ofNat 8 limit) := if_pos (by omega)
  simp only [exec, execScanLimit, scanLimitActs, hvalue, run_setterActs_valid h hm mapped_scanLimit]

theorem exec_intensity_valid {level : Nat} (hv : level ≤ 15) :
    exec (.intensity m.val level) s = .next (s.transact params m params.opcIntensity (BitVec.ofNat 8 level)) := by
  have hvalue : valueUpTo 15 (level : Int) = some (BitVec.ofNat 8 level) := if_pos (by omega)
  simp only [exec, execIntensity, intensityActs, hvalue, run_setterActs_valid h hm mapped_intensity]

end

/-- Settles O8: a failed check makes the command one that drops, a valid address is SETLED of it, and each code has its arm
in the decoder. -/
theorem setLedChangesOneBitAndPushesTheRow : Obligations.SetLedChangesOneBitAndPushesTheRow := by
  refine fun s => ⟨fun mdl row col hdrops => ?_, fun m r c h hm => ?_, fun w => ⟨fun hop => ?_, fun hop => ?_⟩⟩
  · exact ⟨exec_of_drops hdrops, exec_of_drops hdrops⟩
  · exact ⟨exec_setLedOff_valid h hm r c, exec_setLedOn_valid h hm r c⟩
  · rw [decodeCommand, hop]
    rfl
  · rw [decodeCommand, hop]
    rfl

/-- Settles O9: a failed check makes the command one that drops, a valid address is SETROW of it, and the code has its arm
in the decoder. -/
theorem setRowReplacesARowAndPushesIt : Obligations.SetRowReplacesARowAndPushesIt := by
  refine fun s v => ⟨fun mdl row hdrops => ?_, fun m r h hm => ?_, fun w hop => ?_⟩
  · exact exec_of_drops hdrops
  · exact exec_setRow_valid h hm r v
  · rw [decodeCommand, hop]
    rfl

/-! ### One row sent -/

/-- The bits after SETLED (rule R141). -/
theorem bitAt_setLed (s : State) (m r c m' r' c' : Fin 8) (on : Bool) :
    bitAt ((s.setLed params m r c on).fbRow m' r') c' =
      if m' = m ∧ r' = r ∧ c' = c then on else bitAt (s.fbRow m' r') c' := by
  rw [fbRow_setLed]
  by_cases hrow : m' = m ∧ r' = r
  · obtain ⟨rfl, rfl⟩ := hrow
    simp [eq_comm]
  · rw [if_neg hrow, if_neg fun h => hrow ⟨h.1, h.2.1⟩]

/-- SETLED adds the frame of the row as it stands afterwards (rules R141, R146). -/
theorem frameTrace_setLed (s : State) (m r c : Fin 8) (on : Bool) : (s.setLed params m r c on).frameTrace =
    s.frameTrace ++ [frameOf params s.n m (params.opcRow r) ((s.setLed params m r c on).fbRow m r)] := by
  simp only [State.frameTrace, frameLog_setLed, List.reverse_cons]

/-- SETROW adds the frame of its value (rule R142). -/
theorem frameTrace_setRow (s : State) (m r : Fin 8) (v : Byte) : (s.setRow params m r v).frameTrace =
    s.frameTrace ++ [frameOf params s.n m (params.opcRow r) v] := by
  simp only [State.frameTrace, frameLog_setRow, List.reverse_cons]

/-! ### Rows sent one after another -/

/-- The rows `l` of module m, each replaced by `f` of itself and sent (rules R143, R144). -/
def State.mapRows (s : State) (m : Fin 8) (f : Fin 8 → Byte → Byte) (l : List (Fin 8)) : State :=
  l.foldl (fun t r => t.setRow params m r (f r (t.fbRow m r))) s

theorem setColumn_eq_mapRows (s : State) (m c : Fin 8) (bits : Byte) :
    s.setColumn params m c bits = s.mapRows m (fun r b => setBit b c (bitAt bits r)) upTo7 := rfl

theorem clear_eq_mapRows (s : State) (m : Fin 8) : s.clear params m = s.mapRows m (fun _ _ => 0) upTo7 := rfl

/-- The rows afterwards: no row is replaced twice. -/
theorem fbRow_mapRows (m : Fin 8) (f : Fin 8 → Byte → Byte) {l : List (Fin 8)} (hl : l.Nodup) (s : State)
    (m' r' : Fin 8) : (s.mapRows m f l).fbRow m' r' =
      if m' = m ∧ r' ∈ l then f r' (s.fbRow m r') else s.fbRow m' r' := by
  induction l generalizing s with
  | nil => simp [State.mapRows]
  | cons r l ih =>
    obtain ⟨hr, hl⟩ := List.nodup_cons.mp hl
    refine (ih hl (s.setRow params m r (f r (s.fbRow m r)))).trans ?_
    simp only [fbRow_setRow, List.mem_cons]
    by_cases hrow : r' = r
    · subst hrow
      simp [hr]
    · simp [hrow]

/-- One frame for each row, in the order of the rows, newest first in the log (rules R10, R146). -/
theorem frameLog_mapRows (m : Fin 8) (f : Fin 8 → Byte → Byte) {l : List (Fin 8)} (hl : l.Nodup) (s : State) :
    (s.mapRows m f l).frameLog =
      (l.map fun r => frameOf params s.n m (params.opcRow r) (f r (s.fbRow m r))).reverse ++ s.frameLog := by
  induction l generalizing s with
  | nil => rfl
  | cons r l ih =>
    obtain ⟨hr, hl⟩ := List.nodup_cons.mp hl
    have hrest : ∀ r' ∈ l, (s.setRow params m r (f r (s.fbRow m r))).fbRow m r' = s.fbRow m r' := fun r' hr' => by
      rw [fbRow_setRow, if_neg (by rintro ⟨-, rfl⟩; exact hr hr')]
    refine (ih hl (s.setRow params m r (f r (s.fbRow m r)))).trans ?_
    rw [List.map_congr_left fun r' hr' => by rw [hrest r' hr', setRow_n], frameLog_setRow, List.map_cons,
      List.reverse_cons, List.append_assoc, List.singleton_append]

/-- The bits after SETCOLUMN (rule R143). -/
theorem bitAt_setColumn (s : State) (m c m' r' c' : Fin 8) (bits : Byte) :
    bitAt ((s.setColumn params m c bits).fbRow m' r') c' =
      if m' = m ∧ c' = c then bitAt bits r' else bitAt (s.fbRow m' r') c' := by
  rw [setColumn_eq_mapRows, fbRow_mapRows m _ nodup_upTo7]
  by_cases hm : m' = m
  · subst hm
    simp [eq_comm]
  · simp [hm]

/-- SETCOLUMN adds the frames of the eight rows as they stand afterwards (rules R143, R146). -/
theorem frameTrace_setColumn (s : State) (m c : Fin 8) (bits : Byte) : (s.setColumn params m c bits).frameTrace =
    s.frameTrace ++ upTo7.map fun r =>
      frameOf params s.n m (params.opcRow r) ((s.setColumn params m c bits).fbRow m r) := by
  rw [setColumn_eq_mapRows]
  simp only [State.frameTrace, frameLog_mapRows m _ nodup_upTo7, List.reverse_append, List.reverse_reverse,
    fbRow_mapRows m _ nodup_upTo7, mem_upTo7, and_self, if_true]

/-- The rows after CLEAR (rule R144). -/
theorem fbRow_clear (s : State) (m m' r' : Fin 8) :
    (s.clear params m).fbRow m' r' = if m' = m then 0 else s.fbRow m' r' := by
  simp only [clear_eq_mapRows, fbRow_mapRows m _ nodup_upTo7, mem_upTo7, and_true]

/-- CLEAR adds the frames of eight zero rows (rule R144). -/
theorem frameTrace_clear (s : State) (m : Fin 8) : (s.clear params m).frameTrace =
    s.frameTrace ++ upTo7.map fun r => frameOf params s.n m (params.opcRow r) 0 := by
  simp only [clear_eq_mapRows, State.frameTrace, frameLog_mapRows m _ nodup_upTo7, List.reverse_append,
    List.reverse_reverse]

/-! ### The laws of the framebuffer -/

/-- Settles O12: SETLED and SETROW write and send one row, SETCOLUMN and CLEAR the eight rows of their module, each row
once. -/
theorem framebufferCommandsChangeOnlyTheirCells : Obligations.FramebufferCommandsChangeOnlyTheirCells := by
  intro s m h hm
  refine ⟨fun r c on => ?_, fun r v => ?_, fun c bits => ?_, ?_⟩
  · refine ⟨s.setLed params m r c on, ?_, fun m' r' c' => bitAt_setLed s m r c m' r' c' on,
      frameTrace_setLed s m r c on⟩
    cases on
    · exact exec_setLedOff_valid h hm r c
    · exact exec_setLedOn_valid h hm r c
  · exact ⟨_, exec_setRow_valid h hm r v, fun m' r' => fbRow_setRow s m r m' r' v, frameTrace_setRow s m r v⟩
  · exact ⟨_, exec_setColumn_valid h hm c bits, fun m' r' c' => bitAt_setColumn s m c m' r' c' bits,
      frameTrace_setColumn s m c bits⟩
  · exact ⟨_, exec_clear_valid h hm, fbRow_clear s m, frameTrace_clear s m⟩

/-! ### The setters -/

/-- Settles O17: each setter is one transaction, and the chip takes its value by the write of the setter's opcode. -/
theorem settersReachOneRegisterOfOneChip : Obligations.SettersReachOneRegisterOfOneChip := by
  intro s m limit level h hm i chip hi
  obtain ⟨opc, v, he, hwrite⟩ : ∃ opc v, exec i s = .next (s.transact params m opc v) ∧
      s.chips[m].write params (freeChip s.freeCount m) opc v = chip := by
    obtain ⟨rfl, rfl⟩ | ⟨rfl, rfl⟩ | ⟨rfl, rfl⟩ | ⟨rfl, rfl⟩ := hi
    · exact ⟨_, _, exec_powerDown_valid h hm, write_shutdown _ _ _⟩
    · exact ⟨_, _, exec_powerUp_valid h hm, write_shutdown _ _ _⟩
    · refine ⟨_, _, exec_scanLimit_valid h hm (Nat.le_of_lt_succ limit.isLt), ?_⟩
      simp [write_scanLimit]
    · refine ⟨_, _, exec_intensity_valid h hm (Nat.le_of_lt_succ level.isLt), ?_⟩
      simp [write_intensity]
  refine ⟨_, he, ?_, rfl, State.SameControl.refl s, BusIdle.transact h.busIdle params m opc v⟩
  rw [State.transact_chips, hwrite]

end Sys2Proof.Machine
end

-- Proofs of the bus encoder family (43_bus_encoder.md): where a frame's bytes stand.
section
/-! SUPPORT. The bytes of a frame by their position from the front: the pair of chip k at 2(N-1-k), zeros elsewhere (rules
R81, R169). -/

namespace Sys2Proof.Machine

/-- The pair on the wire under the spec's decision D27: the value first, the wire opcode second. -/
@[simp] theorem pairFirst_params (opc val : Byte) : pairFirst params opc val = val := rfl

@[simp] theorem pairSecond_params (opc val : Byte) : pairSecond params opc val = opc := rfl

/-- The byte at position p, where `frameByte` counts from the frame's end and rule R81 from its front: for a chip of the
chain the two agree. -/
theorem frameByte_of_lt (cfg : Config) {n : BitVec 4} {k : Fin 8} (hk : k.val < n.toNat) (opc val : Byte) (p : Nat) :
    frameByte cfg n k opc val p =
      if p = 2 * (n.toNat - 1 - k.val) then pairFirst cfg opc val
      else if p = 2 * (n.toNat - 1 - k.val) + 1 then pairSecond cfg opc val else 0 := by
  have hfirst : p + 2 * k.val + 2 = 2 * n.toNat ↔ p = 2 * (n.toNat - 1 - k.val) := by omega
  have hsecond : p + 2 * k.val + 1 = 2 * n.toNat ↔ p = 2 * (n.toNat - 1 - k.val) + 1 := by omega
  simp only [frameByte, hfirst, hsecond]

/-- Settles O30: each byte of the frame is `frameByte`, read by its position from the front. -/
theorem frameCarriesOnePairAndZeros : Obligations.FrameCarriesOnePairAndZeros := by
  intro n k opc val hk
  refine ⟨frameOf_length params n k opc val, fun p hp => ?_⟩
  rw [frameOf_get params n k opc val p hp, frameByte_of_lt params hk, pairFirst_params, pairSecond_params]

end Sys2Proof.Machine
end

-- Proofs of the device control family (44_device_control.md): the setters, and the start-up sequence of CONFIGURE.
section
/-! SUPPORT. The setters' exact effects, and CONFIGURE as one list of transactions, from which its counts, its last frame and
the registers it leaves are read (rules R181 to R188). -/

namespace Sys2Proof.Machine

/-! ### The setters -/

/-- Settles O14: a failed check makes the command one that drops, a valid module is sent one shutdown write, and each code
has its arm in the decoder. -/
theorem powerCommandsSendOneShutdownWrite : Obligations.PowerCommandsSendOneShutdownWrite := by
  refine fun s => ⟨fun mdl hdrops => ?_, fun m h hm => ?_, fun w => ⟨fun hop => ?_, fun hop => ?_⟩⟩
  · exact ⟨exec_of_drops hdrops, exec_of_drops hdrops⟩
  · exact ⟨exec_powerDown_valid h hm, exec_powerUp_valid h hm⟩
  · rw [decodeCommand, hop]
    rfl
  · rw [decodeCommand, hop]
    rfl

/-- Settles O15: a failed check makes the command one that drops, a limit of 0..7 is sent, and the code has its arm in the
decoder. -/
theorem scanLimitSendsALimitUpToSeven : Obligations.ScanLimitSendsALimitUpToSeven := by
  refine fun s => ⟨fun mdl limit hdrops => ?_, fun m limit h hm hlimit => ?_, fun w hop => ?_⟩
  · exact exec_of_drops hdrops
  · exact exec_scanLimit_valid h hm hlimit
  · rw [decodeCommand, hop]
    rfl

/-- Settles O16: a failed check makes the command one that drops, a level of 0..15 is sent, and the code has its arm in the
decoder. -/
theorem intensitySendsALevelUpToFifteen : Obligations.IntensitySendsALevelUpToFifteen := by
  refine fun s => ⟨fun mdl level hdrops => ?_, fun m level h hm hlevel => ?_, fun w hop => ?_⟩
  · exact exec_of_drops hdrops
  · exact exec_intensity_valid h hm hlevel
  · rw [decodeCommand, hop]
    rfl

/-! ### Transactions sent one after another -/

/-- One transaction to be sent: the chip, the wire opcode and the value (rule R160). -/
abbrev Transaction := Fin 8 × Byte × Byte

/-- The block after the transactions of a list, in order. -/
def State.send (s : State) (l : List Transaction) : State :=
  l.foldl (fun t x => t.transact params x.1 x.2.1 x.2.2) s

/-- A chip after the slots of a list (wire opcode and value), in order (rule R224). -/
def ChipRegs.writes (c free : ChipRegs) (slots : List (Byte × Byte)) : ChipRegs :=
  slots.foldl (fun c x => c.write params free x.1 x.2) c

theorem send_append (s : State) (l l' : List Transaction) : s.send (l ++ l') = (s.send l).send l' := List.foldl_append

theorem writes_append (c free : ChipRegs) (l l' : List (Byte × Byte)) :
    c.writes free (l ++ l') = (c.writes free l).writes free l' := List.foldl_append

/-- What each transaction keeps, a list of them keeps. -/
theorem send_keeps {P : State → Prop} (hP : ∀ t k opc val, P t → P (t.transact params k opc val))
    (l : List Transaction) {s : State} (h : P s) : P (s.send l) :=
  List.foldlRecOn l _ h fun t ht x _ => hP t x.1 x.2.1 x.2.2 ht

theorem sameControl_send (s : State) (l : List Transaction) : s.SameControl (s.send l) :=
  send_keeps (fun _ _ _ _ ht => ht) l (State.SameControl.refl s)

theorem n_send (s : State) (l : List Transaction) : (s.send l).n = s.n :=
  send_keeps (P := fun t => t.n = s.n) (fun _ _ _ _ ht => ht) l rfl

theorem fbRow_send (s : State) (l : List Transaction) (m r : Fin 8) : (s.send l).fbRow m r = s.fbRow m r :=
  send_keeps (P := fun t => t.fbRow m r = s.fbRow m r) (fun _ _ _ _ ht => ht) l rfl

theorem BusIdle.send {s : State} (h : s.BusIdle) (l : List Transaction) : (s.send l).BusIdle :=
  send_keeps (P := State.BusIdle) (fun _ k opc val ht => BusIdle.transact ht params k opc val) l h

/-- One frame each (rule R160). -/
theorem length_frameLog_send (s : State) (l : List Transaction) :
    (s.send l).frameLog.length = s.frameLog.length + l.length := by
  induction l generalizing s with
  | nil => rfl
  | cons x l ih =>
    refine (ih _).trans ?_
    rw [State.transact_frameLog, List.length_cons, List.length_cons]
    omega

/-- Three pin events for each of the 16N bits of a frame and the two edges of LATCH_N (rule R86). -/
theorem length_pinLog_send (s : State) (l : List Transaction) :
    (s.send l).pinLog.length = s.pinLog.length + l.length * (48 * s.n.toNat + 2) := by
  induction l generalizing s with
  | nil => simp [State.send]
  | cons x l ih =>
    refine (ih _).trans ?_
    rw [State.transact_pinLog, List.length_append, List.length_reverse, (framePinsAreBitCellsBetweenLatchEdges _).1,
      frameOf_length, State.transact_n, List.length_cons, Nat.add_mul]
    omega

/-- Each chip takes the slots addressed to it (rule R226). -/
theorem chips_send (s : State) (l : List Transaction) (k : Fin 8) : (s.send l).chips[k] =
    s.chips[k].writes (freeChip s.freeCount k) ((l.filter fun x => x.1 = k).map Prod.snd) := by
  induction l generalizing s with
  | nil => rfl
  | cons x l ih =>
    refine (ih _).trans ?_
    rw [chips_transact_getElem, State.transact_freeCount]
    by_cases hk : x.1 = k
    · rw [if_pos hk, List.filter_cons_of_pos (by simpa using hk)]
      rfl
    · rw [if_neg hk, List.filter_cons_of_neg (by simpa using hk)]

/-- Of the slots sent to every module of a list, a module of the list takes each once. -/
theorem slots_product {ms : List (Fin 8)} (hms : ms.Nodup) (slots : List (Byte × Byte)) (k : Fin 8) :
    ((ms ×ˢ slots).filter fun x => x.1 = k).map Prod.snd = if k ∈ ms then slots else [] := by
  induction ms with
  | nil => rfl
  | cons m ms ih =>
    obtain ⟨hm, hms⟩ := List.nodup_cons.mp hms
    rw [List.product_cons, List.filter_append, List.map_append, ih hms, List.filter_map]
    by_cases hk : m = k
    · subst hk
      simp [hm, Function.comp_def]
    · simp [hk, Ne.symm hk, Function.comp_def]

/-- Of the slots sent to every module of a list, the last module takes the last slot last. -/
theorem getLast?_product {α β : Type} {l : List α} {l' : List β} {a : α} {b : β} (ha : l.getLast? = some a)
    (hb : l'.getLast? = some b) : (l ×ˢ l').getLast? = some (a, b) := by
  obtain ⟨xs, rfl⟩ := List.getLast?_eq_some_iff.mp ha
  obtain ⟨ys, rfl⟩ := List.getLast?_eq_some_iff.mp hb
  simp [SProd.sprod, List.product]

/-! ### CONFIGURE as a list of transactions -/

/-- Eight rows of zero: the slots of CLEAR (rule R144). -/
def clearSlots : List (Byte × Byte) := upTo7.map fun r => (params.opcRow r, 0)

/-- Display test off, scan limit 7, decode off, CLEAR: the slots of step c of CONFIGURE (rule R181). -/
def initSlots : List (Byte × Byte) :=
  [(params.opcDisplayTest, params.valTestOff), (params.opcScanLimit, 7), (params.opcDecode, params.valDecodeOff)]
    ++ clearSlots

/-- The passes of CONFIGURE over the modules, each with the slots it sends to every module (rule R181, steps c and d). -/
def startUpPasses : List (List (Byte × Byte)) :=
  [initSlots, [(params.opcShutdown, params.valPowerDown)],
    [(params.opcIntensity, params.defaultIntensity.setWidth 8)], [(params.opcShutdown, params.valPowerUp)], clearSlots]

/-- The transactions of CONFIGURE, in order (rule R181). -/
def startUp (n : BitVec 4) : List Transaction := startUpPasses.flatMap fun slots => modulesBelow n ×ˢ slots

/-- Every row of the framebuffer is zero. -/
def State.RowsZero (s : State) : Prop := ∀ m r : Fin 8, s.fbRow m r = 0

theorem State.RowsZero.send {s : State} (h : s.RowsZero) (l : List Transaction) : (s.send l).RowsZero :=
  fun m r => (fbRow_send s l m r).trans (h m r)

/-- On a framebuffer of zeros, parts that only send are the list of what they send. -/
theorem foldl_eq_send {α : Type} {f : State → α → State} {g : α → List Transaction}
    (hf : ∀ t a, t.RowsZero → f t a = t.send (g a)) (l : List α) {s : State} (h : s.RowsZero) :
    l.foldl f s = s.send (l.flatMap g) := by
  induction l generalizing s with
  | nil => rfl
  | cons a l ih => rw [List.foldl_cons, hf s a h, ih (h.send _), List.flatMap_cons, send_append]

section
variable {s : State} (h : s.RowsZero)
include h

/-- Clearing a row that is zero only sends it (rule R144). -/
theorem setRow_eq_send (m r : Fin 8) : s.setRow params m r 0 = s.send [(m, params.opcRow r, 0)] := by
  have hsame : s.setFbRow m r 0 = s := by
    rw [← h m r]
    simp [State.setFbRow, State.fbRow]
  rw [setRow_eq_transact, hsame]
  rfl

theorem clear_eq_send (m : Fin 8) : s.clear params m = s.send (clearSlots.map (Prod.mk m)) :=
  foldl_eq_send (fun _ r ht => setRow_eq_send ht m r) upTo7 h

theorem initModule_eq_send (m : Fin 8) : s.initModule params m = s.send (initSlots.map (Prod.mk m)) := by
  rw [initSlots, List.map_append, send_append, ← clear_eq_send (h.send _)]
  rfl

theorem everyChip_eq_send (opc val : Byte) :
    s.everyChip params opc val = s.send (modulesBelow s.n ×ˢ [(opc, val)]) :=
  foldl_eq_send (f := fun t m => t.transact params m opc val) (fun _ _ _ => rfl) _ h

theorem clearAll_eq_send : s.clearAll params = s.send (modulesBelow s.n ×ˢ clearSlots) :=
  foldl_eq_send (fun _ m ht => clear_eq_send ht m) _ h

end

theorem rowsZero_claimed (s : State) (n : BitVec 4) (o : Orientation) : (s.claimed n o).RowsZero := by
  intro m r
  simp [State.fbRow, State.claimed]

/-- CONFIGURE claims the block and sends its transactions (rule R181). -/
theorem configure_eq_send (s : State) (n : BitVec 4) (o : Orientation) :
    s.configure params n o = (s.claimed n o).send (startUp n) := by
  have h0 := rowsZero_claimed s n o
  have hinit : (modulesBelow n).foldl (fun t m => t.initModule params m) (s.claimed n o) =
      (s.claimed n o).send (modulesBelow n ×ˢ initSlots) :=
    foldl_eq_send (fun t m ht => initModule_eq_send ht m) _ h0
  rw [configure_eq_started, State.started, hinit, everyChip_eq_send (h0.send _),
    everyChip_eq_send ((h0.send _).send _), everyChip_eq_send (((h0.send _).send _).send _),
    clearAll_eq_send ((((h0.send _).send _).send _).send _)]
  simp only [n_send, startUp, startUpPasses, List.flatMap_cons, List.flatMap_nil, List.append_nil, send_append]
  rfl

theorem length_startUp {n : BitVec 4} (hn : n.toNat ≤ 8) : (startUp n).length = 22 * n.toNat := by
  simp only [startUp, List.length_flatMap, List.length_product, length_modulesBelow hn]
  simp [startUpPasses, initSlots, clearSlots, upTo7]
  omega

/-! ### What CONFIGURE leaves -/

/-- The registers of a chip after the start-up (rules R38, R182). -/
def ChipRegs.startUp : ChipRegs where
  row := vec8 fun _ => 0
  decode := params.valDecodeOff
  intensity := params.defaultIntensity
  scanLimit := 7
  shutdown := params.valPowerUp.setWidth 1
  displayTest := params.valTestOff.setWidth 1

/-- CLEAR leaves eight zero rows in the chip (rule R144). -/
theorem writes_clearSlots (c free : ChipRegs) : c.writes free clearSlots = { c with row := vec8 fun _ => 0 } := by
  have hrows : (((((((c.row.set 0 0).set 1 0).set 2 0).set 3 0).set 4 0).set 5 0).set 6 0).set 7 0 = vec8 fun _ => 0 := by
    refine vec8_ext fun r => ?_
    fin_cases r <;> simp [vec8]
  simpa [ChipRegs.writes, clearSlots, upTo7, write_row, ChipRegs.setRow] using hrows

/-- A chip after all the slots of CONFIGURE, whatever it held (rule R182). -/
theorem writes_startUpPasses (c free : ChipRegs) : c.writes free startUpPasses.flatten = ChipRegs.startUp := by
  have hlevel : (params.defaultIntensity.setWidth 8).setWidth 4 = params.defaultIntensity := by simp
  simp only [startUpPasses, initSlots, List.flatten_cons, List.flatten_nil, writes_append, writes_clearSlots]
  simp only [ChipRegs.writes, List.foldl_cons, List.foldl_nil, write_displayTest, write_scanLimit, write_decode,
    write_shutdown, write_intensity, hlevel]
  rfl

theorem chips_configure (s : State) {n : BitVec 4} (o : Orientation) {k : Fin 8} (hk : k.val < n.toNat) :
    (s.configure params n o).chips[k] = ChipRegs.startUp := by
  have hslots : ((startUp n).filter fun x => x.1 = k).map Prod.snd = startUpPasses.flatten := by
    simp only [Machine.startUp, List.filter_flatMap, List.map_flatMap,
      slots_product (nodup_modulesBelow n), mem_modulesBelow, hk, if_true, List.flatMap_id']
  rw [configure_eq_send, chips_send, hslots, writes_startUpPasses]

theorem getLast?_modulesBelow {n : BitVec 4} (hn : 1 ≤ n.toNat ∧ n.toNat ≤ 8) :
    (modulesBelow n).getLast? = some (Fin.ofNat 8 (n.toNat - 1)) := by
  revert hn; revert n; decide

/-- The last transaction of CONFIGURE sends row 7 of the last module (rule R181). -/
theorem getLast?_startUp {n : BitVec 4} (hn : 1 ≤ n.toNat ∧ n.toNat ≤ 8) :
    (startUp n).getLast? = some (Fin.ofNat 8 (n.toNat - 1), params.opcRow 7, 0) := by
  have hclear := getLast?_product (getLast?_modulesBelow hn) (show clearSlots.getLast? = some (params.opcRow 7, 0) from rfl)
  have hpasses : startUpPasses = startUpPasses.dropLast ++ [clearSlots] := rfl
  rw [startUp, hpasses, List.flatMap_append, List.flatMap_singleton, List.getLast?_append, hclear, Option.some_or]

section
variable (s : State) {n : BitVec 4} (hn : 1 ≤ n.toNat ∧ n.toNat ≤ 8) (o : Orientation)

theorem n_configure : (s.configure params n o).n = n := by
  rw [configure_eq_send]
  exact n_send _ _

include hn

/-- CONFIGURE ends with the transaction that sends zero for row 7 of the last module (rule R181). -/
theorem configure_eq_transact : ∃ t : State, t.n = n ∧
    s.configure params n o = t.transact params (Fin.ofNat 8 (n.toNat - 1)) (params.opcRow 7) 0 := by
  obtain ⟨l, hl⟩ := List.getLast?_eq_some_iff.mp (getLast?_startUp hn)
  refine ⟨(s.claimed n o).send l, n_send _ l, ?_⟩
  rw [configure_eq_send, hl, send_append]
  rfl

theorem val_lastModule : (Fin.ofNat 8 (n.toNat - 1)).val = n.toNat - 1 := Nat.mod_eq_of_lt (by omega)

/-- The last bit of the last frame is bit 0 of the wire opcode of row 7, or of an empty slot (rules R29, R182). -/
theorem dataPin_configure : (s.configure params n o).dataPin = some false := by
  obtain ⟨t, rfl, hlast⟩ := configure_eq_transact s hn o
  have hmodule := val_lastModule hn
  rw [hlast, State.transact_dataPin, lastBit_frameOf params _ _ (by omega)]
  exact congrArg some (Bool.and_false _)

/-- Each shift register holds its slot of the last frame (rules R182, R222). -/
theorem sr_configure {k : Fin 8} (hk : k.val < n.toNat) : (s.configure params n o).sr[k] =
    if k.val + 1 = n.toNat then slotWord 0 (params.opcRow 7) else 0 := by
  obtain ⟨t, rfl, hlast⟩ := configure_eq_transact s hn o
  have hmodule : k = Fin.ofNat 8 (t.n.toNat - 1) ↔ k.val + 1 = t.n.toNat := by
    rw [Fin.ext_iff, val_lastModule hn]
    omega
  rw [hlast, State.transact_sr, vec8_getElem, if_pos hk]
  simp only [slotFor, hmodule, pairFirst_params, pairSecond_params]

/-- The scratch buffer holds the last frame (rules R28, R182). -/
theorem frame_configure : (s.configure params n o).frame =
    frameOf params n (Fin.ofNat 8 (n.toNat - 1)) (params.opcRow 7) 0 := by
  obtain ⟨t, rfl, hlast⟩ := configure_eq_transact s hn o
  rw [hlast, frame_transact params t hn.2]

/-- CONFIGURE sends 22N frames (rule R182). -/
theorem length_frameLog_configure :
    (s.configure params n o).frameLog.length = s.frameLog.length + 22 * n.toNat := by
  rw [configure_eq_send, length_frameLog_send, length_startUp hn.2]
  rfl

/-- CONFIGURE makes three pin events for the levels at rest and those of its frames (rules R86, R181, R182). -/
theorem length_pinLog_configure : (s.configure params n o).pinLog.length =
    s.pinLog.length + 3 + 22 * n.toNat * (48 * n.toNat + 2) := by
  rw [configure_eq_send, length_pinLog_send, length_startUp hn.2]
  rfl

end

/-- The first CONFIGURE, under a strap that selects a mode (rules R180, R181). -/
theorem exec_configure_released {s : State} {o : Orientation} (hc : s.configured = false) (hlatch : s.latchPin = none)
    (ho : orientOfStrap s.orientStrap = some o) (count : Int) :
    exec (.configure count) s = .next (s.configure params (clampCount count) o) := by
  have hacts : commandActs params s (.configure count) = .ok (configureBody params (clampCount count) o) := by
    simp [commandActs, configureActs, hc, ho]
  rw [exec_of_commandActs rfl hacts, run_configureBody s (clampCount_legal count).2 o hlatch]

/-- Settles O20: CONFIGURE claims the block and sends a list of transactions, which keep what was claimed, give every chip its
22 slots and end with row 7 of the last module. -/
theorem configureLeavesTheStartUpState : Obligations.ConfigureLeavesTheStartUpState := by
  intro s count o hc hrel ho
  obtain ⟨-, -, -, hlatch, hframes, hpins⟩ := hrel
  refine ⟨_, exec_configure_released hc hlatch ho count, ?_⟩
  have hn := clampCount_legal count
  generalize clampCount count = n at hn
  obtain ⟨hconf, -, horient, -, hseq, -⟩ := sameControl_send (s.claimed n o) (startUp n)
  rw [← configure_eq_send] at hconf horient hseq
  rw [n_configure]
  refine ⟨hconf, rfl, horient, hseq, ?_, dataPin_configure s hn o, ?_, fun k hk => ?_, frame_configure s hn o, ?_, ?_⟩
  · rw [configure_eq_send]
    exact BusIdle.send ⟨rfl, rfl, rfl⟩ _
  · rw [configure_eq_send]
    exact (rowsZero_claimed s n o).send _
  · rw [chips_configure s o hk]
    exact ⟨fun r => vec8_getElem _ r, rfl, rfl, rfl, rfl, rfl, sr_configure s hn o hk⟩
  · rw [State.frameTrace, List.length_reverse, length_frameLog_configure s hn o, hframes, List.length_nil, Nat.zero_add]
  · rw [State.pinTrace, List.length_reverse, length_pinLog_configure s hn o, hpins, List.length_nil, Nat.zero_add]

end Sys2Proof.Machine
end

-- Proofs of the text engine family (45_text_engine.md): the glyph's columns, and the pseudo-commands.
section
/-! SUPPORT. SETCOLUMN of several columns, of which PLACEGLYPH is a case, and the expansions of the pseudo-commands as lists
by position (rules R200 to R209). -/

namespace Sys2Proof.Machine

/-! ### The columns of a glyph that are on the chain -/

/-- A physical column belongs to one logical column (rule R52). -/
theorem colMap_inj {cfg : Config} {o : Orientation} {n : BitVec 4} {l l' : Int} {x : Fin 8 × Fin 8}
    (h : colMap cfg o n l = some x) (h' : colMap cfg o n l' = some x) : l = l' := by
  unfold colMap at h h'
  split at h
  case isFalse => cases h
  split at h'
  case isFalse => cases h'
  rw [← h, Option.some.injEq, Prod.mk.injEq, Fin.mk.injEq] at h'
  obtain ⟨hmodule, hcolumn⟩ := h'
  have : l'.toNat % 8 = l.toNat % 8 := by
    cases hfill : cfg.fillDir o <;> simpa [hfill] using hcolumn
  omega

/-- In a legal chain the logical columns with a physical one are 0 to 8N - 1 (rule R52). -/
theorem isSome_colMap (cfg : Config) (o : Orientation) {n : BitVec 4} (hn : n.toNat ≤ 8) (l : Int) :
    (colMap cfg o n l).isSome = decide (0 ≤ l ∧ l < 8 * (n.toNat : Int)) := by
  unfold colMap
  split
  · rw [decide_eq_true (by omega)]
    rfl
  · rw [decide_eq_false (by omega)]
    rfl

/-- The columns of a glyph that are on the chain, each with its byte (rule R200). -/
def State.glyphColumns (s : State) (ch : Byte) (pos : Int) : List ((Fin 8 × Fin 8) × Byte) :=
  placeColumns params s.orientQ s.n (transform (lookup params ch) s.orientQ) pos upTo7

theorem glyphColumns_eq_filterMap (s : State) (ch : Byte) (pos : Int) : s.glyphColumns ch pos =
    upTo7.filterMap fun j => (colMap params s.orientQ s.n (pos + (j.val : Int))).map fun mc =>
      (mc, (transform (lookup params ch) s.orientQ)[j]) :=
  placeColumns_eq_filterMap params s.orientQ s.n _ pos upTo7 (by decide)

theorem map_fst_glyphColumns (s : State) (ch : Byte) (pos : Int) : (s.glyphColumns ch pos).map Prod.fst =
    upTo7.filterMap fun j => colMap params s.orientQ s.n (pos + (j.val : Int)) := by
  rw [glyphColumns_eq_filterMap, List.map_filterMap]
  simp [Function.comp_def]

/-- No column of the chain is written twice. -/
theorem nodup_glyphColumns (s : State) (ch : Byte) (pos : Int) : ((s.glyphColumns ch pos).map Prod.fst).Nodup := by
  rw [map_fst_glyphColumns]
  refine nodup_upTo7.filterMap fun j j' x hj hj' => Fin.ext ?_
  have := colMap_inj (Option.mem_def.mp hj) (Option.mem_def.mp hj')
  omega

theorem mem_glyphColumns {s : State} {pos : Int} {j : Fin 8} {x : Fin 8 × Fin 8} (ch : Byte)
    (h : colMap params s.orientQ s.n (pos + (j.val : Int)) = some x) :
    (x, (transform (lookup params ch) s.orientQ)[j]) ∈ s.glyphColumns ch pos := by
  rw [glyphColumns_eq_filterMap, List.mem_filterMap]
  exact ⟨j, mem_upTo7 j, by rw [h, Option.map_some]⟩

theorem not_mem_glyphColumns {s : State} {pos : Int} {x : Fin 8 × Fin 8} (ch : Byte)
    (h : ∀ j : Fin 8, colMap params s.orientQ s.n (pos + (j.val : Int)) ≠ some x) :
    x ∉ (s.glyphColumns ch pos).map Prod.fst := by
  rw [map_fst_glyphColumns, List.mem_filterMap]
  rintro ⟨j, -, hj⟩
  exact h j hj

/-- As many columns as the glyph has logical columns 0 to 8N - 1 (rules R52, R201). -/
theorem length_glyphColumns {s : State} (hn : s.n.toNat ≤ 8) (ch : Byte) (pos : Int) : (s.glyphColumns ch pos).length =
    (upTo7.filter fun j => decide (0 ≤ pos + (j.val : Int) ∧ pos + (j.val : Int) < 8 * (s.n.toNat : Int))).length := by
  rw [← List.length_map (f := Prod.fst), map_fst_glyphColumns, List.length_filterMap_eq_countP,
    List.countP_eq_length_filter]
  simp only [isSome_colMap params s.orientQ hn]

/-! ### SETCOLUMN of several columns -/

/-- SETCOLUMN of the columns of a list, in order. -/
def State.setColumns (s : State) (l : List ((Fin 8 × Fin 8) × Byte)) : State :=
  l.foldl (fun t x => t.setColumn params x.1.1 x.1.2 x.2) s

theorem placeGlyph_eq_setColumns (s : State) (ch : Byte) (pos : Int) :
    s.placeGlyph params ch pos = s.setColumns (s.glyphColumns ch pos) := rfl

theorem setColumns_cons (s : State) (x : (Fin 8 × Fin 8) × Byte) (l : List ((Fin 8 × Fin 8) × Byte)) :
    s.setColumns (x :: l) = (s.setColumn params x.1.1 x.1.2 x.2).setColumns l := by
  rw [State.setColumns, List.foldl_cons, State.setColumns]

/-- A column that is not in the list keeps its bits. -/
theorem bitAt_setColumns_of_not_mem {l : List ((Fin 8 × Fin 8) × Byte)} {m c : Fin 8} (h : (m, c) ∉ l.map Prod.fst)
    (s : State) (r : Fin 8) : bitAt ((s.setColumns l).fbRow m r) c = bitAt (s.fbRow m r) c := by
  induction l generalizing s with
  | nil => rfl
  | cons x l ih =>
    rw [List.map_cons, List.mem_cons, not_or] at h
    obtain ⟨hx, hl⟩ := h
    rw [setColumns_cons, ih hl, bitAt_setColumn, if_neg fun hmc => hx (Prod.ext hmc.1 hmc.2)]

/-- A column of the list holds its byte: no later one of the list is the same. -/
theorem bitAt_setColumns_of_mem {l : List ((Fin 8 × Fin 8) × Byte)} (hl : (l.map Prod.fst).Nodup) {m c : Fin 8} {b : Byte}
    (h : ((m, c), b) ∈ l) (s : State) (r : Fin 8) : bitAt ((s.setColumns l).fbRow m r) c = bitAt b r := by
  induction l generalizing s with
  | nil => cases h
  | cons x l ih =>
    obtain ⟨hx, hl⟩ := List.nodup_cons.mp hl
    rw [setColumns_cons]
    obtain rfl | h := List.mem_cons.mp h
    · rw [bitAt_setColumns_of_not_mem hx, bitAt_setColumn, if_pos ⟨rfl, rfl⟩]
    · exact ih hl h _

/-- Eight frames for each column (rules R143, R201). -/
theorem length_frameTrace_setColumns (s : State) (l : List ((Fin 8 × Fin 8) × Byte)) :
    (s.setColumns l).frameTrace.length = s.frameTrace.length + 8 * l.length := by
  induction l generalizing s with
  | nil => rfl
  | cons x l ih =>
    rw [setColumns_cons, ih, frameTrace_setColumn, List.length_append, List.length_map, List.length_cons,
      show upTo7.length = 8 from rfl]
    omega

theorem exec_placeGlyph_ready {s : State} (h : s.Ready) (ch : Byte) (pos : Int) :
    exec (.placeGlyph ch pos) s = .next (s.placeGlyph params ch pos) :=
  congrArg Host.Outcome.next (run_placeGlyph h ch pos)

/-- Settles O25: PLACEGLYPH is SETCOLUMN of the glyph's columns on the chain, no two of which are the same. -/
theorem placeGlyphEffectInOneFormula : Obligations.PlaceGlyphEffectInOneFormula := by
  intro s ch pos h
  obtain ⟨t, ht, hcontrol⟩ := noCommandChangesTheControlRegisters s (.placeGlyph ch pos) h rfl
  obtain rfl : s.setColumns (s.glyphColumns ch pos) = t := by
    rwa [exec_placeGlyph_ready h, placeGlyph_eq_setColumns, Host.Outcome.next.injEq] at ht
  refine ⟨_, ht, fun j m c hj r => ?_, fun m c hmc r => ?_, ?_, hcontrol⟩
  · exact bitAt_setColumns_of_mem (nodup_glyphColumns s ch pos) (mem_glyphColumns ch hj) s r
  · exact bitAt_setColumns_of_not_mem (not_mem_glyphColumns ch hmc) s r
  · rw [length_frameTrace_setColumns, length_glyphColumns h.2.2]

/-! ### Strings -/

/-- Character i of a text placed at `pos i`, in order: what the string pseudo-commands expand to (decision D18). -/
def placedGlyphs (text : List Byte) (pos : Nat → Int) : List HostStep :=
  text.mapIdx fun i ch => .command (.placeGlyph ch (pos i))

theorem placeStringFrom_eq_placedGlyphs (start : Int) (k : Nat) (text : List Byte) :
    placeStringFrom start k text = placedGlyphs text fun i => start + 8 * ((k + i : Nat) : Int) := by
  induction text generalizing k with
  | nil => rfl
  | cons ch text ih =>
    rw [placeStringFrom, ih, placedGlyphs, placedGlyphs, List.mapIdx_cons]
    simp only [Nat.add_zero, Nat.add_assoc, Nat.add_comm 1]

theorem placeCompactFrom_eq_placedGlyphs (start : Int) (k : Nat) (text : List Byte) :
    placeCompactFrom start k text = placedGlyphs text fun i => start + 6 * ((k + i : Nat) : Int) := by
  induction text generalizing k with
  | nil => rfl
  | cons ch text ih =>
    rw [placeCompactFrom, ih, placedGlyphs, placedGlyphs, List.mapIdx_cons]
    simp only [Nat.add_zero, Nat.add_assoc, Nat.add_comm 1, show start + 8 * (k : Int) - 2 * k = start + 6 * k by omega]

/-- Character i of a string stands at `start + 8i` (rule R205). -/
theorem placeString_eq_placedGlyphs (text : List Byte) (start : Int) :
    placeString text start = placedGlyphs text fun i => start + 8 * (i : Int) := by
  simp only [placeString, placeStringFrom_eq_placedGlyphs, Nat.zero_add]

/-- The first character of a compact string stands at `start - 1`, character i at `start + 6i` (rule R206). -/
theorem placeStringCompact_eq_placedGlyphs (text : List Byte) (start : Int) : placeStringCompact text start =
    placedGlyphs text fun i => if i = 0 then start - 1 else start + 6 * (i : Int) := by
  cases text with
  | nil => rfl
  | cons ch text =>
    rw [placeStringCompact, placeCompactFrom_eq_placedGlyphs, placedGlyphs, placedGlyphs, List.mapIdx_cons]
    simp [Nat.add_comm 1]

@[simp] theorem length_placedGlyphs (text : List Byte) (pos : Nat → Int) : (placedGlyphs text pos).length = text.length :=
  List.length_mapIdx

theorem placedGlyphs_getElem? {text : List Byte} {i : Nat} {ch : Byte} (pos : Nat → Int) (h : text[i]? = some ch) :
    (placedGlyphs text pos)[i]? = some (.command (.placeGlyph ch (pos i))) := by
  rw [placedGlyphs, List.getElem?_mapIdx, h, Option.map_some]

/-- Settles O51: both expansions are placed glyphs. -/
theorem stringsExpandToPlacedGlyphs : Obligations.StringsExpandToPlacedGlyphs := by
  intro text start
  rw [placeString_eq_placedGlyphs, placeStringCompact_eq_placedGlyphs]
  exact ⟨length_placedGlyphs _ _, length_placedGlyphs _ _, fun i ch h =>
    ⟨placedGlyphs_getElem? _ h, placedGlyphs_getElem? _ h⟩⟩

/-! ### Scrolls -/

/-- A descending loop by its step number. -/
theorem downFrom_eq_map_range (first : Int) (k : Nat) :
    downFrom first k = (List.range k).map fun i : Nat => first - (i : Int) := by
  induction k generalizing first with
  | zero => rfl
  | succ k ih =>
    rw [downFrom, ih, List.range_succ_eq_map, List.map_cons, List.map_map]
    simp [Function.comp_def, Int.sub_sub, Int.add_comm 1]

/-- A descending loop of k steps takes every integer from its first down to `first - k + 1`. -/
theorem mem_downFrom {first p : Int} {k : Nat} : p ∈ downFrom first k ↔ first - (k : Int) + 1 ≤ p ∧ p ≤ first := by
  rw [downFrom_eq_map_range, List.mem_map]
  constructor
  · rintro ⟨i, hi, rfl⟩
    have := List.mem_range.mp hi
    omega
  · intro hp
    exact ⟨(first - p).toNat, List.mem_range.mpr (by omega), by omega⟩

/-- Settles O52: the positions are a descending loop of 8N + 8 len steps from 8N. -/
theorem scrollVisitsEveryPosition : Obligations.ScrollVisitsEveryPosition := by
  intro n text delay
  refine ⟨?_, fun p => ?_, fun k hk => ?_, rfl, rfl⟩
  · rw [scrollPositions, downFrom_eq_map_range, List.length_map, List.length_range]
  · rw [scrollPositions, mem_downFrom]
    omega
  · rw [scrollPositions, downFrom_eq_map_range, List.getElem?_map, List.getElem?_range hk, Option.map_some]

/-! ### Encoded or refused -/

/-- A placed text is refused exactly where one of its positions is outside the field (rule R203). -/
theorem hostItems_placedGlyphs_eq_none {text : List Byte} {pos : Nat → Int} :
    hostItems (placedGlyphs text pos) = none ↔ ∃ i < text.length, ¬ (-32768 ≤ pos i ∧ pos i ≤ 32767) := by
  simp only [hostItems_eq_none, placedGlyphs, List.mem_mapIdx]
  constructor
  · rintro ⟨_, ⟨i, hi, rfl⟩, hitem⟩
    exact ⟨i, hi, by simpa [item_placeGlyph, fitsField16] using hitem⟩
  · rintro ⟨i, hi, hpos⟩
    exact ⟨_, ⟨i, hi, rfl⟩, by simpa [item_placeGlyph, fitsField16] using hpos⟩

/-- Item by item, what is presented is what the moves encode to. -/
theorem item_of_hostItems {l : List HostStep} {items : List HostItem} (h : hostItems l = some items) {i : Nat}
    {x : HostStep} (hx : l[i]? = some x) : items[i]? = x.item := by
  have hi := congrArg (·[i]?) (hostItems_map h)
  simp only [List.getElem?_map, hx, Option.map_some] at hi
  cases hitem : items[i]? with
  | none => simp [hitem] at hi
  | some y => simpa [hitem, eq_comm] using hi

theorem length_of_hostItems {l : List HostStep} {items : List HostItem} (h : hostItems l = some items) :
    items.length = l.length := by
  simpa using (congrArg List.length (hostItems_map h)).symm

/-- The word presented for a character decodes to the glyph at its position (rules R91, R203). -/
theorem command_of_hostItems_placedGlyphs {text : List Byte} {pos : Nat → Int} {items : List HostItem}
    (h : hostItems (placedGlyphs text pos) = some items) {i : Nat} {ch : Byte} (hch : text[i]? = some ch)
    (hpos : -32768 ≤ pos i ∧ pos i ≤ 32767) :
    ∃ w, items[i]? = some (.command w) ∧ decodeCommand w = .ok (.placeGlyph ch (pos i)) := by
  have hfits : fitsField16 (pos i) = true := decide_eq_true hpos
  exact ⟨_, by rw [item_of_hostItems h (placedGlyphs_getElem? pos hch), item_placeGlyph, if_pos hfits],
    decodeCommand_placeGlyph ch hfits⟩

/-- A pause always has an item, so steps with a pause after each are refused exactly where one of the steps is. -/
theorem hostItems_flatMap_pause {α : Type} (f : α → List HostStep) (delay : Nat) (l : List α) :
    hostItems (l.flatMap fun p => f p ++ [.pause delay]) = none ↔ ∃ p ∈ l, hostItems (f p) = none := by
  have hpause : (HostStep.pause delay).item ≠ none := nofun
  simp only [hostItems_eq_none, List.mem_flatMap, List.mem_append, List.mem_singleton]
  constructor
  · rintro ⟨x, ⟨p, hp, hx | rfl⟩, hnone⟩
    · exact ⟨p, hp, x, hx, hnone⟩
    · exact absurd hnone hpause
  · rintro ⟨p, hp, x, hx, hnone⟩
    exact ⟨x, ⟨p, hp, .inl hx⟩, hnone⟩

/-- Settles O53: strings are placed glyphs, which are refused exactly where a position does not fit; a scroll is strings with
pauses between them. -/
theorem stringsAreEncodedOrRefused : Obligations.StringsAreEncodedOrRefused := by
  refine ⟨fun text start steps pos hsteps => ?_, fun n text delay => ?_, fun _ _ _ => rfl⟩
  · obtain rfl : steps = placedGlyphs text pos := by
      obtain ⟨rfl, rfl⟩ | ⟨rfl, rfl⟩ := hsteps
      · exact placeString_eq_placedGlyphs text start
      · exact placeStringCompact_eq_placedGlyphs text start
    refine ⟨fun hfits => ?_, fun i hi hpos => hostItems_placedGlyphs_eq_none.mpr ⟨i, hi, hpos⟩⟩
    cases h : hostItems (placedGlyphs text pos) with
    | none =>
      obtain ⟨i, hi, hpos⟩ := hostItems_placedGlyphs_eq_none.mp h
      exact absurd (hfits i hi) hpos
    | some items =>
      refine ⟨items, rfl, by rw [length_of_hostItems h, length_placedGlyphs], fun i ch hch => ?_⟩
      exact command_of_hostItems_placedGlyphs h hch (hfits i (List.getElem?_eq_some_iff.mp hch).1)
  · exact ⟨hostItems_flatMap_pause _ delay _, hostItems_flatMap_pause _ delay _⟩

end Sys2Proof.Machine
end

-- Proofs of the chain receiver family (46_chain_receiver.md): nothing flows back from the chain, and where a frame lands.
section
/-! SUPPORT. The two sides of the wire: the chain may be exchanged for another under the block, and the shift registers after
any transaction (rules R168, R221, R222, R233). -/

namespace Sys2Proof.Machine

/-! ### The block with another chain -/

/-- The block of `s` with everything on the far side of the wire taken from `c`: the chips, whose turn it is, and the draws
of free values made for them. -/
def State.withChainOf (s c : State) : State :=
  { s with sr := c.sr, chips := c.chips, rx := c.rx, rxPending := c.rxPending, freeCount := c.freeCount }

/-- Two states have the same block exactly where one is the other with the chain exchanged (rule R233). -/
theorem sameBlock_iff_eq_withChainOf {s t : State} : s.SameBlock t ↔ t = s.withChainOf t := by
  constructor
  · obtain ⟨⟩ := t
    rintro ⟨rfl, rfl, rfl, rfl, rfl, rfl, rfl, rfl, rfl, rfl, rfl, rfl, rfl, rfl⟩
    rfl
  · intro h
    rw [h]
    exact ⟨rfl, rfl, rfl, rfl, rfl, rfl, rfl, rfl, rfl, rfl, rfl, rfl, rfl, rfl⟩

/-- A pin event as the block sees it: the level and the event in the trace (rules R9, R10). -/
def State.setPin (s : State) (line : Line) (level : Bool) : State :=
  match line with
  | .data => { s with dataPin := some level, pinLog := ⟨.data, level⟩ :: s.pinLog }
  | .clk => { s with clkPin := some level, pinLog := ⟨.clk, level⟩ :: s.pinLog }
  | .latchN => { s with latchPin := some level, pinLog := ⟨.latchN, level⟩ :: s.pinLog }

/-- Nothing flows back: the chain's answer to an edge changes the chain alone (rules R168, R221, R224). -/
theorem drive_eq_setPin_withChainOf (cfg : Config) (s : State) (line : Line) (level : Bool) :
    s.drive cfg line level = (s.setPin line level).withChainOf (s.drive cfg line level) := by
  cases line with
  | data => rfl
  | clk => simp only [State.drive]; split <;> rfl
  | latchN => simp only [State.drive]; split <;> rfl

theorem setPin_withChainOf (s c d : State) (line : Line) (level : Bool) :
    ((s.withChainOf c).setPin line level).withChainOf d = (s.setPin line level).withChainOf d := by
  cases line <;> rfl

/-- A pin event does the same to the block whatever the chain holds (rule R168). -/
theorem sameBlock_drive_withChainOf (cfg : Config) (s c : State) (line : Line) (level : Bool) :
    (s.drive cfg line level).SameBlock ((s.withChainOf c).drive cfg line level) := by
  rw [drive_eq_setPin_withChainOf cfg s, drive_eq_setPin_withChainOf cfg (s.withChainOf c), setPin_withChainOf]
  exact sameBlock_iff_eq_withChainOf.mpr rfl

/-- A move does the same to the block whatever the chain holds: only the pins reach the chain (rule R168). -/
theorem sameBlock_perform_withChainOf (cfg : Config) (s c : State) (a : Act) :
    (s.perform cfg a).SameBlock ((s.withChainOf c).perform cfg a) := by
  cases a with
  | pin line level => exact sameBlock_drive_withChainOf cfg s c line level
  | dataBit p i => exact sameBlock_drive_withChainOf cfg s c .data _
  | _ => exact sameBlock_iff_eq_withChainOf.mpr rfl

theorem State.SameBlock.perform {s t : State} (h : s.SameBlock t) (cfg : Config) (a : Act) :
    (s.perform cfg a).SameBlock (t.perform cfg a) := by
  rw [sameBlock_iff_eq_withChainOf.mp h]
  exact sameBlock_perform_withChainOf cfg s t a

theorem State.SameBlock.run {s t : State} (h : s.SameBlock t) (cfg : Config) (acts : List Act) :
    (s.run cfg acts).SameBlock (t.run cfg acts) :=
  List.foldl_rel h fun a _ _ _ hst => hst.perform cfg a

/-- Which moves a command makes is settled without the chain: no check and no operand looks at it (rule R233). -/
theorem commandActs_withChainOf (cfg : Config) (s c : State) (i : Instr) :
    commandActs cfg (s.withChainOf c) i = commandActs cfg s i := by
  cases i <;> rfl

theorem State.SameBlock.commandActs_eq {s t : State} (h : s.SameBlock t) (cfg : Config) (i : Instr) :
    commandActs cfg t i = commandActs cfg s i := by
  rw [sameBlock_iff_eq_withChainOf.mp h]
  exact commandActs_withChainOf cfg s t i

/-- A command without a list of moves is refused for the same reason (rule R135). -/
theorem exec_of_commandActs_error {s : State} {i : Instr} {r : Refusal} (h : commandActs params s i = .error r) :
    exec i s = .refused r := by
  cases i with
  | configure count =>
    simp only [commandActs] at h
    simp only [exec, execConfigure, h]
  | _ => cases h

/-- Settles O37: the same moves are made on both machines, and each keeps the blocks the same. -/
theorem blockNeverDependsOnTheChain : Obligations.BlockNeverDependsOnTheChain := by
  intro s t i hi h
  have hacts := h.commandActs_eq params i
  cases hs : commandActs params s i with
  | ok acts =>
    exact .inl ⟨_, _, exec_of_commandActs hi hs, exec_of_commandActs hi (hacts.trans hs), h.run params acts⟩
  | error r => exact .inr ⟨r, exec_of_commandActs_error hs, exec_of_commandActs_error (hacts.trans hs)⟩

/-! ### Where a frame lands -/

/-- The slots of a frame under the parameters of rule R6: the value byte first (rules R80, R222). -/
theorem slotFor_params (k : Fin 8) (opc val : Byte) (j : Fin 8) :
    slotFor params k opc val j = if j = k then slotWord val opc else 0 := rfl

/-- The shift registers after a transaction with any wire opcode and any value: the commit at its end leaves them as the
frame's bits left them (rules R222, R224). -/
theorem sr_run_busWrite (cfg : Config) {s : State} (hidle : s.BusIdle) (hn : s.n.toNat ≤ 8) (k : Fin 8) (opc val : Byte) :
    (s.run cfg (busWrite s.n k opc val)).sr =
      vec8 fun j => if j.val < s.n.toNat then slotFor cfg k opc val j else s.sr[j] := by
  have hshift := congrArg State.sr (run_shiftOut cfg (s.assemble cfg k opc val) hidle)
  rw [assemble_frame cfg s hn] at hshift
  exact hshift.trans (frame_shifted cfg hn k opc val s.sr)

/-- Settles O34: the frame's bits push out whatever the chain held, and INTENSITY with a level of 0..15 is one
transaction. -/
theorem frameLandsInTheRightChip : Obligations.FrameLandsInTheRightChip := by
  intro s k j h hk
  have ⟨_, hidle, hn⟩ := h
  refine ⟨fun opc val => ?_, fun level => ⟨_, exec_intensity_valid h hk (by omega), ?_⟩⟩
  · rw [sr_run_busWrite params hidle hn, vec8_getElem, slotFor_params]
  · rw [State.transact_sr, vec8_getElem, slotFor_params, BitVec.ofNat_toNat]

end Sys2Proof.Machine
end

-- Proofs of the exceptions family (60_exceptions.md): dropped commands, and the one refusal.
section
/-! SUPPORT. The one command without a list of moves: CONFIGURE of an unconfigured block under the reserved strap (rules
R135, R250). -/

namespace Sys2Proof.Machine

/-- Settles O22: a dropped command makes no move. -/
theorem droppedCommandsLeaveNoTrace : Obligations.DroppedCommandsLeaveNoTrace := fun _ _ => exec_of_drops

/-- Strap 3 is the only one that selects no mode (rules R25, R135). -/
theorem orientOfStrap_eq_none {strap : BitVec 2} : orientOfStrap strap = none ↔ strap = 3 := by
  revert strap
  decide

/-- The only command without a list of moves is CONFIGURE of an unconfigured block under strap 3 (rules R135, R250). -/
theorem eq_configure_of_commandActs_error {cfg : Config} {s : State} {i : Instr} {r : Refusal}
    (h : commandActs cfg s i = .error r) :
    (∃ count, i = .configure count) ∧ s.configured = false ∧ s.orientStrap = 3 := by
  cases i with
  | configure count =>
    rw [commandActs, configureActs] at h
    split at h
    · cases h
    next hc =>
      split at h
      · cases h
      next ho => exact ⟨⟨count, rfl⟩, Bool.eq_false_iff.mpr hc, orientOfStrap_eq_none.mp ho⟩
  | _ => cases h

/-- Settles O23: a wire slot writes a chip, a command with a list of moves carries it out, and the one command without is
refused by name. -/
theorem everyCommandCompletes : Obligations.EveryCommandCompletes := by
  intro s i
  cases hi : i.isCommand with
  | false =>
    obtain ⟨f, hf⟩ := exec_slot hi s
    exact .inl ⟨_, hf⟩
  | true =>
    cases h : commandActs params s i with
    | ok acts => exact .inl ⟨_, exec_of_commandActs hi h⟩
    | error =>
      obtain ⟨⟨count, rfl⟩, hc, hs⟩ := eq_configure_of_commandActs_error h
      exact .inr ⟨count, rfl, hc, hs, exec_configure_refused hc (orientOfStrap_eq_none.mpr hs) count⟩

end Sys2Proof.Machine
end

-- Proofs of the reset family (70_reset_and_hazards.md): power-on reset, and the steps that carry out no command.
section
/-! SUPPORT. What is fetched where no command is: a slot, `rst`, a reserved word, a pause, or nothing (rules R94, R207, R224,
R280). -/

namespace Sys2Proof.Machine

/-! ### Reset -/

/-- Settles O1: each entry of the reset table is a field of the reset state. -/
theorem resetReleasesPinsAndIsUnconfigured : Obligations.ResetReleasesPinsAndIsUnconfigured :=
  ⟨rfl, rfl, rfl, rfl, rfl, rfl, rfl, rfl⟩

/-- Settles O39: the reset state is at rest and released, and what the invariant says of a configured block is not asked. -/
theorem resetStateIsSound : Obligations.ResetStateIsSound :=
  ⟨⟨rfl, rfl⟩, fun _ => ⟨rfl, rfl, rfl, rfl, rfl, rfl⟩, fun hc => by cases hc⟩

/-! ### What is fetched -/

/-- A chip that has still to commit takes its slot before anything else happens (rules R62, R224). -/
theorem fetch_slot {s : State} {i : Instr} (hp : s.rxPending = true) (hd : decodeSlot s.sr[s.rx] = .ok i) :
    s.fetch = .slot i := by
  simp only [State.fetch, if_pos hp, hd]

/-- With no chip left to commit it is the block's turn. -/
theorem fetch_of_not_pending {s : State} (hp : s.rxPending = false) : s.fetch = s.fetchHost :=
  if_neg (Bool.eq_false_iff.mp hp)

theorem cmdReady_of_not_busy {s : State} (hb : s.busy = false) : s.cmdReady = true := by rw [State.cmdReady, hb]; rfl

/-- Settles O3: what is fetched is the decoded slot, and a slot completes. -/
theorem stepRunsTheSlotOfTheChip : Obligations.StepRunsTheSlotOfTheChip := by
  intro s i hp hd
  obtain ⟨f, hf⟩ := exec_slot (isCommand_of_decodeSlot hd) s
  refine ⟨_, hf, ?_⟩
  simp only [step, fetch_slot hp hd, hf, afterSlot]

/-- A command code that is not listed has no command (rules R92, R94). -/
theorem decodeCommand_reserved {w : CommandWord} (h : (fieldOp w).toNat ∉
    [0x00, 0x01, 0x10, 0x11, 0x12, 0x13, 0x20, 0x21, 0x22, 0x23, 0x24, 0x25, 0x30]) :
    ∃ e, decodeCommand w = .error e := by
  cases hd : decodeCommand w with
  | ok i => exact absurd ((reservedCodesAreExactlyTheUnlisted w).mp ⟨i, hd⟩) h
  | error e => exact ⟨e, rfl⟩

/-- Settles O4: NOP is the identity, and a word that decodes to no command is fetched as reserved. -/
theorem nopAndReservedCodesDoNothing : Obligations.NopAndReservedCodesDoNothing := by
  refine ⟨fun s => rfl, fun s w rest hp hb hh hop => ?_⟩
  obtain ⟨e, he⟩ := decodeCommand_reserved hop
  have hfetch : s.fetch = .reserved e { s with host := rest } := by
    simp only [fetch_of_not_pending hp, State.fetchHost, hh, cmdReady_of_not_busy hb, if_true, he]
  simp only [step, hfetch, stepReserved]

/-- Settles O6: `rst` is fetched whether the block is busy or not, and the state after it is the released one. -/
theorem powerOnResetReleasesTheBlock : Obligations.PowerOnResetReleasesTheBlock := by
  intro s rest hp hh
  have hfetch : s.fetch = .powerOnReset { s with host := rest } := by
    simp only [fetch_of_not_pending hp, State.fetchHost, hh]
  refine ⟨({ s with host := rest } : State).powerOnReset, ?_, rfl, rfl, ⟨rfl, rfl, rfl, rfl, rfl, rfl⟩, rfl, rfl⟩
  simp only [step, hfetch, stepPowerOnReset]

/-- Settles O7: an empty list is fetched as idleness, a pause as the state with the pause over. -/
theorem pauseAndWaitingChangeNothing : Obligations.PauseAndWaitingChangeNothing := by
  refine fun s hp hb => ⟨fun hh => ?_, fun ms rest hh => ?_⟩
  · have hfetch : s.fetch = .idle := by
      simp only [fetch_of_not_pending hp, State.fetchHost, hh, cmdReady_of_not_busy hb, if_true]
    simp only [step, hfetch, State.stepIdle]
  · have hfetch : s.fetch = .pause { s with host := rest } := by
      simp only [fetch_of_not_pending hp, State.fetchHost, hh, cmdReady_of_not_busy hb, if_true]
    simp only [step, hfetch, stepPause]

end Sys2Proof.Machine
end

-- Proofs of other families: exact next states of commands, logical columns, and the glyph tables.
section
/-! SUPPORT. The exact next states of SETCOLUMN, CLEAR, CLEARALL, CONFIGURE and PLACEGLYPH, and the two look-ups of the text
path by the range of their operand (rules R52, R120, R143 to R145, R180, R181, R200). -/

namespace Sys2Proof.Machine

/-! ### Columns and modules -/

/-- Settles O10: a failed check makes the command one that drops, and SETCOLUMN of a valid address is the fold of its eight
SETLEDs. -/
theorem setColumnIsEightSetLeds : Obligations.SetColumnIsEightSetLeds :=
  fun _ bits => ⟨fun _ _ hdrops => exec_of_drops hdrops, fun _ c h hm => exec_setColumn_valid h hm c bits⟩

theorem exec_clearAll_ready {s : State} (h : s.Ready) : exec .clearAll s = .next (s.clearAll params) :=
  congrArg Host.Outcome.next (run_clearAllActs h)

/-- Settles O11: a failed check makes the command one that drops, and on a ready block the two commands are folds, CLEAR over
the rows and CLEARALL over the modules. -/
theorem clearZeroesAndPushesEveryRow : Obligations.ClearZeroesAndPushesEveryRow :=
  fun _ => ⟨fun hdrops => exec_of_drops hdrops, exec_clearAll_ready, fun _ hdrops => exec_of_drops hdrops,
    fun _ h hm => exec_clear_valid h hm⟩

/-! ### CONFIGURE -/

/-- The clamp of the module count, as rule R180 words it. -/
theorem clampCount_eq {count : Int} {n : BitVec 4} (hin : 1 ≤ count ∧ count ≤ 8 → (n.toNat : Int) = count)
    (hout : ¬ (1 ≤ count ∧ count ≤ 8) → n = 8) : clampCount count = n := by
  unfold clampCount
  split
  next hlegal => rw [← hin hlegal, Int.toNat_natCast, BitVec.ofNat_toNat, BitVec.setWidth_eq]
  next hlegal => exact (hout hlegal).symm

/-- Settles O18: on a configured block CONFIGURE is dropped, and the first one runs the start-up sequence with the clamped
count. -/
theorem configureClampsTheCountAndRunsTheSequence : Obligations.ConfigureClampsTheCountAndRunsTheSequence := by
  refine fun s count => ⟨fun hdrops => exec_of_drops hdrops, fun n o hin hout hc hlatch ho => ?_⟩
  rw [exec_configure_released hc hlatch ho, clampCount_eq hin hout]

/-! ### PLACEGLYPH -/

/-- Settles O24: before CONFIGURE the command is dropped; on a ready block it is SETCOLUMN of the glyph's columns on the
chain, and leaving out a column beforehand is the same as doing nothing for it in the loop. -/
theorem placeGlyphSetsTheColumnsOnTheChain : Obligations.PlaceGlyphSetsTheColumnsOnTheChain := by
  refine fun s ch pos => ⟨fun hdrops => exec_of_drops hdrops, fun h => ?_⟩
  rw [exec_placeGlyph_ready h, placeGlyph_eq_setColumns, State.setColumns, glyphColumns_eq_filterMap,
    List.foldl_filterMap]
  congr 2
  funext t j
  cases colMap params s.orientQ s.n (pos + (j.val : Int)) <;> rfl

/-! ### Logical columns -/

/-- Outside the columns of the chain there is no physical column (rule R52). -/
theorem colMap_eq_none {cfg : Config} {o : Orientation} {n : BitVec 4} {l : Int} (h : ¬ (0 ≤ l ∧ l < 8 * (n.toNat : Int))) :
    colMap cfg o n l = none :=
  dif_neg fun hl => h ⟨hl.1, hl.2.1⟩

/-- A logical column of the chain lies in module L div 8, at column L mod 8 counted in the mode's direction (rule R52). -/
theorem colMap_eq_some {cfg : Config} {o : Orientation} {n : BitVec 4} {l : Int} (hn : n.toNat ≤ 8)
    (h : 0 ≤ l ∧ l < 8 * (n.toNat : Int)) : ∃ m c : Fin 8, colMap cfg o n l = some (m, c) ∧ (m.val : Int) = l / 8 ∧
      (c.val : Int) = match cfg.fillDir o with
        | .up => l % 8
        | .down => 7 - l % 8 := by
  refine ⟨_, _, dif_pos ⟨h.1, h.2, by omega⟩, by simp only; omega, ?_⟩
  cases cfg.fillDir o with
  | up => simp only; omega
  | down => simp only [Fin.val_rev]; omega

/-- Settles O26: the bounds decide whether there is a physical column, and a physical column belongs to one logical one. -/
theorem logicalColumnsMapOneToOne : Obligations.LogicalColumnsMapOneToOne :=
  fun _ _ _ => ⟨colMap_eq_none, fun hn h => colMap_eq_some hn h, fun _ _ => colMap_inj⟩

/-! ### The glyph tables -/

/-- LOOKUP row by row, with the character codes of rule R121: the tests in the order of rule R120. -/
theorem lookup_getElem (ch : Byte) (r : Fin 8) : (lookup params ch)[r] =
    if h : 65 ≤ ch.toNat ∧ ch.toNat ≤ 90 then params.glyphUpper ⟨(ch.toNat - 65) * 8 + r.val, by omega⟩
    else if h : 97 ≤ ch.toNat ∧ ch.toNat ≤ 122 then params.glyphLower ⟨(ch.toNat - 97) * 8 + r.val, by omega⟩
    else if h : 48 ≤ ch.toNat ∧ ch.toNat ≤ 57 then params.glyphDigit ⟨(ch.toNat - 48) * 8 + r.val, by omega⟩
    else if ch.toNat = 32 then 0 else params.glyphFallback r := by
  simp only [lookup, apply_dite (fun g : Glyph => g[r]), apply_ite (fun g : Glyph => g[r]), vec8_getElem]
  rfl

/-- Settles O27: a code meets the test of its own range and none before it. -/
theorem lookupReadsItsTableOrTheFallback : Obligations.LookupReadsItsTableOrTheFallback := by
  intro ch r
  rw [lookup_getElem]
  refine ⟨fun d hd => ?_, fun d hd => ?_, fun d hd => ?_, fun hspace => ?_, fun hupper hlower hdigit hspace => ?_⟩
  · rw [dif_pos (by omega)]
    simp only [hd, Nat.add_sub_cancel_left]
  · rw [dif_neg (by omega), dif_pos (by omega)]
    simp only [hd, Nat.add_sub_cancel_left]
  · rw [dif_neg (by omega), dif_neg (by omega), dif_pos (by omega)]
    simp only [hd, Nat.add_sub_cancel_left]
  · rw [dif_neg (by omega), dif_neg (by omega), dif_neg (by omega), if_pos hspace]
  · rw [dif_neg hupper, dif_neg hlower, dif_neg hdigit, if_neg hspace]

end Sys2Proof.Machine
end

-- Proofs of other families: the wire slots, the words of the encoding tables, and the display.
section
/-! SUPPORT. The commit of a slot in a chip's shift register, and what the LEDs of a chip show (rules R80, R82, R224, R225,
R230). -/

namespace Sys2Proof.Machine

/-! ### Wire slots -/

/-- Settles O35: each slot's meaning is a write of the chip whose turn it is. -/
theorem wireSlotsWriteOneChipRegister : Obligations.WireSlotsWriteOneChipRegister :=
  fun _ _ _ _ _ => ⟨rfl, rfl, rfl, rfl, rfl, rfl, rfl, rfl, rfl, rfl, rfl, rfl, rfl, rfl⟩

theorem mapped_noop : Mapped params params.opcNoop := by unfold Mapped; decide

theorem write_noop (c free : ChipRegs) (v : Byte) : c.write params free params.opcNoop v = c := rfl

/-- The commit of the slot of an instruction, with a wire opcode that has an effect, writes that opcode's register of the
chip whose turn it is and draws no free values (rules R80, R224). -/
theorem commitOne_of_encode {s : State} {i : Instr} {opc val : Byte} (h : encode i = some (.slot s.sr[s.rx]))
    (hi : encode i = some (.slot (slotWord val opc))) (hmap : Mapped params opc) :
    s.commitOne params = s.writeChip fun c => c.write params (freeChip s.freeCount s.rx) opc val := by
  obtain ⟨h16, hspec⟩ := hmap
  have hslot : s.sr[s.rx] = slotWord val opc := CodeWord.slot.inj (Option.some.inj (h.symm.trans hi))
  have hvalue : slotValue params s.sr[s.rx] = val := hslot ▸ slotValue_pair params opc val
  have hopcode : slotOpcode params s.sr[s.rx] = opc := hslot ▸ slotOpcode_pair params opc val h16
  have hdraw : s.slotUnspecified params s.rx = false := by rw [State.slotUnspecified, hopcode, hspec]
  simp only [State.commitOne, State.committed, hvalue, hopcode, hdraw, State.writeChip]
  rfl

/-- Settles O36: a slot that decodes is the one the encoder writes for its instruction, so its commit is a write with that
instruction's wire opcode and value. -/
theorem commitExecutesTheDecodedSlot : Obligations.CommitExecutesTheDecodedSlot := by
  intro s i hd
  have hi := isCommand_of_decodeSlot hd
  have hencode := encode_of_decodeSlot hd
  cases i with
  | wNoop =>
    rw [commitOne_of_encode hencode rfl mapped_noop]
    simp only [exec, execWNoop, State.writeChip, write_noop, Fin.getElem_fin, Vector.set_getElem_self]
  | wRow0 | wRow1 | wRow2 | wRow3 | wRow4 | wRow5 | wRow6 | wRow7 =>
    rw [commitOne_of_encode hencode rfl (mapped_row _)]
    simp only [write_row]
    rfl
  | wDecode =>
    rw [commitOne_of_encode hencode rfl mapped_decode]
    rfl
  | wDisplayTest =>
    rw [commitOne_of_encode hencode rfl mapped_displayTest]
    rfl
  | wIntensity v =>
    rw [commitOne_of_encode hencode rfl mapped_intensity]
    simp [exec, execWIntensity, write_intensity]
  | wScanLimit v =>
    rw [commitOne_of_encode hencode rfl mapped_scanLimit]
    simp [exec, execWScanLimit, write_scanLimit]
  | wShutdown v =>
    rw [commitOne_of_encode hencode rfl mapped_shutdown]
    simp [exec, execWShutdown, write_shutdown]
  | _ => cases hi

/-- Settles O50: nine words, each decoded by evaluation. -/
theorem wordsOfTheTablesDecode : Obligations.WordsOfTheTablesDecode :=
  ⟨rfl, rfl, rfl, rfl, rfl, rfl, rfl, rfl, rfl⟩

/-! ### The display -/

/-- A chip with decode and display test off shows its row registers, where it is powered up and the row is within its scan
limit (rule R230). -/
theorem lit_of_raw {chip : ChipRegs} (h : chip.Raw) (r c : Fin 8) : chip.lit params r c =
    (chip.shutdown == params.valPowerUp.setWidth 1 && decide (r.val ≤ chip.scanLimit.toNat) && bitAt chip.row[r] c) := by
  obtain ⟨hdecode, htest⟩ := h
  have hoff : (chip.displayTest == 1) = false := by rw [htest]; rfl
  have hraw : (chip.decode == 0) = true := by rw [hdecode]; rfl
  rw [ChipRegs.lit, hoff, hraw, Bool.false_or, Bool.and_true]

/-- A chip as the start-up leaves it is dark, for its rows are zero (rules R182, R230). -/
theorem lit_startUp (r c : Fin 8) : ChipRegs.startUp.lit params r c = false := by
  have hrow : ChipRegs.startUp.row[r] = 0 := vec8_getElem _ r
  rw [lit_of_raw ⟨rfl, rfl⟩, hrow, bitAt_zero, Bool.and_false]

/-- Under the invariant a chip of the chain shows the framebuffer's rows, where it is powered up and the row is within its
scan limit (rules R227, R230). -/
theorem lit_of_configured {s : State} (h : s.Configured params) {k : Fin 8} (hk : k.val < s.n.toNat) (r c : Fin 8) :
    s.lit params k r c = (s.chips[k].shutdown == params.valPowerUp.setWidth 1 &&
      decide (r.val ≤ s.chips[k].scanLimit.toNat) && bitAt (s.fbRow k r) c) := by
  rw [State.lit, lit_of_raw (h.rawBitmap k hk), h.agrees k r hk]

theorem rowsZero_configure (s : State) (n : BitVec 4) (o : Orientation) : (s.configure params n o).RowsZero := by
  rw [configure_eq_send]
  exact (rowsZero_claimed s n o).send _

/-- Settles O45: under the invariant every chip of the chain shows the framebuffer's rows; after CONFIGURE every chip is as
the start-up leaves it, and the framebuffer is zero. -/
theorem configuredDisplayShowsTheFramebuffer : Obligations.ConfiguredDisplayShowsTheFramebuffer := by
  refine ⟨fun s ⟨_, _, hconf⟩ hc k r c hk => ?_, fun s count o hc hrel ho => ?_⟩
  · rw [lit_of_configured (hconf hc) hk]
    refine ⟨fun hup hrow => ?_, fun hdown => ?_, fun hrow => ?_⟩
    · rw [hup, decide_eq_true hrow, beq_self_eq_true, Bool.true_and, Bool.true_and]
    · rw [hdown]
      rfl
    · rw [decide_eq_false (by omega), Bool.and_false, Bool.false_and]
  · obtain ⟨-, -, -, hlatch, -, -⟩ := hrel
    refine ⟨_, exec_configure_released hc hlatch ho count, fun k r c hk => ?_⟩
    rw [n_configure] at hk
    rw [State.lit, chips_configure s o hk, lit_startUp, rowsZero_configure s _ o k r, bitAt_zero]
    exact ⟨rfl, rfl⟩

end Sys2Proof.Machine
end
